-- ==== Sys2Proof/Config.lean ====
section
/-! DEFINITION. The parameters of the ISA (00_scope.md R2 to R6), the values that the model names where the spec
gives none, and its one free value. *word-size* is an argument of every definition that depends on it, and
a field of the machine's state. -/

namespace Sys2Proof

/-- A value of the parameter *word-size* within the bounds of R5, a multiple of 8 bits and at least 16: every value
of this type is a legal word size and every legal word size is one of them (`Config.wordSizeOf`). -/
structure WordSize where
  /-- *word-size* counted in bytes (R2). -/
  WB : Nat
  /-- At least 16 bits (R5). -/
  two_le_WB : 2 ≤ WB
deriving DecidableEq, Repr

/-- *word-size* counted in bits (R2): a byte is 8 bits. -/
def WordSize.W (z : WordSize) : Nat := 8 * z.WB

/-- *instr-size*: an instruction is four words (R3, R80). -/
def WordSize.IB (z : WordSize) : Nat := 4 * z.WB

/-- The number of addresses, `2^W` (R52). -/
def WordSize.addressSpace (z : WordSize) : Nat := 2 ^ z.W

end Sys2Proof

namespace Sys2Proof.Config

/-- The bounds of R5 on *word-size* in bits. -/
abbrev legalW (w : Nat) : Prop := 16 ≤ w ∧ w % 8 = 0

/-- The word size of so many bits, none where R5 excludes it (93_implementation_defined.md item 35). -/
def wordSizeOf (w : Nat) : Option WordSize := if h : legalW w then some ⟨w / 8, by omega⟩ else none

/-- The bounds of R5 on *num-gp-regs*: at least one register, and every operand-code fits a word. -/
abbrev legalNumGp (z : WordSize) (n : Nat) : Prop := 1 ≤ n ∧ n ≤ z.addressSpace - 256

/-- *word-size* of the machine that `State.reset` gives: 32 bits. DESIGN CHOICE: the reference configuration
of R6; the step itself works for every word size (log entry 1). -/
def resetSize : WordSize := ⟨4, by decide⟩

/-- *num-gp-regs* of the machine that `State.reset` gives (R4, R6). DESIGN CHOICE: the reference
configuration; the step itself works for every number of registers (log entry 2). -/
abbrev resetNumGp : Nat := 8

/-- The byte that an address nothing has been written to reads as. DESIGN CHOICE (log entry 4): the
spec makes the contents at start-up the parameter `InitMem` (R251) and gives no default; its own
programs take zero outside the loaded bytes. -/
def unlistedByte : BitVec 8 := 0

/-- `any_W()` of a division or remainder by zero (R137 to R140, D14): the value of the draw number
`n` on a machine of word size `z`. It has no body, so nothing can be proved of it but what holds of every
word (log entry 7). -/
opaque anyWord (z : WordSize) (n : Nat) : BitVec z.W

end Sys2Proof.Config
end

