-- ==== Sys2Proof/Word.lean ====
section
/-! DEFINITION. The machine word and the byte (00_scope.md R2, R7). `u(v)` of the spec is `v.toNat`,
`s(v)` is `v.toInt`, `n mod 2^W` is `BitVec.ofNat z.W n` or `BitVec.ofInt z.W n`. -/

namespace Sys2Proof

/-- A machine word of a machine of word size `z`: the only data size of the ISA (R7, R59). -/
abbrev Word (z : WordSize) := BitVec z.W

/-- A byte, eight bits (R2, R51). -/
abbrev Byte := BitVec 8

end Sys2Proof
end

