-- ==== Sys2Proof/Machine/Alu.lean ====
section
/-! DEFINITION. The results of the arithmetic, bitwise and shift instructions (40_arithmetic.md,
41_logic_shift.md), at any width `w`, as the spec's pseudocode has them. -/

namespace Sys2Proof.Machine

/-- `zxdw` (00_scope.md R13). -/
def zxdw {w : Nat} (a : BitVec w) : BitVec (2 * w) := a.setWidth (2 * w)

/-- `sxdw` (R13). -/
def sxdw {w : Nat} (a : BitVec w) : BitVec (2 * w) := a.signExtend (2 * w)

/-- `p[w-1:0]` of a double word. -/
def lowHalf {w : Nat} (p : BitVec (2 * w)) : BitVec w := p.extractLsb' 0 w

/-- `p[2w-1:w]` of a double word. -/
def highHalf {w : Nat} (p : BitVec (2 * w)) : BitVec w := p.extractLsb' w w

/-- `(u(a) + u(b)) mod 2^w` (R131). -/
def addResult {w : Nat} (a b : BitVec w) : BitVec w := BitVec.ofNat w (a.toNat + b.toNat)

/-- `(u(a) - u(b)) mod 2^w` (R132). -/
def subResult {w : Nat} (a b : BitVec w) : BitVec w := BitVec.ofInt w ((a.toNat : Int) - b.toNat)

/-- The low half of `zxdw(a) * zxdw(b)` (R133, C3). -/
def mulLow {w : Nat} (a b : BitVec w) : BitVec w := lowHalf (zxdw a * zxdw b)

/-- The high half of `sxdw(a) * sxdw(b)` (R134, C4). -/
def mulHighSS {w : Nat} (a b : BitVec w) : BitVec w := highHalf (sxdw a * sxdw b)

/-- The high half of `sxdw(a) * zxdw(b)` (R135): `a` is the signed one. -/
def mulHighSU {w : Nat} (a b : BitVec w) : BitVec w := highHalf (sxdw a * zxdw b)

/-- The high half of `zxdw(a) * zxdw(b)` (R136). -/
def mulHighUU {w : Nat} (a b : BitVec w) : BitVec w := highHalf (zxdw a * zxdw b)

/-- `trunc(s(a) / s(b)) mod 2^w`, the quotient rounded toward zero (R137, D12). -/
def divSigned {w : Nat} (a b : BitVec w) : BitVec w := BitVec.ofInt w (a.toInt.tdiv b.toInt)

/-- `floor(u(a) / u(b))` (R138). -/
def divUnsigned {w : Nat} (a b : BitVec w) : BitVec w := BitVec.ofNat w (a.toNat / b.toNat)

/-- `(s(a) - q * s(b)) mod 2^w` with `q` the truncated quotient (R139, D13). -/
def remSigned {w : Nat} (a b : BitVec w) : BitVec w :=
  BitVec.ofInt w (a.toInt - a.toInt.tdiv b.toInt * b.toInt)

/-- `u(a) mod u(b)` (R140). -/
def remUnsigned {w : Nat} (a b : BitVec w) : BitVec w := BitVec.ofNat w (a.toNat % b.toNat)

/-- Bit by bit AND (R151). -/
def andResult {w : Nat} (a b : BitVec w) : BitVec w := a &&& b

/-- Bit by bit OR (R152). -/
def orResult {w : Nat} (a b : BitVec w) : BitVec w := a ||| b

/-- Bit by bit XOR (R153). -/
def xorResult {w : Nat} (a b : BitVec w) : BitVec w := a ^^^ b

/-- Every bit inverted (R154). -/
def notResult {w : Nat} (a : BitVec w) : BitVec w := ~~~a

/-- Zeros enter at bit 0, bits past `w - 1` are lost (R155). -/
def shiftLeft {w : Nat} (a : BitVec w) (n : Nat) : BitVec w := a <<< n

/-- Zeros enter at bit `w - 1` (R156). -/
def shiftRight {w : Nat} (a : BitVec w) (n : Nat) : BitVec w := a >>> n

end Sys2Proof.Machine
end

