-- ==== Sys2Proof/Machine/Flags.lean ====
section
/-! DEFINITION. Every flag computation of the spec, at any width `w`: `status.overflow` (40_arithmetic.md
R131, R132, R137 to R141) and `status.cmp` (43_compare.md R191 to R193). -/

namespace Sys2Proof.Machine

/-- `add`: the unsigned sum wrapped, a carry out of bit `w - 1` (R131, D11). -/
def addWrapped {w : Nat} (a b : BitVec w) : Bool := decide (2 ^ w ≤ a.toNat + b.toNat)

/-- `sub`: the unsigned difference wrapped, a borrow (R132, D11). -/
def subWrapped {w : Nat} (a b : BitVec w) : Bool := decide (a.toNat < b.toNat)

/-- Divide and remainder: the divisor is not zero (R137 to R140; the polarity is the source's, C14). -/
def divisorNonzero {w : Nat} (b : BitVec w) : Bool := decide (b.toNat ≠ 0)

/-- `cmpeq`: identical bit patterns (R191). -/
def sameBits {w : Nat} (a b : BitVec w) : Bool := decide (a = b)

/-- `cmpltu`: less as unsigned integers (R192). -/
def lessUnsigned {w : Nat} (a b : BitVec w) : Bool := decide (a.toNat < b.toNat)

/-- `cmplts`: less as two's-complement integers (R193). -/
def lessSigned {w : Nat} (a b : BitVec w) : Bool := decide (a.toInt < b.toInt)

end Sys2Proof.Machine
end

