-- ==== Sys2Proof/Syntax.lean ====
section
/-! DEFINITION. The instructions of the ISA and their operands (30_encoding.md R86, R87, R105), the four
words of an encoded instruction (R80), and the names of the ways in which four words can fail to be
an instruction (R88). -/

namespace Sys2Proof

/-- *w-reg*, "a register into which most instructions can freely write" (10_state.md R30): the only
registers a destination slot may name. That `%pc` and `%status` are not among them is V8 of R88. -/
inductive WReg where
  | sp            -- `%sp`, operand-code 2
  | gp (k : Nat)  -- `%gpk`, operand-code 256 + k
deriving DecidableEq, Repr

/-- *r-reg*, "a register from which most instructions can freely read" (R30). That `%status` is not
among them is V7 of R88. -/
inductive RReg where
  | pc            -- `%pc`, operand-code 1: reads as `next_pc` (R33)
  | sp            -- `%sp`, operand-code 2
  | gp (k : Nat)  -- `%gpk`, operand-code 256 + k
deriving DecidableEq, Repr

/-- A source operand: "*r-reg* | *imm*". The three immediate classes of the assembly language are one
thing in the encoding (R87, R108). Instructions are the same things for every word size, so an immediate is the
number `u(v)` of the slot's bit pattern `v` (R85), which is below `2^W` where the instruction is well-formed. -/
inductive Operand where
  | imm (v : Nat)  -- the slot holds the bit pattern itself (R85)
  | reg (r : RReg)
deriving DecidableEq, Repr

/-- The 28 instructions of R86, in the order of their opcodes 1 to 28. Operands stand in slot order:
`d` is a destination (shape `D` of R87), `a` and `b` are sources (shape `S`). -/
inductive Instr where
  | add (d : WReg) (a b : Operand)  -- opcode 1, R131
  | sub (d : WReg) (a b : Operand)  -- opcode 2, R132
  | mul (d : WReg) (a b : Operand)  -- opcode 3, R133
  | mulhss (d : WReg) (a b : Operand)  -- opcode 4, R134
  | mulhsu (d : WReg) (a b : Operand)  -- opcode 5, R135
  | mulhuu (d : WReg) (a b : Operand)  -- opcode 6, R136
  | divss (d : WReg) (a b : Operand)  -- opcode 7, R137 (source spelling `dipss`)
  | divuu (d : WReg) (a b : Operand)  -- opcode 8, R138
  | remss (d : WReg) (a b : Operand)  -- opcode 9, R139
  | remuu (d : WReg) (a b : Operand)  -- opcode 10, R140
  | and (d : WReg) (a b : Operand)  -- opcode 11, R151
  | or (d : WReg) (a b : Operand)  -- opcode 12, R152
  | xor (d : WReg) (a b : Operand)  -- opcode 13, R153
  | not (d : WReg) (a : Operand)  -- opcode 14, R154
  | lsl (d : WReg) (a b : Operand)  -- opcode 15, R155; `b` is the amount
  | rsl (d : WReg) (a b : Operand)  -- opcode 16, R156; `b` is the amount
  | mov (d : WReg) (a : Operand)  -- opcode 17, R171
  | load (d : WReg) (a : Operand)  -- opcode 18, R172; `a` is the address
  | store (a b : Operand)  -- opcode 19, R173; `a` is the address, `b` the value
  | cmpeq (a b : Operand)  -- opcode 20, R191
  | cmpltu (a b : Operand)  -- opcode 21, R192
  | cmplts (a b : Operand)  -- opcode 22, R193
  | push (a : Operand)  -- opcode 23, R174
  | pop (d : WReg)  -- opcode 24, R175
  | jmp (a : Operand)  -- opcode 25, R201
  | br (a : Operand)  -- opcode 26, R202
  | brcond (a : Operand)  -- opcode 27, R203
  | halt  -- opcode 28, R204
deriving DecidableEq, Repr

/-- The four words of an encoded instruction, word 0 at the lowest address (R80). -/
structure Words (z : WordSize) where
  w0 : Word z
  w1 : Word z
  w2 : Word z
  w3 : Word z
deriving DecidableEq, Repr

/-- Why four words are not a valid instruction: the conditions V1 to V8 of R88, each named by what
fails. `tooShort` is the byte decoder's own: fewer than `IB` bytes were given to it, which a fetch
never does. -/
inductive Invalid where
  | unknownOpcode      -- V1: the opcode is not in 1 .. 28
  | reservedBits       -- V2: bits [7:6] of word 0 are not 00b
  | reservedKind       -- V3: an operand kind is 11b
  | wrongShape         -- V4: the operand kinds do not fit the opcode
  | unusedSlotNotZero  -- V5: a slot of kind 00b does not hold zero
  | noSuchRegister     -- V6: a register slot names no register of this machine
  | notReadable        -- V7: a source slot names `%status`
  | notWritable        -- V8: a destination slot names `%pc` or `%status`
  | tooShort           -- the model's own: fewer bytes than an instruction has
deriving DecidableEq, Repr

end Sys2Proof
end

