-- ==== Sys2Proof/WellFormed.lean ====
section
/-! DEFINITION. Well-formed instructions on a machine of word size `z` with `n` general-purpose registers: every
register that an instruction names exists (30_encoding.md R88 V6) and every immediate is a word (R85). The other
conditions of R88 hold of every term of `Instr` by its type: kinds and shapes (V3, V4), unused slots (V5), register
classes (V7, V8). -/

namespace Sys2Proof

/-- A destination register exists (R28: the registers are `%gp0` .. `%gp(n-1)`). -/
def WReg.wf (n : Nat) : WReg → Bool
  | .sp => true
  | .gp k => decide (k < n)

/-- A readable register exists (R28). -/
def RReg.wf (n : Nat) : RReg → Bool
  | .pc => true
  | .sp => true
  | .gp k => decide (k < n)

/-- An immediate may be any bit pattern of a word (R85, R88); a register must exist. -/
def Operand.wf (z : WordSize) (n : Nat) : Operand → Bool
  | .imm v => decide (v < z.addressSpace)
  | .reg r => r.wf n

/-- Every operand of the instruction is well-formed. -/
def Instr.wf (z : WordSize) (n : Nat) : Instr → Bool
  | .add d a b => d.wf n && a.wf z n && b.wf z n
  | .sub d a b => d.wf n && a.wf z n && b.wf z n
  | .mul d a b => d.wf n && a.wf z n && b.wf z n
  | .mulhss d a b => d.wf n && a.wf z n && b.wf z n
  | .mulhsu d a b => d.wf n && a.wf z n && b.wf z n
  | .mulhuu d a b => d.wf n && a.wf z n && b.wf z n
  | .divss d a b => d.wf n && a.wf z n && b.wf z n
  | .divuu d a b => d.wf n && a.wf z n && b.wf z n
  | .remss d a b => d.wf n && a.wf z n && b.wf z n
  | .remuu d a b => d.wf n && a.wf z n && b.wf z n
  | .and d a b => d.wf n && a.wf z n && b.wf z n
  | .or d a b => d.wf n && a.wf z n && b.wf z n
  | .xor d a b => d.wf n && a.wf z n && b.wf z n
  | .not d a => d.wf n && a.wf z n
  | .lsl d a b => d.wf n && a.wf z n && b.wf z n
  | .rsl d a b => d.wf n && a.wf z n && b.wf z n
  | .mov d a => d.wf n && a.wf z n
  | .load d a => d.wf n && a.wf z n
  | .store a b => a.wf z n && b.wf z n
  | .cmpeq a b => a.wf z n && b.wf z n
  | .cmpltu a b => a.wf z n && b.wf z n
  | .cmplts a b => a.wf z n && b.wf z n
  | .push a => a.wf z n
  | .pop d => d.wf n
  | .jmp a => a.wf z n
  | .br a => a.wf z n
  | .brcond a => a.wf z n
  | .halt => true

end Sys2Proof
end

