-- ==== Sys2Proof/Decode.lean ====
section
/-! DEFINITION. The decoder and the encoder (30_encoding.md R80 to R94), on words and on bytes, both
written from the encoding tables of the spec. The decoder is total: it answers an instruction or the
first condition of R88 that fails. -/

namespace Sys2Proof

open Config

/-! ## Fields of the operation word (R81) -/

/-- Operand kinds (R82). -/
inductive Kind where
  | none      -- 00b: no operand, the slot holds zero
  | imm       -- 01b: the slot holds an immediate
  | reg       -- 10b: the slot holds a register's operand-code
  | reserved  -- 11b
deriving DecidableEq, Repr

/-- The kind that two bits stand for (R82). -/
def kindOf (b : BitVec 2) : Kind :=
  match b.toNat with
  | 0 => .none
  | 1 => .imm
  | 2 => .reg
  | _ => .reserved

/-- Bits `[W-1:8]` of word 0, as an unsigned integer (R81). -/
def opcodeOf {z : WordSize} (w0 : Word z) : Nat := (w0 >>> 8).toNat

/-- Bits `[7:6]` of word 0, which must be `00b` (R81, R88 V2). -/
def rsvdOf {z : WordSize} (w0 : Word z) : BitVec 2 := w0.extractLsb' 6 2

/-- Bits `[5:4]`: the kind of operand 1. -/
def k1Of {z : WordSize} (w0 : Word z) : Kind := kindOf (w0.extractLsb' 4 2)

/-- Bits `[3:2]`: the kind of operand 2. -/
def k2Of {z : WordSize} (w0 : Word z) : Kind := kindOf (w0.extractLsb' 2 2)

/-- Bits `[1:0]`: the kind of operand 3. -/
def k3Of {z : WordSize} (w0 : Word z) : Kind := kindOf (w0.extractLsb' 0 2)

/-! ## Shapes (R87) -/

/-- What an operand slot of an instruction may hold (R87). -/
inductive Slot where
  | none  -- `--`: kind 00b only
  | dst   -- `D`, a *w-reg*: kind 10b only
  | src   -- `S`, "*r-reg* | *imm*": kind 10b or 01b
deriving DecidableEq, Repr

/-- The three slots of an instruction. -/
structure Shape where
  s1 : Slot
  s2 : Slot
  s3 : Slot
deriving DecidableEq, Repr

/-- The shape of each opcode (R87), none where the opcode selects no instruction (R86). -/
def shapeOf (opcode : Nat) : Option Shape :=
  match opcode with
  | 1 | 2 | 3 | 4 | 5 | 6 | 7 | 8 | 9 | 10 | 11 | 12 | 13 | 15 | 16 => some ⟨.dst, .src, .src⟩
  | 14 | 17 | 18 => some ⟨.dst, .src, .none⟩
  | 19 | 20 | 21 | 22 => some ⟨.src, .src, .none⟩
  | 23 | 25 | 26 | 27 => some ⟨.src, .none, .none⟩
  | 24 => some ⟨.dst, .none, .none⟩
  | 28 => some ⟨.none, .none, .none⟩
  | _ => none

/-- The kinds a slot may carry (R87). -/
def Slot.fits : Slot → Kind → Bool
  | .none, .none => true
  | .dst, .reg => true
  | .src, .imm => true
  | .src, .reg => true
  | _, _ => false

/-! ## Validity (R88) -/

/-- An operand-code of a register of a machine with `n` general-purpose registers (R29, R88 V6):
1 `%pc`, 2 `%sp`, 3 `%status`, `256 + k` for `k < n`. -/
def registerExists {z : WordSize} (n : Nat) (w : Word z) : Bool :=
  decide (w.toNat = 1 ∨ w.toNat = 2 ∨ w.toNat = 3 ∨ (256 ≤ w.toNat ∧ w.toNat < 256 + n))

/-- V5 on one slot: a slot of kind 00b holds zero. -/
def slotZero {z : WordSize} (k : Kind) (w : Word z) : Bool := k != .none || w == 0

/-- V6 on one slot: a slot of kind 10b names an existing register. -/
def slotExists {z : WordSize} (n : Nat) (k : Kind) (w : Word z) : Bool := k != .reg || registerExists n w

/-- V7 on one slot: a source register is not `%status`. -/
def slotReadable {z : WordSize} (sl : Slot) (k : Kind) (w : Word z) : Bool :=
  sl != .src || k != .reg || decide (w.toNat ≠ 3)

/-- V8 on one slot: a destination is neither `%pc` nor `%status`. -/
def slotWritable {z : WordSize} (sl : Slot) (w : Word z) : Bool :=
  sl != .dst || decide (w.toNat ≠ 1 ∧ w.toNat ≠ 3)

/-- The first of V1 to V8 that fails on four words, none if they are a valid instruction (R88, and the
order of R226 point 3). -/
def firstInvalid {z : WordSize} (n : Nat) (ws : Words z) : Option Invalid :=
  match shapeOf (opcodeOf ws.w0) with
  | none => some .unknownOpcode
  | some sh =>
    let k1 := k1Of ws.w0
    let k2 := k2Of ws.w0
    let k3 := k3Of ws.w0
    if rsvdOf ws.w0 ≠ 0 then some .reservedBits
    else if k1 = .reserved ∨ k2 = .reserved ∨ k3 = .reserved then some .reservedKind
    else if !(sh.s1.fits k1 && sh.s2.fits k2 && sh.s3.fits k3) then some .wrongShape
    else if !(slotZero k1 ws.w1 && slotZero k2 ws.w2 && slotZero k3 ws.w3) then
      some .unusedSlotNotZero
    else if !(slotExists n k1 ws.w1 && slotExists n k2 ws.w2 && slotExists n k3 ws.w3) then
      some .noSuchRegister
    else if !(slotReadable sh.s1 k1 ws.w1 && slotReadable sh.s2 k2 ws.w2
        && slotReadable sh.s3 k3 ws.w3) then
      some .notReadable
    else if !(slotWritable sh.s1 ws.w1 && slotWritable sh.s2 ws.w2 && slotWritable sh.s3 ws.w3) then
      some .notWritable
    else none

/-! ## The decoder -/

/-- The destination that an operand-code names (R84); read only where V6 and V8 hold. -/
def dstOf {z : WordSize} (w : Word z) : WReg := if w.toNat = 2 then .sp else .gp (w.toNat - 256)

/-- The readable register that an operand-code names (R84); read only where V6 and V7 hold. -/
def rregOf {z : WordSize} (w : Word z) : RReg :=
  if w.toNat = 1 then .pc else if w.toNat = 2 then .sp else .gp (w.toNat - 256)

/-- A source operand: the slot's bit pattern, or the register it names (R83). -/
def srcOf {z : WordSize} (k : Kind) (w : Word z) : Operand :=
  if k = .imm then .imm w.toNat else .reg (rregOf w)

/-- The instruction that the opcode and the slots of valid words stand for (R86). -/
def build {z : WordSize} (ws : Words z) : Except Invalid Instr :=
  let k1 := k1Of ws.w0
  let k2 := k2Of ws.w0
  let k3 := k3Of ws.w0
  match opcodeOf ws.w0 with
  | 1 => .ok (.add (dstOf ws.w1) (srcOf k2 ws.w2) (srcOf k3 ws.w3))
  | 2 => .ok (.sub (dstOf ws.w1) (srcOf k2 ws.w2) (srcOf k3 ws.w3))
  | 3 => .ok (.mul (dstOf ws.w1) (srcOf k2 ws.w2) (srcOf k3 ws.w3))
  | 4 => .ok (.mulhss (dstOf ws.w1) (srcOf k2 ws.w2) (srcOf k3 ws.w3))
  | 5 => .ok (.mulhsu (dstOf ws.w1) (srcOf k2 ws.w2) (srcOf k3 ws.w3))
  | 6 => .ok (.mulhuu (dstOf ws.w1) (srcOf k2 ws.w2) (srcOf k3 ws.w3))
  | 7 => .ok (.divss (dstOf ws.w1) (srcOf k2 ws.w2) (srcOf k3 ws.w3))
  | 8 => .ok (.divuu (dstOf ws.w1) (srcOf k2 ws.w2) (srcOf k3 ws.w3))
  | 9 => .ok (.remss (dstOf ws.w1) (srcOf k2 ws.w2) (srcOf k3 ws.w3))
  | 10 => .ok (.remuu (dstOf ws.w1) (srcOf k2 ws.w2) (srcOf k3 ws.w3))
  | 11 => .ok (.and (dstOf ws.w1) (srcOf k2 ws.w2) (srcOf k3 ws.w3))
  | 12 => .ok (.or (dstOf ws.w1) (srcOf k2 ws.w2) (srcOf k3 ws.w3))
  | 13 => .ok (.xor (dstOf ws.w1) (srcOf k2 ws.w2) (srcOf k3 ws.w3))
  | 14 => .ok (.not (dstOf ws.w1) (srcOf k2 ws.w2))
  | 15 => .ok (.lsl (dstOf ws.w1) (srcOf k2 ws.w2) (srcOf k3 ws.w3))
  | 16 => .ok (.rsl (dstOf ws.w1) (srcOf k2 ws.w2) (srcOf k3 ws.w3))
  | 17 => .ok (.mov (dstOf ws.w1) (srcOf k2 ws.w2))
  | 18 => .ok (.load (dstOf ws.w1) (srcOf k2 ws.w2))
  | 19 => .ok (.store (srcOf k1 ws.w1) (srcOf k2 ws.w2))
  | 20 => .ok (.cmpeq (srcOf k1 ws.w1) (srcOf k2 ws.w2))
  | 21 => .ok (.cmpltu (srcOf k1 ws.w1) (srcOf k2 ws.w2))
  | 22 => .ok (.cmplts (srcOf k1 ws.w1) (srcOf k2 ws.w2))
  | 23 => .ok (.push (srcOf k1 ws.w1))
  | 24 => .ok (.pop (dstOf ws.w1))
  | 25 => .ok (.jmp (srcOf k1 ws.w1))
  | 26 => .ok (.br (srcOf k1 ws.w1))
  | 27 => .ok (.brcond (srcOf k1 ws.w1))
  | 28 => .ok .halt
  | _ => .error .unknownOpcode

/-- The decoder on four words (R94: total), for a machine with `n` general-purpose registers. -/
def decode {z : WordSize} (n : Nat) (ws : Words z) : Except Invalid Instr :=
  match firstInvalid n ws with
  | some e => .error e
  | none => build ws

/-! ## Words and bytes (20_memory.md R56, R61) -/

/-- Byte `i` of a word: bits `[8i+7:8i]` (R56). -/
def wordByte {z : WordSize} (w : Word z) (i : Nat) : Byte := w.extractLsb' (8 * i) 8

/-- The bytes of a word in address order, the least significant first (R56, R61). -/
def wordBytes {z : WordSize} (w : Word z) : List Byte := (List.range z.WB).map (wordByte w)

/-- The word whose bytes in address order are given (R56). -/
def wordOfBytes (z : WordSize) : List Byte → Word z
  | [] => 0
  | b :: bs => (wordOfBytes z bs <<< 8) ||| b.setWidth z.W

/-- The bytes of an instruction in address order: word 0 lowest (R80). -/
def Words.bytes {z : WordSize} (ws : Words z) : List Byte :=
  wordBytes ws.w0 ++ wordBytes ws.w1 ++ wordBytes ws.w2 ++ wordBytes ws.w3

/-- The four words at the head of a list of bytes (R61); only the first `IB` bytes count. -/
def wordsOfBytes (z : WordSize) (bs : List Byte) : Words z :=
  ⟨wordOfBytes z (bs.take z.WB), wordOfBytes z ((bs.drop z.WB).take z.WB),
    wordOfBytes z ((bs.drop (2 * z.WB)).take z.WB), wordOfBytes z ((bs.drop (3 * z.WB)).take z.WB)⟩

/-- The decoder on any list of bytes: the instruction at its head and the bytes after it (R90: every
instruction is `IB` bytes long). -/
def decodeBytes (z : WordSize) (n : Nat) (bs : List Byte) : Except Invalid (Instr × List Byte) :=
  if bs.length < z.IB then .error .tooShort
  else match decode n (wordsOfBytes z bs) with
    | .error e => .error e
    | .ok i => .ok (i, bs.drop z.IB)

/-! ## The encoder (R107) -/

/-- A destination's operand-code (R29). -/
def WReg.code (z : WordSize) : WReg → Word z
  | .sp => 2
  | .gp k => BitVec.ofNat z.W (256 + k)

/-- A readable register's operand-code (R29). -/
def RReg.code (z : WordSize) : RReg → Word z
  | .pc => 1
  | .sp => 2
  | .gp k => BitVec.ofNat z.W (256 + k)

/-- The kind field of a source operand (R82). -/
def Operand.kind : Operand → Nat
  | .imm _ => 1
  | .reg _ => 2

/-- The slot of a source operand (R83). -/
def Operand.slot (z : WordSize) : Operand → Word z
  | .imm v => BitVec.ofNat z.W v
  | .reg r => r.code z

/-- The operation word: `(opcode << 8) | (k1 << 4) | (k2 << 2) | k3` (R81). -/
def opWord (z : WordSize) (opcode k1 k2 k3 : Nat) : Word z :=
  BitVec.ofNat z.W (opcode <<< 8 ||| k1 <<< 4 ||| k2 <<< 2 ||| k3)

/-- Shape `D,S,S` (R87). -/
def encDSS (z : WordSize) (opcode : Nat) (d : WReg) (a b : Operand) : Words z :=
  ⟨opWord z opcode 2 a.kind b.kind, d.code z, a.slot z, b.slot z⟩

/-- Shape `D,S` (R87). -/
def encDS (z : WordSize) (opcode : Nat) (d : WReg) (a : Operand) : Words z :=
  ⟨opWord z opcode 2 a.kind 0, d.code z, a.slot z, 0⟩

/-- Shape `S,S` (R87). -/
def encSS (z : WordSize) (opcode : Nat) (a b : Operand) : Words z :=
  ⟨opWord z opcode a.kind b.kind 0, a.slot z, b.slot z, 0⟩

/-- Shape `S` (R87). -/
def encS (z : WordSize) (opcode : Nat) (a : Operand) : Words z := ⟨opWord z opcode a.kind 0 0, a.slot z, 0, 0⟩

/-- Shape `D` (R87). -/
def encD (z : WordSize) (opcode : Nat) (d : WReg) : Words z := ⟨opWord z opcode 2 0 0, d.code z, 0, 0⟩

/-- The words of an instruction (R107), opcodes as in R86. -/
def encode (z : WordSize) : Instr → Words z
  | .add d a b => encDSS z 1 d a b
  | .sub d a b => encDSS z 2 d a b
  | .mul d a b => encDSS z 3 d a b
  | .mulhss d a b => encDSS z 4 d a b
  | .mulhsu d a b => encDSS z 5 d a b
  | .mulhuu d a b => encDSS z 6 d a b
  | .divss d a b => encDSS z 7 d a b
  | .divuu d a b => encDSS z 8 d a b
  | .remss d a b => encDSS z 9 d a b
  | .remuu d a b => encDSS z 10 d a b
  | .and d a b => encDSS z 11 d a b
  | .or d a b => encDSS z 12 d a b
  | .xor d a b => encDSS z 13 d a b
  | .not d a => encDS z 14 d a
  | .lsl d a b => encDSS z 15 d a b
  | .rsl d a b => encDSS z 16 d a b
  | .mov d a => encDS z 17 d a
  | .load d a => encDS z 18 d a
  | .store a b => encSS z 19 a b
  | .cmpeq a b => encSS z 20 a b
  | .cmpltu a b => encSS z 21 a b
  | .cmplts a b => encSS z 22 a b
  | .push a => encS z 23 a
  | .pop d => encD z 24 d
  | .jmp a => encS z 25 a
  | .br a => encS z 26 a
  | .brcond a => encS z 27 a
  | .halt => ⟨opWord z 28 0 0 0, 0, 0, 0⟩

/-- The bytes of an instruction in memory, in address order (R80, R61). -/
def encodeBytes (z : WordSize) (i : Instr) : List Byte := (encode z i).bytes

/-! ## The words of the opcode table -/

/-- The `n` low bytes of a number, the least significant first. -/
def natBytes (w n : Nat) : List Byte := (List.range n).map fun i => BitVec.ofNat 8 (w >>> (8 * i))

/-- The instruction bytes that a number of the opcode table stands for: bit 0 is the least significant
bit of word 0, later words count on, every bit from `nbits` up is zero. The words are little-endian
(R61), so byte `i` of the instruction is bits `[8i+7:8i]` of the number. -/
def tableBytes (z : WordSize) (nbits w : Nat) : List Byte := natBytes (w % 2 ^ nbits) z.IB

/-- What the byte decoder reads from an instruction whose bits are `w`, none where it refuses. The
word size and the number of registers are those of `State.reset`. -/
def decodeTableWord (nbits w : Nat) : Option Instr :=
  match decodeBytes resetSize resetNumGp (tableBytes resetSize nbits w) with
  | .ok (i, _) => some i
  | .error _ => none

end Sys2Proof
end

