-- ==== Sys2Proof/Machine/State.lean ====
section
/-! DEFINITION. The machine's state (10_state.md), the ways a step can stop (60_exceptions.md R224), and
the state right after start-up (R41, R250). -/

namespace Sys2Proof.Machine

open Config

/-- A general-purpose register (R28): its value, and whether anything has written it since start-up,
the bookkeeping that R40 allows a model for the "no value" of R36. The value is there from reset on
(log entry 5). -/
structure GpReg (z : WordSize) where
  value : Word z
  written : Bool
deriving DecidableEq, Repr

/-- A flag of `%status` whose initial value the spec leaves undefined (R24, R25), with the same
bookkeeping (log entry 6). -/
structure Flag where
  value : Bool
  written : Bool
deriving DecidableEq, Repr

/-- Memory: the bytes of the flat address space (R38, R50), as (address, byte) pairs with the addresses
strictly rising and no byte equal to `Config.unlistedByte`, which every address not listed reads as. -/
abbrev Memory := List Host.Cell

/-- What the platform does with an address (20_memory.md R53). -/
inductive Mapping where
  | ram
  | refused
deriving DecidableEq, Repr

/-- A range of refused addresses, `base .. base + size - 1` (R53). -/
structure Region where
  base : Nat
  size : Nat
deriving DecidableEq, Repr

/-- The registers of R21 to R28 and memory (R38) of a machine of word size `z`, and, since a step takes nothing but
the state, two parameters of the machine that no step changes (R42): *num-gp-regs*, which is the length of
`gp` (log entry 2), and the platform's `Mapped` (log entry 3). -/
structure Cpu (z : WordSize) where
  /-- `%pc` (R21): between instructions the address of the next instruction to be fetched, and while an
  instruction executes the address of the one after it, `next_pc`. -/
  pc : Word z
  /-- `%sp` (R22). -/
  sp : Word z
  /-- `%gp0`, `%gp1`, … (R28), register `k` at index `k`. -/
  gp : List (GpReg z)
  /-- `%status.cmp` (R24). -/
  cmp : Flag
  /-- `%status.overflow` (R25). -/
  overflow : Flag
  /-- `%status.halt` (R26): set when the machine is halted. -/
  halt : Bool
  /-- Memory (R38). -/
  mem : Memory
  /-- The addresses with `Mapped = refused` (R53); every other address is `ram`. -/
  refused : List Region
  /-- The model's own field: how many values `any_W()` (R137) have been drawn (log entry 7). -/
  draws : Nat
deriving DecidableEq, Repr

/-- The whole state: the parameter *word-size* (R2, R42), which no step changes, and the machine of that size. -/
structure State where
  /-- *word-size*: one within the bounds of R5, by its type. -/
  size : WordSize
  /-- Registers and memory. -/
  cpu : Cpu size
deriving DecidableEq, Repr

/-- The faults of R224. Each ends the run; the state stays what it was before the step (R225), so a
fault says nothing of its own about the state. All are safe: the spec itself makes each of them a
fault, and where hardware would go on, the model stops. The arguments are the "report" column of R224, words as the
numbers `u(v)` and offsets as the numbers `s(v)`. -/
inductive Fault where
  /-- Every step: the instruction at `a` has `a + IB ≥ 2^W` (R32), with no offset; `br` and a taken
  `brcond` at `a`: the target leaves the address space (R202, R203), with the offset. Safe. -/
  | pcOverflow (a : Nat) (offset : Option Int)
  /-- Fetch, `load`, `store`, `push`, `pop`: a byte of the access is refused, the lowest one is
  reported (R53). Safe. -/
  | accessRefused (address : Nat)
  /-- `load`, `store`, `pop`: a word access runs past the top of the address space (R60). Safe. -/
  | addressWrap (address : Nat)
  /-- The step, when the four words at `%pc` are not a valid instruction (R89), with the first
  condition of R88 that fails; the address and the words are those of the untouched state. A meaning
  that is handed an ill-formed term raises it too, with `noSuchRegister`; no step does that. Safe. -/
  | invalidInstruction (why : Invalid)
  /-- `lsl`, `rsl`: the shift amount is greater than `W` (R155, R156). Safe. -/
  | illegalShift (amount : Nat)
  /-- `push`: `%sp` would go below 0 (R174); `pop`: `%sp` would pass `2^W - 1` (R175). Safe. -/
  | spWrap (sp : Nat)
  /-- Any instruction with destination `%sp`: the value is not a multiple of `WB` (R35). Safe. -/
  | spMisaligned (value : Nat)
deriving DecidableEq, Repr

/-- Refusals. Every instruction of the table has its meaning, so nothing raises one. -/
inductive Refusal where
  /-- An instruction without a meaning yet, by its mnemonic: raised by no arm. Safe. -/
  | notModelled (mnemonic : String)
deriving DecidableEq, Repr

/-- A register at start-up, whose initial value is "undefined" (R28, R41): nothing has written it.
DESIGN CHOICE: the value it holds is zero (log entry 5). -/
def GpReg.unwritten {z : WordSize} : GpReg z := ⟨0, false⟩

/-- A flag at start-up, whose initial value is "undefined" (R24, R25, R41). DESIGN CHOICE: the value it
holds is 0 (log entry 6). -/
def Flag.unwritten : Flag := ⟨false, false⟩

/-- A machine right after start-up (R41, R250), of word size `z`, with `n` general-purpose registers and some
addresses refused: `%pc = 0`, `%sp = 0`, `%status.halt = 1`, no register and no other flag written, memory with
nothing listed (log entry 4), nothing drawn. -/
def Cpu.start (z : WordSize) (n : Nat) (refused : List Region) : Cpu z where
  pc := 0
  sp := 0
  gp := List.replicate n GpReg.unwritten
  cmp := Flag.unwritten
  overflow := Flag.unwritten
  halt := true
  mem := []
  refused := refused
  draws := 0

/-- The machine right after start-up, in the reference configuration (R6) and with every address `ram` (R53's
default). The machine comes up halted and runs from the host's `Start` on (R253). -/
def State.reset : State := ⟨resetSize, Cpu.start resetSize resetNumGp []⟩

end Sys2Proof.Machine
end

