-- ==== Sys2Proof/Machine/Ops.lean ====
section
/-! DEFINITION. The named operations over registers and memory that every meaning is written with
(10_state.md, 20_memory.md), and the placing of bytes and start-up (70_reset_and_hazards.md R250, R251).

TAKING AN EXCEPTION, AND RETURNING FROM ONE: the ISA has neither (60_exceptions.md R220, R230, R231): no
state is saved, no mode changes, there is no vector and no return instruction. What the spec has in
their place is the fault of R225, which ends the run and leaves the state as it was. -/

namespace Sys2Proof.Machine

open Config

/-- What a step or an instruction answers. -/
abbrev Result := Host.Outcome State Fault Refusal

/-- The same within a machine of one word size, which is where the meanings are written. -/
abbrev CpuResult (z : WordSize) := Host.Outcome (Cpu z) Fault Refusal

/-- Run a meaning on the machine that a state holds. The word size stays what it is (R42). -/
def State.on (s : State) (f : Cpu s.size → CpuResult s.size) : Result :=
  match f s.cpu with
  | .next t => .next ⟨s.size, t⟩
  | .fault e => .fault e
  | .refused r => .refused r

variable {z : WordSize}

/-! ## Registers (R20: all are distinct, each is written by one of these and by nothing else) -/

/-- *num-gp-regs* of this machine (R4, R42). -/
def Cpu.numGp (s : Cpu z) : Nat := s.gp.length

/-- `pc <- v`. -/
def Cpu.setPc (s : Cpu z) (v : Word z) : Cpu z := { s with pc := v }

/-- `sp <- v`. -/
def Cpu.setSp (s : Cpu z) (v : Word z) : Cpu z := { s with sp := v }

/-- `gp[k] <- v`: the register has a value from then on (R36). -/
def Cpu.setGp (s : Cpu z) (k : Nat) (v : Word z) : Cpu z :=
  { s with gp := s.gp.set k ⟨v, true⟩ }

/-- `status.cmp <- b`, the other flags as they were (R37). -/
def Cpu.setCmp (s : Cpu z) (b : Bool) : Cpu z := { s with cmp := ⟨b, true⟩ }

/-- `status.overflow <- b`, the other flags as they were (R37). -/
def Cpu.setOverflow (s : Cpu z) (b : Bool) : Cpu z := { s with overflow := ⟨b, true⟩ }

/-- `status.halt <- b`, the other flags as they were (R37). -/
def Cpu.setHalt (s : Cpu z) (b : Bool) : Cpu z := { s with halt := b }

/-- Memory replaced. -/
def Cpu.setMem (s : Cpu z) (m : Memory) : Cpu z := { s with mem := m }

/-- `any_W()` (00_scope.md section 5.2): the value of the next draw. -/
def Cpu.anyW (s : Cpu z) : Word z := anyWord z s.draws

/-- One more value drawn. -/
def Cpu.tick (s : Cpu z) : Cpu z := { s with draws := s.draws + 1 }

/-! ## Memory as bytes (R51) -/

/-- The byte at an address. -/
def Memory.byteAt : Memory → Nat → Byte
  | [], _ => unlistedByte
  | (k, b) :: m, a => if k = a then b else Memory.byteAt m a

/-- `mem[a] <- v`, keeping the canonical form: the entry is removed where `v` is what an unlisted
address reads as. -/
def Memory.setByte : Memory → Nat → Byte → Memory
  | [], a, v => if v = unlistedByte then [] else [(a, v)]
  | (k, b) :: m, a, v =>
    if a < k then (if v = unlistedByte then (k, b) :: m else (a, v) :: (k, b) :: m)
    else if a = k then (if v = unlistedByte then m else (a, v) :: m)
    else (k, b) :: Memory.setByte m a v

/-- The canonical form: addresses strictly rising from `low` on, all of them addresses (R52), and no
byte that an unlisted address reads as. -/
def Memory.wfFrom (z : WordSize) : Nat → Memory → Bool
  | _, [] => true
  | low, (k, b) :: m =>
    decide (low ≤ k) && decide (k < z.addressSpace) && decide (b ≠ unlistedByte)
      && Memory.wfFrom z (k + 1) m

/-- The canonical form of a whole memory. -/
def Memory.wf (z : WordSize) (m : Memory) : Bool := Memory.wfFrom z 0 m

/-- The `n` bytes from `a` up, in address order. -/
def Memory.bytesAt (m : Memory) (a : Nat) : Nat → List Byte
  | 0 => []
  | n + 1 => m.byteAt a :: m.bytesAt (a + 1) n

/-- Bytes stored from `a` up, in address order. -/
def Memory.setBytes : Memory → Nat → List Byte → Memory
  | m, _, [] => m
  | m, a, b :: bs => Memory.setBytes (m.setByte a b) (a + 1) bs

/-- The word at `a .. a + WB - 1`, byte `a` its bits `[7:0]` (R56, R57). -/
def Memory.wordAt (z : WordSize) (m : Memory) (a : Nat) : Word z := wordOfBytes z (m.bytesAt a z.WB)

/-- The word `v` at `a .. a + WB - 1`: the byte at `a + i` is `v[8i+7:8i]` (R56, R58). -/
def Memory.setWord (m : Memory) (a : Nat) (v : Word z) : Memory := m.setBytes a (wordBytes v)

/-! ## Accesses (R53, R57 to R60) -/

/-- An address lies in a region. -/
def Region.holds (r : Region) (a : Nat) : Bool := decide (r.base ≤ a ∧ a < r.base + r.size)

/-- `Mapped` of an address (R53). -/
def Cpu.mapped (s : Cpu z) (a : Nat) : Mapping :=
  if s.refused.any (fun r => r.holds a) then .refused else .ram

/-- The lowest refused address of the `n` from `a` up, if there is one (R226 point 5). -/
def Cpu.firstRefused (s : Cpu z) (a : Nat) : Nat → Option Nat
  | 0 => none
  | n + 1 => if s.mapped a = .refused then some a else s.firstRefused (a + 1) n

/-- The fault of a word access at `a`, if it has one: `AddressWrap` first, then `AccessRefused` at the
lowest refused byte (R57, R58, R226 point 5). -/
def Cpu.accessFault (s : Cpu z) (a : Word z) : Option Fault :=
  if z.addressSpace < a.toNat + z.WB then some (.addressWrap a.toNat)
  else match s.firstRefused a.toNat z.WB with
    | some x => some (.accessRefused x)
    | none => none

/-- `MemRead(a, WB)` (R57). -/
def memRead (s : Cpu z) (a : Word z) : Except Fault (Word z) :=
  match s.accessFault a with
  | some f => .error f
  | none => .ok (s.mem.wordAt z a.toNat)

/-- `MemWrite(a, WB, v)` (R58): all checks come before any byte is written. -/
def memWrite (s : Cpu z) (a v : Word z) : Except Fault (Cpu z) :=
  match s.accessFault a with
  | some f => .error f
  | none => .ok (s.setMem (s.mem.setWord a.toNat v))

/-! ## Fetch (R32, R61, R62) -/

/-- The four words at `a`, each read as data is, at any byte alignment (R61, R62). -/
def fetchWords (s : Cpu z) (a : Word z) : Except Fault (Words z) :=
  match memRead s a with
  | .error f => .error f
  | .ok w0 => match memRead s (a + BitVec.ofNat z.W z.WB) with
    | .error f => .error f
    | .ok w1 => match memRead s (a + BitVec.ofNat z.W (2 * z.WB)) with
      | .error f => .error f
      | .ok w2 => match memRead s (a + BitVec.ofNat z.W (3 * z.WB)) with
        | .error f => .error f
        | .ok w3 => .ok ⟨w0, w1, w2, w3⟩

/-- The instruction at `%pc`: the advance check first (R32), then the four words, then decode (R31,
R89). -/
def fetchInstr (s : Cpu z) : Except Fault Instr :=
  if z.addressSpace ≤ s.pc.toNat + z.IB then .error (.pcOverflow s.pc.toNat none)
  else match fetchWords s s.pc with
    | .error f => .error f
    | .ok ws => match decode s.numGp ws with
      | .error e => .error (.invalidInstruction e)
      | .ok i => .ok i

/-- `pc <- a + IB`: the state an instruction executes in, `%pc` holding `next_pc` (R31). -/
def Cpu.advance (s : Cpu z) : Cpu z := s.setPc (s.pc + BitVec.ofNat z.W z.IB)

/-! ## Placing bytes, and start-up (R250, R251)

When a host may place bytes, and that it may do nothing else, is said in Session.lean. -/

/-- A byte placed at an address; there is no byte outside the address space (R52). -/
def Cpu.placeByte (s : Cpu z) (a : Nat) (b : Byte) : Cpu z :=
  if a < z.addressSpace then s.setMem (s.mem.setByte a b) else s

/-- Bytes placed from `a` up. -/
def Cpu.place : Cpu z → Nat → List Byte → Cpu z
  | s, _, [] => s
  | s, a, b :: bs => (s.placeByte a b).place (a + 1) bs

/-- The machine right after start-up, for a word size in bits, a number of registers and a `Mapped` (R250, R42); the
host's loads then make `InitMem`. None where R5 excludes the word size or the number of registers
(93_implementation_defined.md item 35). `State.reset` is the one of 32 bits and 8 registers with every address
`ram`. -/
def startUp (wordSize numGp : Nat) (refused : List Region) : Option State :=
  match wordSizeOf wordSize with
  | some z => if legalNumGp z numGp then some ⟨z, Cpu.start z numGp refused⟩ else none
  | none => none

end Sys2Proof.Machine
end

