-- ==== Sys2Proof/Machine/Operands.lean ====
section
/-! DEFINITION. Operand resolution (30_encoding.md R95 to R97): the value of a source, the write of a
destination, and the forms in which the meanings use them. A form tests its fault and hands on only
where there is none, so an instruction that faults writes nothing (R97). -/

namespace Sys2Proof.Machine

variable {z : WordSize}

/-- A register as a source (R95, R33). A register that nothing has written yet reads as the value it
holds (log entry 5); one this machine does not have is no instruction (R88 V6), see
`Fault.invalidInstruction`. -/
def readReg (s : Cpu z) : RReg → Except Fault (Word z)
  | .pc => .ok s.pc
  | .sp => .ok s.sp
  | .gp k => match s.gp[k]? with
    | some r => .ok r.value
    | none => .error (.invalidInstruction .noSuchRegister)

/-- `src(i)` (R95, R85). -/
def readOperand (s : Cpu z) : Operand → Except Fault (Word z)
  | .imm v => .ok (BitVec.ofNat z.W v)
  | .reg r => readReg s r

/-- `dst(i) <- v` (R96, R35). -/
def writeDst (s : Cpu z) (d : WReg) (v : Word z) : Except Fault (Cpu z) :=
  match d with
  | .sp => if v.toNat % z.WB ≠ 0 then .error (.spMisaligned v.toNat) else .ok (s.setSp v)
  | .gp k => if k < s.numGp then .ok (s.setGp k v) else .error (.invalidInstruction .noSuchRegister)

/-- Go on with a value, or fault. -/
def withVal {α : Type} (r : Except Fault α) (go : α → CpuResult z) : CpuResult z :=
  match r with
  | .error f => .fault f
  | .ok v => go v

/-- Go on with `src(i)`. -/
def withSrc (s : Cpu z) (a : Operand) (go : Word z → CpuResult z) : CpuResult z :=
  withVal (readOperand s a) go

/-- Shape `D,S,S` without a flag: `dst(1) <- f(src(2), src(3))` (R130, R150). -/
def binary (f : Word z → Word z → Word z) (d : WReg) (a b : Operand) (s : Cpu z) : CpuResult z :=
  withSrc s a fun x => withSrc s b fun y => withVal (writeDst s d (f x y)) fun t => .next t

/-- Shape `D,S,S` that also writes `status.overflow` (R130). -/
def binaryFlag (f : Word z → Word z → Word z) (flag : Word z → Word z → Bool) (d : WReg) (a b : Operand)
    (s : Cpu z) : CpuResult z :=
  withSrc s a fun x => withSrc s b fun y =>
    withVal (writeDst s d (f x y)) fun t => .next (t.setOverflow (flag x y))

/-- A division or remainder (R137 to R140): by zero, `dst(1)` takes a drawn value, which is no fault
(R223); either way `status.overflow <- (Op3 != 0)`. -/
def dividing (f : Word z → Word z → Word z) (flag : Word z → Bool) (d : WReg) (a b : Operand) (s : Cpu z) :
    CpuResult z :=
  withSrc s a fun x => withSrc s b fun y =>
    if y.toNat = 0 then
      withVal (writeDst s.tick d s.anyW) fun t => .next (t.setOverflow (flag y))
    else withVal (writeDst s d (f x y)) fun t => .next (t.setOverflow (flag y))

/-- Shape `D,S`: `dst(1) <- f(src(2))` (R150, R170). -/
def unary (f : Word z → Word z) (d : WReg) (a : Operand) (s : Cpu z) : CpuResult z :=
  withSrc s a fun x => withVal (writeDst s d (f x)) fun t => .next t

/-- A shift (R155, R156): the amount is the whole word read as unsigned, more than `W` is illegal. -/
def shifting (f : Word z → Nat → Word z) (d : WReg) (a b : Operand) (s : Cpu z) : CpuResult z :=
  withSrc s a fun x => withSrc s b fun n =>
    if z.W < n.toNat then .fault (.illegalShift n.toNat)
    else withVal (writeDst s d (f x n.toNat)) fun t => .next t

/-- A compare (R190): `status.cmp <- p(src(1), src(2))`. -/
def comparing (p : Word z → Word z → Bool) (a b : Operand) (s : Cpu z) : CpuResult z :=
  withSrc s a fun x => withSrc s b fun y => .next (s.setCmp (p x y))

/-- A relative branch by `off` (R202): the exact sum `u(next_pc) + s(off)` must be an address. The
instruction's own address, which the fault reports, is `next_pc - IB`. -/
def branchBy (s : Cpu z) (off : Word z) : CpuResult z :=
  let t := (s.pc.toNat : Int) + off.toInt
  if t < 0 ∨ (z.addressSpace : Int) ≤ t then
    .fault (.pcOverflow (s.pc - BitVec.ofNat z.W z.IB).toNat (some off.toInt))
  else .next (s.setPc (BitVec.ofInt z.W t))

end Sys2Proof.Machine
end

