-- ==== Sys2Proof/Machine/Arithmetic.lean ====
section
/-! DEFINITION. The arithmetic instructions (40_arithmetic.md R130 to R141). None of them touches
`status.cmp`, `status.halt` or memory. -/

namespace Sys2Proof.Machine

/-- `add` (R131): `status.overflow` is the unsigned carry. -/
def execAdd (d : WReg) (a b : Operand) (s : State) : Result :=
  s.on (binaryFlag addResult addWrapped d a b)

/-- `sub` (R132): `status.overflow` is the unsigned borrow. -/
def execSub (d : WReg) (a b : Operand) (s : State) : Result :=
  s.on (binaryFlag subResult subWrapped d a b)

/-- `mul` (R133): the low half of the product, no flag. -/
def execMul (d : WReg) (a b : Operand) (s : State) : Result :=
  s.on (binary mulLow d a b)

/-- `mulhss` (R134): the high half, both operands signed, no flag. -/
def execMulhss (d : WReg) (a b : Operand) (s : State) : Result :=
  s.on (binary mulHighSS d a b)

/-- `mulhsu` (R135): the high half, Op2 signed and Op3 unsigned, no flag. -/
def execMulhsu (d : WReg) (a b : Operand) (s : State) : Result :=
  s.on (binary mulHighSU d a b)

/-- `mulhuu` (R136): the high half, both operands unsigned, no flag. -/
def execMulhuu (d : WReg) (a b : Operand) (s : State) : Result :=
  s.on (binary mulHighUU d a b)

/-- `divss` (R137; the source spells it `dipss`, C6): the signed quotient rounded toward zero. -/
def execDivss (d : WReg) (a b : Operand) (s : State) : Result :=
  s.on (dividing divSigned divisorNonzero d a b)

/-- `divuu` (R138): the unsigned quotient. -/
def execDivuu (d : WReg) (a b : Operand) (s : State) : Result :=
  s.on (dividing divUnsigned divisorNonzero d a b)

/-- `remss` (R139): the remainder of the truncated quotient, with the sign of the dividend. -/
def execRemss (d : WReg) (a b : Operand) (s : State) : Result :=
  s.on (dividing remSigned divisorNonzero d a b)

/-- `remuu` (R140): the unsigned remainder. -/
def execRemuu (d : WReg) (a b : Operand) (s : State) : Result :=
  s.on (dividing remUnsigned divisorNonzero d a b)

end Sys2Proof.Machine
end

