-- ==== Sys2Proof/Machine/Compare.lean ====
section
/-! DEFINITION. The compare instructions (43_compare.md R190 to R193). Each writes `status.cmp` and
nothing else. -/

namespace Sys2Proof.Machine

/-- `cmpeq` (R191). -/
def execCmpeq (a b : Operand) (s : State) : Result :=
  s.on (comparing sameBits a b)

/-- `cmpltu` (R192). -/
def execCmpltu (a b : Operand) (s : State) : Result :=
  s.on (comparing lessUnsigned a b)

/-- `cmplts` (R193). -/
def execCmplts (a b : Operand) (s : State) : Result :=
  s.on (comparing lessSigned a b)

end Sys2Proof.Machine
end

