-- ==== Sys2Proof/Machine/Control.lean ====
section
/-! DEFINITION. The control transfer instructions (44_control.md R200 to R204). They execute with
`%pc` holding `next_pc`; a target is not checked when it is written (R200). -/

namespace Sys2Proof.Machine

variable {z : WordSize}

/-- What `jmp` does (R201). -/
def jumping (a : Operand) (s : Cpu z) : CpuResult z :=
  withSrc s a fun v => .next (s.setPc v)

/-- `jmp` (R201). -/
def execJmp (a : Operand) (s : State) : Result :=
  s.on (jumping a)

/-- What `br` does (R202). -/
def branching (a : Operand) (s : Cpu z) : CpuResult z :=
  withSrc s a fun off => branchBy s off

/-- `br` (R202). -/
def execBr (a : Operand) (s : State) : Result :=
  s.on (branching a)

/-- What `brcond` does (R203): the operand is read whether or not the branch is taken; "do nothing" leaves `%pc`
at `next_pc`. A `status.cmp` that no compare has written reads as the value it holds (log entry 6). -/
def branchingIf (a : Operand) (s : Cpu z) : CpuResult z :=
  withSrc s a fun off => if s.cmp.value then branchBy s off else .next s

/-- `brcond` (R203). -/
def execBrcond (a : Operand) (s : State) : Result :=
  s.on (branchingIf a)

/-- `halt` (R204): `status.halt <- 1`; `%pc` is past the `halt` already. What the simulator does then is
system-defined and outside the ISA (D23). -/
def execHalt (s : State) : Result :=
  s.on fun c => .next (c.setHalt true)

end Sys2Proof.Machine
end

