-- ==== Sys2Proof/Machine/DataMovement.lean ====
section
/-! DEFINITION. The data movement instructions (42_data_movement.md R170 to R175). None of them
reads or writes a flag of `%status`; every access is one word at any byte alignment. -/

namespace Sys2Proof.Machine

variable {z : WordSize}

/-- `mov` (R171). -/
def execMov (d : WReg) (a : Operand) (s : State) : Result :=
  s.on (unary id d a)

/-- What `load` does (R172): the word at the address Op2; `MemRead` faults before the register is written. -/
def loading (d : WReg) (a : Operand) (s : Cpu z) : CpuResult z :=
  withSrc s a fun addr => withVal (memRead s addr) fun v =>
    withVal (writeDst s d v) fun t => .next t

/-- `load` (R172). -/
def execLoad (d : WReg) (a : Operand) (s : State) : Result :=
  s.on (loading d a)

/-- What `store` does (R173): the address is Op1, the value Op2. No register is written. -/
def storing (a b : Operand) (s : Cpu z) : CpuResult z :=
  withSrc s a fun addr => withSrc s b fun v => withVal (memWrite s addr v) fun t => .next t

/-- `store` (R173). -/
def execStore (a b : Operand) (s : State) : Result :=
  s.on (storing a b)

/-- The address `push` stores to: `%sp` less one word (R174). -/
def pushAddress (s : Cpu z) : Word z := s.sp - BitVec.ofNat z.W z.WB

/-- What `push` does (R174): the value is read before `%sp` changes; the underflow check comes first, then
`MemWrite` at the new `%sp`, and `%sp` changes only where that does not fault. That `push %sp` is accepted and
stores the value before the decrement is D15 (log entry 13). -/
def pushing (a : Operand) (s : Cpu z) : CpuResult z :=
  withSrc s a fun v =>
    if s.sp.toNat < z.WB then .fault (.spWrap s.sp.toNat)
    else withVal (memWrite s (pushAddress s) v) fun t => .next (t.setSp (pushAddress s))

/-- `push` (R174). -/
def execPush (a : Operand) (s : State) : Result :=
  s.on (pushing a)

/-- What `%sp` holds after `pop` has copied `v` into its destination, before the increment (R175). -/
def popBase (d : WReg) (v : Word z) (s : Cpu z) : Word z := if d = .sp then v else s.sp

/-- What `pop` does (R175): `MemRead` at `%sp`, then the alignment of a value for `%sp`, then the overflow of the
increment; then the destination is written and, after it, `%sp`. That `pop %sp` is accepted and ends with the
loaded value plus one word is D15 (log entry 13). -/
def popping (d : WReg) (s : Cpu z) : CpuResult z :=
  withVal (memRead s s.sp) fun v =>
    if d = .sp ∧ v.toNat % z.WB ≠ 0 then .fault (.spMisaligned v.toNat)
    else if z.addressSpace ≤ (popBase d v s).toNat + z.WB then .fault (.spWrap s.sp.toNat)
    else withVal (writeDst s d v) fun t =>
      .next (t.setSp (popBase d v s + BitVec.ofNat z.W z.WB))

/-- `pop` (R175). -/
def execPop (d : WReg) (s : State) : Result :=
  s.on (popping d)

end Sys2Proof.Machine
end

