-- ==== Sys2Proof/Machine/LogicShift.lean ====
section
/-! DEFINITION. The bitwise and shift instructions (41_logic_shift.md R150 to R156). None of them
reads or writes a flag or memory. -/

namespace Sys2Proof.Machine

/-- `and` (R151). -/
def execAnd (d : WReg) (a b : Operand) (s : State) : Result :=
  s.on (binary andResult d a b)

/-- `or` (R152). -/
def execOr (d : WReg) (a b : Operand) (s : State) : Result :=
  s.on (binary orResult d a b)

/-- `xor` (R153). -/
def execXor (d : WReg) (a b : Operand) (s : State) : Result :=
  s.on (binary xorResult d a b)

/-- `not` (R154): the one's complement. -/
def execNot (d : WReg) (a : Operand) (s : State) : Result :=
  s.on (unary notResult d a)

/-- `lsl` (R155): logical shift left, by 0 to `W`. -/
def execLsl (d : WReg) (a b : Operand) (s : State) : Result :=
  s.on (shifting shiftLeft d a b)

/-- `rsl` (R156): logical shift right, by 0 to `W`. -/
def execRsl (d : WReg) (a b : Operand) (s : State) : Result :=
  s.on (shifting shiftRight d a b)

end Sys2Proof.Machine
end

