-- ==== Sys2Proof/Machine/Dispatch.lean ====
section
/-! DEFINITION. The dispatch of the instructions to their meanings. `exec` runs in the state in which `%pc` holds
`next_pc` (10_state.md R31). -/

namespace Sys2Proof.Machine

def exec (i : Instr) (s : State) : Host.Outcome State Fault Refusal :=
  match i with
  | .add d a b => Sys2Proof.Machine.execAdd d a b s
  | .sub d a b => Sys2Proof.Machine.execSub d a b s
  | .mul d a b => Sys2Proof.Machine.execMul d a b s
  | .mulhss d a b => Sys2Proof.Machine.execMulhss d a b s
  | .mulhsu d a b => Sys2Proof.Machine.execMulhsu d a b s
  | .mulhuu d a b => Sys2Proof.Machine.execMulhuu d a b s
  | .divss d a b => Sys2Proof.Machine.execDivss d a b s
  | .divuu d a b => Sys2Proof.Machine.execDivuu d a b s
  | .remss d a b => Sys2Proof.Machine.execRemss d a b s
  | .remuu d a b => Sys2Proof.Machine.execRemuu d a b s
  | .and d a b => Sys2Proof.Machine.execAnd d a b s
  | .or d a b => Sys2Proof.Machine.execOr d a b s
  | .xor d a b => Sys2Proof.Machine.execXor d a b s
  | .not d a => Sys2Proof.Machine.execNot d a s
  | .lsl d a b => Sys2Proof.Machine.execLsl d a b s
  | .rsl d a b => Sys2Proof.Machine.execRsl d a b s
  | .mov d a => Sys2Proof.Machine.execMov d a s
  | .load d a => Sys2Proof.Machine.execLoad d a s
  | .store a b => Sys2Proof.Machine.execStore a b s
  | .cmpeq a b => Sys2Proof.Machine.execCmpeq a b s
  | .cmpltu a b => Sys2Proof.Machine.execCmpltu a b s
  | .cmplts a b => Sys2Proof.Machine.execCmplts a b s
  | .push a => Sys2Proof.Machine.execPush a s
  | .pop d => Sys2Proof.Machine.execPop d s
  | .jmp a => Sys2Proof.Machine.execJmp a s
  | .br a => Sys2Proof.Machine.execBr a s
  | .brcond a => Sys2Proof.Machine.execBrcond a s
  | .halt => Sys2Proof.Machine.execHalt s

end Sys2Proof.Machine
end

