-- ==== Sys2Proof/Machine/Step.lean ====
section
/-! DEFINITION. One step of the machine (10_state.md R31), and the placing of an instruction where the next step
fetches it. -/

namespace Sys2Proof.Machine

/-- The state an instruction executes in (R31). -/
def State.advance (s : State) : State := ⟨s.size, s.cpu.advance⟩

/-- One step (R31). A halted machine has no step: nothing is fetched and no state changes until the host
acts, which is written as the state itself. DESIGN CHOICE (log entry 8). A running machine fetches and decodes at
`%pc`, advances `%pc` by `IB`, and executes. -/
def step (s : State) : Host.Outcome State Fault Refusal :=
  if s.cpu.halt then .next s
  else match fetchInstr s.cpu with
    | .error f => .fault f
    | .ok i => exec i s.advance

/-- `s` with the instruction of bits `w` stored where the next step fetches, and started: it stands for
the host's load and `Start` (R253, log entry 9). Where `%pc` is so high that no instruction fits above
it (R32), nothing is stored. -/
def State.withFetchWord (s : State) (nbits w : Nat) : State :=
  ⟨s.size, (if s.cpu.pc.toNat + s.size.IB < s.size.addressSpace
    then s.cpu.place s.cpu.pc.toNat (tableBytes s.size nbits w) else s.cpu).setHalt false⟩

end Sys2Proof.Machine
end

