-- ==== Sys2Proof/Machine/Assembly.lean ====
section
/-! DEFINITION. The suggested assembly language (30_encoding.md R100 to R109): literals and their normal
forms, register names, operand classes, and the way from a statement to its encoding and back. No
machine behaviour depends on any of it. Text is a list of characters. -/

namespace Sys2Proof.Assembly

/-! ## Literals (R100 to R102) -/

/-- A decimal digit. -/
def isDecDigit (c : Char) : Bool := decide (48 ≤ c.toNat ∧ c.toNat ≤ 57)

/-- The value of a hexadecimal digit (R100: `[0-9a-fA-F]`). -/
def hexDigitValue (c : Char) : Option Nat :=
  let n := c.toNat
  if 48 ≤ n ∧ n ≤ 57 then some (n - 48)
  else if 97 ≤ n ∧ n ≤ 102 then some (n - 87)
  else if 65 ≤ n ∧ n ≤ 70 then some (n - 55)
  else none

/-- Decimal digits read on from a value. DESIGN CHOICE (log entry 15): there may be any number of them, though an
assembler may limit the length of a literal (R100 to R102). -/
def decFrom : Nat → List Char → Option Nat
  | acc, [] => some acc
  | acc, c :: cs => if isDecDigit c then decFrom (10 * acc + (c.toNat - 48)) cs else none

/-- `[0-9]+`. -/
def decNat : List Char → Option Nat
  | [] => none
  | c :: cs => decFrom 0 (c :: cs)

/-- Hexadecimal digits read on from a value, any number of them too (log entry 15). -/
def hexFrom : Nat → List Char → Option Nat
  | acc, [] => some acc
  | acc, c :: cs => match hexDigitValue c with
    | some d => hexFrom (16 * acc + d) cs
    | none => none

/-- *hex-word*, `0x[0-9a-fA-F]+`: its number (R100). No operand class uses it (N26). -/
def hexLiteral : List Char → Option Nat
  | '0' :: 'x' :: c :: cs => hexFrom 0 (c :: cs)
  | _ => none

/-- *unsigned-dec-word*, `[0-9]+u`: its number (R102). -/
def unsignedLiteral (cs : List Char) : Option Nat :=
  if cs.getLast? = some 'u' then decNat cs.dropLast else none

/-- An optional sign and digits. -/
def signedBody : List Char → Option Int
  | '+' :: cs => (decNat cs).map fun n => (n : Int)
  | '-' :: cs => (decNat cs).map fun n => -(n : Int)
  | cs => (decNat cs).map fun n => (n : Int)

/-- *signed-dec-word*, `[+-]?[0-9]+s`: its number (R101). -/
def signedLiteral (cs : List Char) : Option Int :=
  if cs.getLast? = some 's' then signedBody cs.dropLast else none

/-- The word of an unsigned literal, whose range is `0 .. 2^W - 1` (R102). -/
def unsignedWord (z : WordSize) (cs : List Char) : Option (Word z) :=
  match unsignedLiteral cs with
  | some n => if n < z.addressSpace then some (BitVec.ofNat z.W n) else none
  | none => none

/-- The word of a signed literal, whose range is `-2^(W-1) .. 2^(W-1) - 1` (R101). -/
def signedWord (z : WordSize) (cs : List Char) : Option (Word z) :=
  match signedLiteral cs with
  | some n =>
    if -(2 ^ (z.W - 1) : Int) ≤ n ∧ n < (2 ^ (z.W - 1) : Int) then some (BitVec.ofInt z.W n)
    else none
  | none => none

/-- The word of a *hex-word*, whose range is `0 .. 2^W - 1` (R100, C13). -/
def hexWord (z : WordSize) (cs : List Char) : Option (Word z) :=
  match hexLiteral cs with
  | some n => if n < z.addressSpace then some (BitVec.ofNat z.W n) else none
  | none => none

/-! ## Normal forms (R104) -/

/-- *unsigned-dec-word*: no leading zeros, zero is `0u`. -/
def unsignedNormal (n : Nat) : List Char := Nat.toDigits 10 n ++ ['u']

/-- *signed-dec-word*: always a sign, no leading zeros, zero is `+0s`. -/
def signedNormal (n : Int) : List Char :=
  (if n < 0 then '-' else '+') :: (Nat.toDigits 10 n.natAbs ++ ['s'])

/-- The number of hexadecimal digits that a word needs, `ceil(W / 4)` (C13). -/
def hexDigits (z : WordSize) : Nat := (z.W + 3) / 4

/-- *hex-word*: exactly `hexDigits` digits. DESIGN CHOICE (log entry 15): the digits above 9 are the lower-case
letters `a` to `f`; the normal form fixes the number of digits and not the case, and R100 allows both. -/
def hexNormal {z : WordSize} (w : Word z) : List Char :=
  '0' :: 'x' :: (List.range (hexDigits z)).reverse.map fun i => Nat.digitChar (w.toNat / 16 ^ i % 16)

/-! ## Registers and operands (R103, R105) -/

/-- *gp-reg*: `%gp` and a number without leading zeros, of a register that exists (R105). -/
def gpNumber (n : Nat) (ds : List Char) : Option Nat :=
  match decNat ds with
  | some k => if k < n ∧ (ds.head? ≠ some '0' ∨ ds = ['0']) then some k else none
  | none => none

/-- *reg*: the operand-code of a register name (R105, R29). -/
def regCode (n : Nat) : List Char → Option Nat
  | ['%', 'p', 'c'] => some 1
  | ['%', 's', 'p'] => some 2
  | ['%', 's', 't', 'a', 't', 'u', 's'] => some 3
  | '%' :: 'g' :: 'p' :: ds => (gpNumber n ds).map fun k => 256 + k
  | _ => none

/-- Which literals an operand takes: *imm*, *imm-s*, *imm-u* (R103). -/
inductive ImmClass where
  | any
  | signed
  | unsigned
deriving DecidableEq, Repr

/-- The operand classes of the instruction table (R86). -/
inductive OpClass where
  | wreg              -- *w-reg*
  | src (c : ImmClass)  -- *r-reg* or an immediate of the class
deriving DecidableEq, Repr

/-- The word of a literal of a class (R103, R108: the class restricts the spelling only). -/
def immWord (z : WordSize) (c : ImmClass) (cs : List Char) : Option (Word z) :=
  match c with
  | .signed => signedWord z cs
  | .unsigned => unsignedWord z cs
  | .any => match signedWord z cs with
    | some w => some w
    | none => unsignedWord z cs

/-- An operand of a class: its kind field and its word (R107). -/
def operandOf (z : WordSize) (n : Nat) (c : OpClass) (cs : List Char) : Option (Nat × Word z) :=
  match regCode n cs, c with
  | some r, .wreg => if r = 2 ∨ 256 ≤ r then some (2, BitVec.ofNat z.W r) else none
  | some r, .src _ => if r ≠ 3 then some (2, BitVec.ofNat z.W r) else none
  | none, .wreg => none
  | none, .src i => (immWord z i cs).map fun w => (1, w)

/-! ## Statements (R86, R106, R107) -/

/-- The instruction table: mnemonic, opcode, operand classes, cell for cell as the source has it (R86,
C7). -/
def table : List (String × Nat × List OpClass) :=
  [("add", 1, [.wreg, .src .any, .src .any]),
   ("sub", 2, [.wreg, .src .any, .src .any]),
   ("mul", 3, [.wreg, .src .any, .src .any]),
   ("mulhss", 4, [.wreg, .src .signed, .src .signed]),
   ("mulhsu", 5, [.wreg, .src .signed, .src .signed]),
   ("mulhuu", 6, [.wreg, .src .signed, .src .signed]),
   ("divss", 7, [.wreg, .src .signed, .src .signed]),
   ("divuu", 8, [.wreg, .src .unsigned, .src .unsigned]),
   ("remss", 9, [.wreg, .src .signed, .src .signed]),
   ("remuu", 10, [.wreg, .src .unsigned, .src .unsigned]),
   ("and", 11, [.wreg, .src .any, .src .any]),
   ("or", 12, [.wreg, .src .any, .src .any]),
   ("xor", 13, [.wreg, .src .any, .src .any]),
   ("not", 14, [.wreg, .src .any]),
   ("lsl", 15, [.wreg, .src .any, .src .unsigned]),
   ("rsl", 16, [.wreg, .src .any, .src .unsigned]),
   ("mov", 17, [.wreg, .src .any]),
   ("load", 18, [.wreg, .src .any]),
   ("store", 19, [.src .any, .src .any]),
   ("cmpeq", 20, [.src .any, .src .any]),
   ("cmpltu", 21, [.src .unsigned, .src .unsigned]),
   ("cmplts", 22, [.src .signed, .src .signed]),
   ("push", 23, [.src .any]),
   ("pop", 24, [.wreg]),
   ("jmp", 25, [.src .any]),
   ("br", 26, [.src .any]),
   ("brcond", 27, [.src .any]),
   ("halt", 28, [])]

/-- The row of a mnemonic; the source's spelling `dipss` is accepted too (R137, C6). -/
def rowOf (mnemonic : List Char) : Option (Nat × List OpClass) :=
  let name := if mnemonic = "dipss".toList then "divss".toList else mnemonic
  (table.find? fun r => r.1.toList == name).map fun r => r.2

/-- Operands against their classes, one each. -/
def operandsOf (z : WordSize) (n : Nat) :
    List OpClass → List (List Char) → Option (List (Nat × Word z))
  | [], [] => some []
  | c :: cs, t :: ts => match operandOf z n c t, operandsOf z n cs ts with
    | some o, some os => some (o :: os)
    | _, _ => none
  | _, _ => none

/-- The words of an opcode and up to three operands; an absent operand gives kind 00b and a zero word
(R107). -/
def wordsOf {z : WordSize} (opcode : Nat) (os : List (Nat × Word z)) : Words z :=
  let o (i : Nat) : Nat × Word z := os.getD i (0, 0)
  ⟨opWord z opcode (o 0).1 (o 1).1 (o 2).1, (o 0).2, (o 1).2, (o 2).2⟩

/-- From a statement's mnemonic and operands to its encoding (R107). -/
def assemble (z : WordSize) (n : Nat) (mnemonic : List Char) (operands : List (List Char)) :
    Option (Words z) :=
  match rowOf mnemonic with
  | some (opcode, classes) => (operandsOf z n classes operands).map (wordsOf opcode)
  | none => none

/-- Spaces dropped at the head; a tab or any other blank is no space (log entry 15). -/
def dropSpaces (cs : List Char) : List Char := cs.dropWhile (· == ' ')

/-- Spaces dropped at both ends. -/
def trim (cs : List Char) : List Char := (dropSpaces (dropSpaces cs).reverse).reverse

/-- The pieces of a text between commas. -/
def splitCommas : List Char → List (List Char)
  | [] => [[]]
  | c :: cs => if c = ',' then [] :: splitCommas cs else
    match splitCommas cs with
    | [] => [[c]]
    | p :: ps => (c :: p) :: ps

/-- One line in the notation of this spec's examples (R106): the mnemonic, a space, the operands
separated by commas, and a comment from `;` on. The notation is the spec's own and binds no assembler. DESIGN CHOICE
(log entry 15), where R106 binds nothing: spaces, in any number or none, may stand at both ends of the line and on
both sides of a comma, one or more of them end the mnemonic, no tab may stand anywhere before the comment, and the
mnemonic is in lower case. -/
def assembleLine (z : WordSize) (n : Nat) (line : List Char) : Option (Words z) :=
  let text := trim (line.takeWhile (· != ';'))
  let mnemonic := text.takeWhile (· != ' ')
  let rest := trim (text.dropWhile (· != ' '))
  assemble z n mnemonic (if rest = [] then [] else (splitCommas rest).map trim)

/-! ## Back to text (R108) -/

/-- The name of `%gpk` (R105). -/
def gpText (k : Nat) : List Char := '%' :: 'g' :: 'p' :: Nat.toDigits 10 k

/-- The name of a destination register. -/
def wregText : WReg → List Char
  | .sp => ['%', 's', 'p']
  | .gp k => gpText k

/-- The name of a readable register. -/
def rregText : RReg → List Char
  | .pc => ['%', 'p', 'c']
  | .sp => ['%', 's', 'p']
  | .gp k => gpText k

/-- A source operand printed by the class the opcode's row names (R108), literals in normal form. DESIGN CHOICE (log
entry 15): an immediate of the class *imm* is printed unsigned. -/
def operandText (z : WordSize) (c : ImmClass) : Operand → List Char
  | .reg r => rregText r
  | .imm v => match c with
    | .signed => signedNormal (BitVec.ofNat z.W v).toInt
    | .unsigned => unsignedNormal (BitVec.ofNat z.W v).toNat
    | .any => unsignedNormal (BitVec.ofNat z.W v).toNat

/-- The mnemonic and the operands of an instruction (R86, R108). -/
def disassemble (z : WordSize) : Instr → List Char × List (List Char)
  | .add d a b => ("add".toList, [wregText d, operandText z .any a, operandText z .any b])
  | .sub d a b => ("sub".toList, [wregText d, operandText z .any a, operandText z .any b])
  | .mul d a b => ("mul".toList, [wregText d, operandText z .any a, operandText z .any b])
  | .mulhss d a b => ("mulhss".toList, [wregText d, operandText z .signed a, operandText z .signed b])
  | .mulhsu d a b => ("mulhsu".toList, [wregText d, operandText z .signed a, operandText z .signed b])
  | .mulhuu d a b => ("mulhuu".toList, [wregText d, operandText z .signed a, operandText z .signed b])
  | .divss d a b => ("divss".toList, [wregText d, operandText z .signed a, operandText z .signed b])
  | .divuu d a b => ("divuu".toList, [wregText d, operandText z .unsigned a, operandText z .unsigned b])
  | .remss d a b => ("remss".toList, [wregText d, operandText z .signed a, operandText z .signed b])
  | .remuu d a b => ("remuu".toList, [wregText d, operandText z .unsigned a, operandText z .unsigned b])
  | .and d a b => ("and".toList, [wregText d, operandText z .any a, operandText z .any b])
  | .or d a b => ("or".toList, [wregText d, operandText z .any a, operandText z .any b])
  | .xor d a b => ("xor".toList, [wregText d, operandText z .any a, operandText z .any b])
  | .not d a => ("not".toList, [wregText d, operandText z .any a])
  | .lsl d a b => ("lsl".toList, [wregText d, operandText z .any a, operandText z .unsigned b])
  | .rsl d a b => ("rsl".toList, [wregText d, operandText z .any a, operandText z .unsigned b])
  | .mov d a => ("mov".toList, [wregText d, operandText z .any a])
  | .load d a => ("load".toList, [wregText d, operandText z .any a])
  | .store a b => ("store".toList, [operandText z .any a, operandText z .any b])
  | .cmpeq a b => ("cmpeq".toList, [operandText z .any a, operandText z .any b])
  | .cmpltu a b => ("cmpltu".toList, [operandText z .unsigned a, operandText z .unsigned b])
  | .cmplts a b => ("cmplts".toList, [operandText z .signed a, operandText z .signed b])
  | .push a => ("push".toList, [operandText z .any a])
  | .pop d => ("pop".toList, [wregText d])
  | .jmp a => ("jmp".toList, [operandText z .any a])
  | .br a => ("br".toList, [operandText z .any a])
  | .brcond a => ("brcond".toList, [operandText z .any a])
  | .halt => ("halt".toList, [])

end Sys2Proof.Assembly
end

