-- ==== Sys2Proof/Machine/HostView.lean ====
section
/-! DEFINITION. `%status` as one word, for a host that wants it (10_state.md R27). No instruction can name
`%status`, so no meaning uses this; the state holds the three flags separately. -/

namespace Sys2Proof.Machine

variable {z : WordSize}

/-- `STATUS_LAYOUT`: where the flags stand in the host's word (R27, D4). -/
structure StatusLayout where
  cmp : Nat
  overflow : Nat
  halt : Nat
deriving DecidableEq, Repr

/-- Three distinct positions below `W` (92_eei_decisions.md, open parameters). -/
def StatusLayout.legal (z : WordSize) (l : StatusLayout) : Bool :=
  decide (l.cmp < z.W ∧ l.overflow < z.W ∧ l.halt < z.W
    ∧ l.cmp ≠ l.overflow ∧ l.cmp ≠ l.halt ∧ l.overflow ≠ l.halt)

/-- The spec's layout: bits 0, 1, 2 (R27). -/
def StatusLayout.default : StatusLayout := ⟨0, 1, 2⟩

/-- A word with one bit set or cleared. -/
def withBit (w : Word z) (i : Nat) (b : Bool) : Word z :=
  if b then w ||| ((1 : Word z) <<< i) else w &&& ~~~((1 : Word z) <<< i)

/-- A flag in the host's word: its value, or any value while nothing has written it (R25, R36). -/
def Flag.view (f : Flag) (anyBit : Bool) : Bool := if f.written then f.value else anyBit

/-- The host's word. Its reserved bits, and the bits of flags without a value, are any value (R27): they
are those of `anyValue`, which a statement leaves free. -/
def statusWord (l : StatusLayout) (anyValue : Word z) (s : Cpu z) : Word z :=
  withBit (withBit (withBit anyValue l.cmp (s.cmp.view (anyValue.getLsbD l.cmp)))
    l.overflow (s.overflow.view (anyValue.getLsbD l.overflow))) l.halt s.halt

end Sys2Proof.Machine
end

