-- ==== Sys2Proof/Machine/Session.lean ====
section
/-! DEFINITION. A simulation as the host sees it (70_reset_and_hazards.md R253, R255, R256): where it stands between
start-up and its end, what the host may do there, and what it may read. The step of a machine knows nothing of it. -/

namespace Sys2Proof.Machine

/-- Where a simulation stands, one constructor for each row of R256's table. A simulation comes into being by
`Session.begin` and changes by `Session.host` and `Session.proceed` only. -/
inductive Session where
  /-- Between start-up and `Start`: the machine is halted, and the host fills memory. -/
  | loading (s : State)
  /-- Between `Start` and the end of the run. -/
  | running (s : State)
  /-- The normal end: a `halt` has executed. -/
  | halted (s : State)
  /-- A step faulted, in the state that it left untouched (R225). -/
  | faulted (reason : Fault) (s : State)
  /-- A step was refused, which none is; the interface of a step has the outcome. -/
  | refused (reason : Refusal) (s : State)
deriving DecidableEq, Repr

/-- The machine's state at that point. -/
def Session.state : Session → State
  | .loading s => s
  | .running s => s
  | .halted s => s
  | .faulted _ s => s
  | .refused _ s => s

/-- Start-up (R250), none where R5 excludes the parameters. -/
def Session.begin (wordSize numGp : Nat) (refused : List Region) : Option Session :=
  (startUp wordSize numGp refused).map .loading

/-- What a host can ask for (R256). There is no action that changes a register, delivers an event or stops the
machine: the spec gives the host none. -/
inductive HostAction where
  | writeByte (a : Nat) (b : Byte)
  | start
deriving DecidableEq, Repr

/-- The host acts (R256): before `Start` it writes any byte of memory that exists, and gives `Start`, which clears
`status.halt` and changes nothing else (R253). None where it may not act: `Start` is given once, a running machine is
left alone, and an ended one is neither written to nor started again (93_implementation_defined.md item 34). -/
def Session.host : Session → HostAction → Option Session
  | .loading s, .writeByte a b =>
    if a < s.size.addressSpace then some (.loading ⟨s.size, s.cpu.placeByte a b⟩) else none
  | .loading s, .start => some (.running ⟨s.size, s.cpu.setHalt false⟩)
  | .running _, _ => none
  | .halted _, _ => none
  | .faulted _ _, _ => none
  | .refused _ _, _ => none

/-- Several actions of the host in order, none where one of them is refused. -/
def Session.hostAll : Session → List HostAction → Option Session
  | c, [] => some c
  | c, a :: as => match c.host a with
    | some d => d.hostAll as
    | none => none

/-- The actions that load bytes from `a` up: what makes `InitMem` (R251). -/
def loadActions : Nat → List Byte → List HostAction
  | _, [] => []
  | a, b :: bs => .writeByte a b :: loadActions (a + 1) bs

/-- The machine proceeds by one step of R31, between `Start` and the end of the run; before and after, it does not
(R253, R255). -/
def Session.proceed : Session → Session
  | .running s => match step s with
    | .next t => if t.cpu.halt then .halted t else .running t
    | .fault f => .faulted f s
    | .refused r => .refused r s
  | .loading s => .loading s
  | .halted s => .halted s
  | .faulted f s => .faulted f s
  | .refused r s => .refused r s

/-- At most `n` steps; a run that never ends (R255) is still `running` after every `n`. -/
def Session.run : Nat → Session → Session
  | 0, c => c
  | n + 1, c => c.proceed.run n

/-- What the host may take as the result of a run (R256): every register, flag and byte of memory after a halted
end, and nothing at any other point. `%status` as one word is `statusWord` of it. -/
def Session.result : Session → Option State
  | .halted s => some s
  | .loading _ => none
  | .running _ => none
  | .faulted _ _ => none
  | .refused _ _ => none

/-- What the host may read after a faulted end (R256): the reason, and the state before the step. It is no result. -/
def Session.faultReport : Session → Option (Fault × State)
  | .faulted f s => some (f, s)
  | .loading _ => none
  | .running _ => none
  | .halted _ => none
  | .refused _ _ => none

end Sys2Proof.Machine
end

