-- ==== Sys2Proof/Safety.lean ====
section
/-! DEFINITION. The terms that statements are made with: what a safe state is, what an instruction reads and
writes by the spec's own table (30_encoding.md R86), and the strict machine of 10_state.md R36, in which reading a register that nothing has written is a fault. -/

namespace Sys2Proof.Safety

open Config Machine

variable {z : WordSize}

/-! ## Other configurations that the spec's vectors are for (95_test_vectors.md 2.6) -/

/-- 16 bits, the smallest word size. -/
def size16 : WordSize := ⟨2, by decide⟩

/-- 24 bits, not a power of two. -/
def size24 : WordSize := ⟨3, by decide⟩

/-! ## The invariant of every reachable state -/

/-- Memory is in canonical form; `%sp` is a multiple of `WB` (R35); *num-gp-regs* is within its bounds
(R5), as *word-size* is by its type. -/
def Inv (s : State) : Prop :=
  s.cpu.mem.wf s.size = true ∧ s.cpu.sp.toNat % s.size.WB = 0 ∧ legalNumGp s.size s.cpu.numGp

/-! ## What the table says of each instruction (R86) -/

/-- The source operands, in slot order. -/
def sources : Instr → List Operand
  | .add _ a b => [a, b]
  | .sub _ a b => [a, b]
  | .mul _ a b => [a, b]
  | .mulhss _ a b => [a, b]
  | .mulhsu _ a b => [a, b]
  | .mulhuu _ a b => [a, b]
  | .divss _ a b => [a, b]
  | .divuu _ a b => [a, b]
  | .remss _ a b => [a, b]
  | .remuu _ a b => [a, b]
  | .and _ a b => [a, b]
  | .or _ a b => [a, b]
  | .xor _ a b => [a, b]
  | .not _ a => [a]
  | .lsl _ a b => [a, b]
  | .rsl _ a b => [a, b]
  | .mov _ a => [a]
  | .load _ a => [a]
  | .store a b => [a, b]
  | .cmpeq a b => [a, b]
  | .cmpltu a b => [a, b]
  | .cmplts a b => [a, b]
  | .push a => [a]
  | .pop _ => []
  | .jmp a => [a]
  | .br a => [a]
  | .brcond a => [a]
  | .halt => []

/-- The destination register, the one *w-reg* slot. -/
def destination : Instr → Option WReg
  | .add d _ _ => some d
  | .sub d _ _ => some d
  | .mul d _ _ => some d
  | .mulhss d _ _ => some d
  | .mulhsu d _ _ => some d
  | .mulhuu d _ _ => some d
  | .divss d _ _ => some d
  | .divuu d _ _ => some d
  | .remss d _ _ => some d
  | .remuu d _ _ => some d
  | .and d _ _ => some d
  | .or d _ _ => some d
  | .xor d _ _ => some d
  | .not d _ => some d
  | .lsl d _ _ => some d
  | .rsl d _ _ => some d
  | .mov d _ => some d
  | .load d _ => some d
  | .store _ _ => none
  | .cmpeq _ _ => none
  | .cmpltu _ _ => none
  | .cmplts _ _ => none
  | .push _ => none
  | .pop d => some d
  | .jmp _ => none
  | .br _ => none
  | .brcond _ => none
  | .halt => none

/-- The opcode of each instruction (R86). -/
def opcodeNumber : Instr → Nat
  | .add _ _ _ => 1
  | .sub _ _ _ => 2
  | .mul _ _ _ => 3
  | .mulhss _ _ _ => 4
  | .mulhsu _ _ _ => 5
  | .mulhuu _ _ _ => 6
  | .divss _ _ _ => 7
  | .divuu _ _ _ => 8
  | .remss _ _ _ => 9
  | .remuu _ _ _ => 10
  | .and _ _ _ => 11
  | .or _ _ _ => 12
  | .xor _ _ _ => 13
  | .not _ _ => 14
  | .lsl _ _ _ => 15
  | .rsl _ _ _ => 16
  | .mov _ _ => 17
  | .load _ _ => 18
  | .store _ _ => 19
  | .cmpeq _ _ => 20
  | .cmpltu _ _ => 21
  | .cmplts _ _ => 22
  | .push _ => 23
  | .pop _ => 24
  | .jmp _ => 25
  | .br _ => 26
  | .brcond _ => 27
  | .halt => 28

/-- `%status.overflow` (w) in the table (R25, R86). -/
def writesOverflow : Instr → Bool
  | .add _ _ _ => true
  | .sub _ _ _ => true
  | .mul _ _ _ => false
  | .mulhss _ _ _ => false
  | .mulhsu _ _ _ => false
  | .mulhuu _ _ _ => false
  | .divss _ _ _ => true
  | .divuu _ _ _ => true
  | .remss _ _ _ => true
  | .remuu _ _ _ => true
  | .and _ _ _ => false
  | .or _ _ _ => false
  | .xor _ _ _ => false
  | .not _ _ => false
  | .lsl _ _ _ => false
  | .rsl _ _ _ => false
  | .mov _ _ => false
  | .load _ _ => false
  | .store _ _ => false
  | .cmpeq _ _ => false
  | .cmpltu _ _ => false
  | .cmplts _ _ => false
  | .push _ => false
  | .pop _ => false
  | .jmp _ => false
  | .br _ => false
  | .brcond _ => false
  | .halt => false

/-- `%status.cmp` (w) in the table (R24, R86). -/
def writesCmp : Instr → Bool
  | .add _ _ _ => false
  | .sub _ _ _ => false
  | .mul _ _ _ => false
  | .mulhss _ _ _ => false
  | .mulhsu _ _ _ => false
  | .mulhuu _ _ _ => false
  | .divss _ _ _ => false
  | .divuu _ _ _ => false
  | .remss _ _ _ => false
  | .remuu _ _ _ => false
  | .and _ _ _ => false
  | .or _ _ _ => false
  | .xor _ _ _ => false
  | .not _ _ => false
  | .lsl _ _ _ => false
  | .rsl _ _ _ => false
  | .mov _ _ => false
  | .load _ _ => false
  | .store _ _ => false
  | .cmpeq _ _ => true
  | .cmpltu _ _ => true
  | .cmplts _ _ => true
  | .push _ => false
  | .pop _ => false
  | .jmp _ => false
  | .br _ => false
  | .brcond _ => false
  | .halt => false

/-- `%status.cmp` (r) in the table (R24, R86). -/
def readsCmp : Instr → Bool
  | .add _ _ _ => false
  | .sub _ _ _ => false
  | .mul _ _ _ => false
  | .mulhss _ _ _ => false
  | .mulhsu _ _ _ => false
  | .mulhuu _ _ _ => false
  | .divss _ _ _ => false
  | .divuu _ _ _ => false
  | .remss _ _ _ => false
  | .remuu _ _ _ => false
  | .and _ _ _ => false
  | .or _ _ _ => false
  | .xor _ _ _ => false
  | .not _ _ => false
  | .lsl _ _ _ => false
  | .rsl _ _ _ => false
  | .mov _ _ => false
  | .load _ _ => false
  | .store _ _ => false
  | .cmpeq _ _ => false
  | .cmpltu _ _ => false
  | .cmplts _ _ => false
  | .push _ => false
  | .pop _ => false
  | .jmp _ => false
  | .br _ => false
  | .brcond _ => true
  | .halt => false

/-- `%pc` (w) or (rw) in the table: the transfers (R30, R86). -/
def writesPc : Instr → Bool
  | .add _ _ _ => false
  | .sub _ _ _ => false
  | .mul _ _ _ => false
  | .mulhss _ _ _ => false
  | .mulhsu _ _ _ => false
  | .mulhuu _ _ _ => false
  | .divss _ _ _ => false
  | .divuu _ _ _ => false
  | .remss _ _ _ => false
  | .remuu _ _ _ => false
  | .and _ _ _ => false
  | .or _ _ _ => false
  | .xor _ _ _ => false
  | .not _ _ => false
  | .lsl _ _ _ => false
  | .rsl _ _ _ => false
  | .mov _ _ => false
  | .load _ _ => false
  | .store _ _ => false
  | .cmpeq _ _ => false
  | .cmpltu _ _ => false
  | .cmplts _ _ => false
  | .push _ => false
  | .pop _ => false
  | .jmp _ => true
  | .br _ => true
  | .brcond _ => true
  | .halt => false

/-- `%sp` (rw) in the table: the stack instructions (R22, R86). -/
def writesSp : Instr → Bool
  | .add _ _ _ => false
  | .sub _ _ _ => false
  | .mul _ _ _ => false
  | .mulhss _ _ _ => false
  | .mulhsu _ _ _ => false
  | .mulhuu _ _ _ => false
  | .divss _ _ _ => false
  | .divuu _ _ _ => false
  | .remss _ _ _ => false
  | .remuu _ _ _ => false
  | .and _ _ _ => false
  | .or _ _ _ => false
  | .xor _ _ _ => false
  | .not _ _ => false
  | .lsl _ _ _ => false
  | .rsl _ _ _ => false
  | .mov _ _ => false
  | .load _ _ => false
  | .store _ _ => false
  | .cmpeq _ _ => false
  | .cmpltu _ _ => false
  | .cmplts _ _ => false
  | .push _ => true
  | .pop _ => true
  | .jmp _ => false
  | .br _ => false
  | .brcond _ => false
  | .halt => false

/-- The instructions that write data memory (R59). -/
def writesMem : Instr → Bool
  | .add _ _ _ => false
  | .sub _ _ _ => false
  | .mul _ _ _ => false
  | .mulhss _ _ _ => false
  | .mulhsu _ _ _ => false
  | .mulhuu _ _ _ => false
  | .divss _ _ _ => false
  | .divuu _ _ _ => false
  | .remss _ _ _ => false
  | .remuu _ _ _ => false
  | .and _ _ _ => false
  | .or _ _ _ => false
  | .xor _ _ _ => false
  | .not _ _ => false
  | .lsl _ _ _ => false
  | .rsl _ _ _ => false
  | .mov _ _ => false
  | .load _ _ => false
  | .store _ _ => true
  | .cmpeq _ _ => false
  | .cmpltu _ _ => false
  | .cmplts _ _ => false
  | .push _ => true
  | .pop _ => false
  | .jmp _ => false
  | .br _ => false
  | .brcond _ => false
  | .halt => false

/-! ## Writing a destination -/

/-- The write of `v` to `d` is one that the machine completes (R96): for `%sp` the value is aligned
(R35), for `%gpk` the register exists. -/
def accepts (s : Cpu z) (d : WReg) (v : Word z) : Prop :=
  match d with
  | .sp => v.toNat % z.WB = 0
  | .gp k => k < s.gp.length

/-- The state with `v` in `d`, which has a value from then on (R96, R36). -/
def put (s : Cpu z) (d : WReg) (v : Word z) : Cpu z :=
  match d with
  | .sp => { s with sp := v }
  | .gp k => { s with gp := s.gp.set k ⟨v, true⟩ }

/-- The `n` bytes from `a` up are all `ram` (R53). -/
def allRam (s : Cpu z) (a n : Nat) : Prop := ∀ i, i < n → s.mapped (a + i) = .ram

/-- A word access at `a` meets no fault (R57, R58). -/
def accessible (s : Cpu z) (a : Word z) : Prop :=
  a.toNat + z.WB ≤ z.addressSpace ∧ allRam s a.toNat z.WB

/-- The write of `v` to `d` is a misaligned write of `%sp` (R35). -/
def misaligned (d : WReg) (v : Word z) : Prop := d = .sp ∧ v.toNat % z.WB ≠ 0

/-- The word whose bytes stand at `a` and up, byte `a + i` its bits `[8i+7:8i]` (R56, R57). -/
def wordStands (s : Cpu z) (a : Nat) (v : Word z) : Prop :=
  ∀ i, i < z.WB → v.extractLsb' (8 * i) 8 = s.mem.byteAt (a + i)

/-- `t` is `s` but for memory, where the word `v` has been stored at `a`: its bytes from `a` up, the least
significant first, and every other byte as before (R56, R58). -/
def storedWord (s t : Cpu z) (a : Nat) (v : Word z) : Prop :=
  t = { s with mem := t.mem } ∧
    ∀ c, t.mem.byteAt c =
      if a ≤ c ∧ c < a + z.WB then v.extractLsb' (8 * (c - a)) 8 else s.mem.byteAt c

/-- The lowest refused address of the `n` from `a` up is `x` (R53, R226). -/
def lowestRefused (s : Cpu z) (a n x : Nat) : Prop :=
  a ≤ x ∧ x < a + n ∧ s.mapped x = .refused ∧ ∀ y, a ≤ y → y < x → s.mapped y = .ram

/-- A state with another `status.cmp`. -/
def withCmp (f : Flag) (s : State) : State := ⟨s.size, { s.cpu with cmp := f }⟩

/-- A state with another `status.overflow`. -/
def withOverflow (f : Flag) (s : State) : State := ⟨s.size, { s.cpu with overflow := f }⟩

/-- An outcome with its next state changed. -/
def mapNext (f : State → State) : Result → Result
  | .next t => .next (f t)
  | .fault e => .fault e
  | .refused r => .refused r

/-! ## Validity of words, from the tables alone (30_encoding.md R87, R88; 95_test_vectors.md 3.2) -/

/-- The legal low bytes of word 0 for each opcode (R87's last column). -/
def legalLowBytes (opcode : Nat) : List Nat :=
  if opcode ∈ [1, 2, 3, 4, 5, 6, 7, 8, 9, 10, 11, 12, 13, 15, 16] then [0x25, 0x26, 0x29, 0x2A]
  else if opcode ∈ [14, 17, 18] then [0x24, 0x28]
  else if opcode ∈ [19, 20, 21, 22] then [0x14, 0x18, 0x24, 0x28]
  else if opcode ∈ [23, 25, 26, 27] then [0x10, 0x20]
  else if opcode = 24 then [0x20]
  else if opcode = 28 then [0x00]
  else []

/-- The opcodes whose first slot is a destination (R87). -/
def firstIsDst (opcode : Nat) : Bool := (opcode ≤ 18 || opcode == 24) && opcode != 0

/-- V5 to V8 on a source or unused slot with kind field `k`: zero, any pattern, or `%pc`, `%sp`, `%gpj`
with `j < n`. -/
def sourceSlotValid (n k w : Nat) : Prop :=
  (k = 0 ∧ w = 0) ∨ k = 1 ∨ (k = 2 ∧ (w = 1 ∨ w = 2 ∨ (256 ≤ w ∧ w < 256 + n)))

/-- V6 and V8 on a destination slot: `%sp` or `%gpj` with `j < n`. -/
def dstSlotValid (n w : Nat) : Prop := w = 2 ∨ (256 ≤ w ∧ w < 256 + n)

/-- V1 to V8 of R88 on four words, said with the legal words of R87. -/
def validWords (n : Nat) (ws : Words z) : Prop :=
  let op := ws.w0.toNat / 256
  let low := ws.w0.toNat % 256
  low ∈ legalLowBytes op
    ∧ (if firstIsDst op then dstSlotValid n ws.w1.toNat else sourceSlotValid n (low / 16) ws.w1.toNat)
    ∧ sourceSlotValid n (low / 4 % 4) ws.w2.toNat
    ∧ sourceSlotValid n (low % 4) ws.w3.toNat

/-! ## The strict machine (R36, D6) -/

/-- A register or flag that nothing has written since start-up (R36). -/
inductive Unwritten where
  | gp (k : Nat)
  | cmp
deriving DecidableEq, Repr

/-- A source operand that is a register without a value (R36, R95). -/
def unwrittenOperand (s : Cpu z) : Operand → Option Unwritten
  | .reg (.gp k) => match s.gp[k]? with
    | some r => if r.written then none else some (.gp k)
    | none => none
  | _ => none

/-- The first thing without a value that an instruction reads: its operands in order, then `status.cmp`
for `brcond` (R226 point 4). -/
def unwrittenRead (s : Cpu z) (i : Instr) : Option Unwritten :=
  match (sources i).findSome? (unwrittenOperand s) with
  | some u => some u
  | none => if readsCmp i && !s.cmp.written then some .cmp else none

/-- The faults of R224, `UninitialisedRead` among them. -/
inductive StrictFault where
  | fault (f : Fault)
  | uninitialisedRead (u : Unwritten)
deriving DecidableEq, Repr

/-- An outcome of the machine as one of the strict machine. -/
def liftOutcome : Result → Host.Outcome State StrictFault Refusal
  | .next t => .next t
  | .fault f => .fault (.fault f)
  | .refused r => .refused r

/-- An instruction on the strict machine: `UninitialisedRead` comes before the instruction's own faults
(R226). -/
def strictExec (i : Instr) (s : State) : Host.Outcome State StrictFault Refusal :=
  match unwrittenRead s.cpu i with
  | some u => .fault (.uninitialisedRead u)
  | none => liftOutcome (exec i s)

/-- A step of the strict machine: R31 with R36's first treatment. `Machine.step` differs from it only in
going on where this one reports `UninitialisedRead` (log entries 5 and 6). -/
def strictStep (s : State) : Host.Outcome State StrictFault Refusal :=
  if s.cpu.halt then .next s
  else match fetchInstr s.cpu with
    | .error f => .fault (.fault f)
    | .ok i => strictExec i s.advance

/-- Two registers with the same bookkeeping and, where written, the same value. -/
def sameReg (r q : GpReg z) : Prop := r.written = q.written ∧ (r.written = true → r.value = q.value)

/-- The same for flags. -/
def sameFlag (f g : Flag) : Prop := f.written = g.written ∧ (f.written = true → f.value = g.value)

/-- Two machines of one word size that differ at most in the values of registers and flags that nothing has written. -/
def sameWritten (s t : Cpu z) : Prop :=
  s.pc = t.pc ∧ s.sp = t.sp ∧ List.Forall₂ sameReg s.gp t.gp ∧ sameFlag s.cmp t.cmp
    ∧ sameFlag s.overflow t.overflow ∧ s.halt = t.halt ∧ s.mem = t.mem ∧ s.refused = t.refused
    ∧ s.draws = t.draws

end Sys2Proof.Safety
end

