-- ==== Sys2Proof/Certificates/Slice0/Obligations.lean ====
section
/-! DEFINITION. The statements about the model that are to be proved, from the numbered rules of spec/. They are
for every word size, unless they say which.

`exec` runs in the state whose `%pc` is `next_pc`; `StepRunsTheDecodedInstruction` says how a step reaches it.
The statements of results give the whole next state, so each is its instruction's frame too.

A statement of a result takes the values that its operands give, `readOperand s a = .ok x`, and says what the
instruction makes of them. What an operand gives is `OperandResolution`, and there alone stands the model's
choice that a register which nothing has written gives the value it holds (log entry 5). The fault
`UninitialisedRead` that the spec has in that case (R36) is not raised by `exec`; it is the strict machine's,
and `UnwrittenReadIsReported` states it for every instruction at once. -/

open Sys2Proof Sys2Proof.Config Sys2Proof.Machine Sys2Proof.Safety

/-- For every word size and every legal number of registers, decoding the words of a well-formed instruction gives
the instruction back, every operand at every value (30_encoding.md R94, R107). -/
def Obligations.DecodeOfEncodeIsTheInstruction : Prop :=
  ∀ (z : WordSize) (n : Nat) (i : Instr), legalNumGp z n → i.wf z n = true →
    decode n (encode z i) = .ok i

/-- Words that decode to an instruction are exactly that instruction's encoding, and the instruction is
well-formed: the decoder drops no bit (R94). -/
def Obligations.EncodeOfDecodeIsTheWords : Prop :=
  ∀ (z : WordSize) (n : Nat) (ws : Words z) (i : Instr), decode n ws = .ok i →
    encode z i = ws ∧ i.wf z n = true

/-- R94, whole. -/
def Obligations.EachInstructionHasExactlyOneEncoding : Prop :=
  ∀ (z : WordSize) (n : Nat), legalNumGp z n →
    (∀ ws : Words z, (∃ e, decode n ws = .error e) ∨
      ∃ i : Instr, i.wf z n = true ∧ decode n ws = .ok i) ∧
    (∀ (ws ws' : Words z) (i : Instr), decode n ws = .ok i → decode n ws' = .ok i → ws = ws') ∧
    (∀ i : Instr, i.wf z n = true → ∃! ws : Words z, decode n ws = .ok i)

/-- R88 with the table of R87: four words decode to an instruction exactly where V1 to V8 hold, said with
the legal low bytes of R87's last column and the register codes of R29. -/
def Obligations.DecodeAcceptsExactlyValidWords : Prop :=
  ∀ (z : WordSize) (n : Nat) (ws : Words z), (∃ i, decode n ws = .ok i) ↔ validWords n ws

/-- R226 point 3 for the conditions on word 0, V1 to V3, in order. -/
def Obligations.FirstFailingConditionIsReported : Prop :=
  ∀ (z : WordSize) (n : Nat) (ws : Words z),
    let op := ws.w0.toNat / 256
    let w := ws.w0.toNat
    let kind11 := w / 16 % 4 = 3 ∨ w / 4 % 4 = 3 ∨ w % 4 = 3
    (decode n ws = .error .unknownOpcode ↔ ¬(1 ≤ op ∧ op ≤ 28)) ∧
    (decode n ws = .error .reservedBits ↔ (1 ≤ op ∧ op ≤ 28) ∧ w / 64 % 4 ≠ 0) ∧
    (decode n ws = .error .reservedKind ↔ (1 ≤ op ∧ op ≤ 28) ∧ w / 64 % 4 = 0 ∧ kind11)

/-- The opcode column of R86: bits `[W-1:8]` of an encoded instruction's word 0 are its opcode, and its reserved
bits `[7:6]` are zero (R81). -/
def Obligations.OpcodesFollowTheTable : Prop :=
  ∀ (z : WordSize) (i : Instr), (encode z i).w0.toNat / 256 = opcodeNumber i ∧
    (encode z i).w0.toNat / 64 % 4 = 0 ∧ 1 ≤ opcodeNumber i ∧ opcodeNumber i ≤ 28

/-- The worked encodings of R107 at 32 bits, and two rows of 95_test_vectors.md 2.6 at 16 and 24 bits, decode to
their statements (a sanity check on fixed words). -/
def Obligations.WrittenOutWordsDecode : Prop :=
  decode 8 (⟨0x00000129, 0x00000100, 0x00000101, 0x00000005⟩ : Words resetSize) =
      .ok (.add (.gp 0) (.reg (.gp 1)) (.imm 5)) ∧
    decode 8 (⟨0x00001124, 0x00000101, 0x0000000A, 0x00000000⟩ : Words resetSize) =
      .ok (.mov (.gp 1) (.imm 10)) ∧
    decode 8 (⟨0x00001A10, 0xFFFFFFB0, 0x00000000, 0x00000000⟩ : Words resetSize) =
      .ok (.br (.imm 0xFFFFFFB0)) ∧
    decode 8 (⟨0x00001318, 0x00001000, 0x00000100, 0x00000000⟩ : Words resetSize) =
      .ok (.store (.imm 4096) (.reg (.gp 0))) ∧
    decode 8 (⟨0x00001820, 0x00000002, 0x00000000, 0x00000000⟩ : Words resetSize) = .ok (.pop .sp) ∧
    decode 8 (⟨0x00001C00, 0x00000000, 0x00000000, 0x00000000⟩ : Words resetSize) = .ok .halt ∧
    decode 4 (⟨0x1124, 0x0103, 0x0001, 0x0000⟩ : Words size16) = .ok (.mov (.gp 3) (.imm 1)) ∧
    decode 8 (⟨0x001A10, 0xFFFFF4, 0x000000, 0x000000⟩ : Words size24) = .ok (.br (.imm 0xFFFFF4))

/-- The byte decoder reads an instruction's bytes, words little-endian and word 0 lowest, and leaves the
bytes after it (R61, R80, R90). -/
def Obligations.BytesOfAnInstructionDecode : Prop :=
  ∀ (z : WordSize) (n : Nat) (i : Instr) (rest : List Byte), legalNumGp z n → i.wf z n = true →
    decodeBytes z n (encodeBytes z i ++ rest) = .ok (i, rest)

/-- R31: where the `IB` bytes at `%pc` decode to an instruction, a running machine's step is that
instruction's meaning in the state whose `%pc` has been advanced by `IB`. -/
def Obligations.StepRunsTheDecodedInstruction : Prop :=
  ∀ (z : WordSize) (s : Cpu z) (i : Instr), s.halt = false → s.pc.toNat + z.IB < z.addressSpace →
    allRam s s.pc.toNat z.IB →
    decodeBytes z s.numGp (s.mem.bytesAt s.pc.toNat z.IB) = .ok (i, []) →
    step ⟨z, s⟩ = exec i ⟨z, { s with pc := s.pc + BitVec.ofNat z.W z.IB }⟩

/-- R89: executing words that are not valid is `Fault(InvalidInstruction)`. -/
def Obligations.InvalidInstructionFaults : Prop :=
  ∀ (z : WordSize) (s : Cpu z) (ws : Words z), s.halt = false →
    s.pc.toNat + z.IB < z.addressSpace → fetchWords s s.pc = .ok ws → ¬ validWords s.numGp ws →
    ∃ why, step ⟨z, s⟩ = .fault (.invalidInstruction why)

/-- R32: the advance check comes before anything is fetched. -/
def Obligations.StepPastTheTopFaults : Prop :=
  ∀ (z : WordSize) (s : Cpu z), s.halt = false → z.addressSpace ≤ s.pc.toNat + z.IB →
    step ⟨z, s⟩ = .fault (.pcOverflow s.pc.toNat none)

/-- R53, R62 and R226 point 2: a fetch that touches a refused address faults, at the lowest one. -/
def Obligations.RefusedFetchFaults : Prop :=
  ∀ (z : WordSize) (s : Cpu z), s.halt = false → s.pc.toNat + z.IB < z.addressSpace → ∀ x : Nat,
    lowestRefused s s.pc.toNat z.IB x → step ⟨z, s⟩ = .fault (.accessRefused x)

/-- R26, whole, with R253 and R256 for what clears the flag: the host acts before `Start` only, where it writes a byte of
memory and nothing else, or gives `Start`, which clears the flag and does nothing else; in every other phase every
action is turned away. That a step of the halted machine answers the same state is how the model writes that there is none
(DESIGN CHOICE, log entry 8). -/
def Obligations.HaltIsWrittenByHaltOnly : Prop :=
  State.reset.cpu.halt = true ∧
    (∀ (i : Instr) (s t : State), exec i s = .next t →
      (i = .halt ∧ t.cpu.halt = true) ∨ (i ≠ .halt ∧ t.cpu.halt = s.cpu.halt)) ∧
    (∀ s : State, s.cpu.halt = true → step s = .next s) ∧
    (∀ (c d : Session) (a : HostAction), c.host a = some d → ∃ s : State, c = .loading s) ∧
    (∀ (z : WordSize) (s : Cpu z),
      (Session.loading ⟨z, s⟩).host .start = some (.running ⟨z, { s with halt := false }⟩)) ∧
    (∀ (z : WordSize) (s : Cpu z) (x : Nat) (b : Byte), s.mem.wf z = true →
      (x < z.addressSpace → ∃ m : Memory,
        (Session.loading ⟨z, s⟩).host (.writeByte x b) = some (.loading ⟨z, { s with mem := m }⟩) ∧
        ∀ y, m.byteAt y = if y = x then b else s.mem.byteAt y) ∧
      (z.addressSpace ≤ x → (Session.loading ⟨z, s⟩).host (.writeByte x b) = none))

/-- R57, whole: the three cases of `MemRead`. -/
def Obligations.WordReadIsLittleEndian : Prop :=
  ∀ (z : WordSize) (s : Cpu z) (a : Word z),
    (z.addressSpace < a.toNat + z.WB → memRead s a = .error (.addressWrap a.toNat)) ∧
    (∀ x, a.toNat + z.WB ≤ z.addressSpace → lowestRefused s a.toNat z.WB x →
      memRead s a = .error (.accessRefused x)) ∧
    (accessible s a → ∃ v, memRead s a = .ok v ∧ wordStands s a.toNat v)

/-- R58 and R56, whole: the three cases of `MemWrite`, and its frame. -/
def Obligations.WordWriteIsLittleEndian : Prop :=
  ∀ (z : WordSize) (s : Cpu z) (a v : Word z), s.mem.wf z = true →
    (z.addressSpace < a.toNat + z.WB → memWrite s a v = .error (.addressWrap a.toNat)) ∧
    (∀ x, a.toNat + z.WB ≤ z.addressSpace → lowestRefused s a.toNat z.WB x →
      memWrite s a v = .error (.accessRefused x)) ∧
    (accessible s a → ∃ t, memWrite s a v = .ok t ∧ storedWord s t a.toNat v)

/-- R65, R71: a read returns what the latest store wrote. -/
def Obligations.StoredWordReadsBack : Prop :=
  ∀ (z : WordSize) (s t : Cpu z) (a v : Word z), s.mem.wf z = true → memWrite s a v = .ok t →
    memRead t a = .ok v

/-- The canonical form of memory is one per assignment of bytes (the model's own choice of data, log
entry 4). -/
def Obligations.EqualBytesAreEqualMemories : Prop :=
  ∀ (z : WordSize) (m m' : Memory), m.wf z = true → m'.wf z = true →
    (∀ a, m.byteAt a = m'.byteAt a) → m = m'

/-- From every state, reached or not: memory stays canonical, `%sp` stays a multiple of `WB` (R35), and
*num-gp-regs* stays within its bounds. -/
def Obligations.StepKeepsTheInvariant : Prop :=
  ∀ s t : State, Inv s → step s = .next t → Inv t

/-- The state after reset meets the invariant (the initial `%sp` meets R35), as does every machine after start-up,
whatever the host does. -/
def Obligations.ResetMeetsTheInvariant : Prop :=
  Inv State.reset ∧
    ∀ (w n : Nat) (r : List Region) (c d : Session) (as : List HostAction),
      Session.begin w n r = some c → c.hostAll as = some d → Inv c.state ∧ Inv d.state

/-- R2, R5: the word sizes of the model are exactly the legal ones, and a machine starts up exactly for a legal
word size and a legal number of registers, and has them. -/
def Obligations.ParametersWithinBounds : Prop :=
  ∀ w n : Nat,
    (legalW w ↔ ∃ z : WordSize, z.W = w) ∧
    (∀ z : WordSize, 8 * z.WB = z.W ∧ z.IB = 4 * z.WB ∧ wordSizeOf z.W = some z) ∧
    (∀ r : List Region, (∃ s, startUp w n r = some s) ↔
      16 ≤ w ∧ w % 8 = 0 ∧ 1 ≤ n ∧ n ≤ 2 ^ w - 256) ∧
    (∀ (r : List Region) (s : State), startUp w n r = some s →
      s.size.W = w ∧ s.cpu.numGp = n ∧ s.cpu.refused = r) ∧
    startUp 32 8 [] = some State.reset

/-- R42: *word-size*, *num-gp-regs* and `Mapped` are no state but parameters; the model holds them in `State` (log
entries 1, 2 and 3), and no step changes them. -/
def Obligations.StepKeepsThePlatform : Prop :=
  ∀ s t : State, step s = .next t →
    t.size = s.size ∧ t.cpu.numGp = s.cpu.numGp ∧ t.cpu.refused = s.cpu.refused

/-- R222 to R225 know completion and faults only: no instruction is left without a meaning. -/
def Obligations.NoInstructionIsRefused : Prop :=
  (∀ (i : Instr) (s : State) (r : Refusal), exec i s ≠ .refused r) ∧
    ∀ (s : State) (r : Refusal), step s ≠ .refused r

/-- R41: what start-up leaves. That the word size is 32 bits, that the number of registers is 8, that no address is
refused and that memory lists nothing are the model's choices (log entries 1, 2, 3 and 4). -/
def Obligations.ResetState : Prop :=
  let c := State.reset.cpu
  c.pc = 0 ∧ c.sp = 0 ∧ c.halt = true ∧
    c.cmp.written = false ∧ c.overflow.written = false ∧
    (∀ r ∈ c.gp, r.written = false) ∧ State.reset.size.W = 32 ∧ c.numGp = 8 ∧
    (∀ a, c.mapped a = .ram) ∧ (∀ a, c.mem.byteAt a = 0)

/-- R21, R253: a simulation started after its program was loaded at address 0 runs the instruction at 0 first. The
load and `Start` are accepted, and leave everything but memory and `status.halt` at its start-up value. -/
def Obligations.ProgramAtZeroRunsFirst : Prop :=
  ∀ (z : WordSize) (n : Nat) (i : Instr) (rest : List Byte), legalNumGp z n → i.wf z n = true →
    (encodeBytes z i ++ rest).length ≤ z.addressSpace →
    ∃ m : Memory,
      let c : Cpu z := { Cpu.start z n [] with halt := false, mem := m }
      (Session.loading ⟨z, Cpu.start z n []⟩).hostAll (loadActions 0 (encodeBytes z i ++ rest) ++ [.start]) =
        some (.running ⟨z, c⟩) ∧
      step ⟨z, c⟩ = exec i ⟨z, { c with pc := BitVec.ofNat z.W z.IB }⟩

/-- The host interface: what the decoder reads from a table word is what the first step after reset runs (log
entry 9). -/
def Obligations.FetchWordRunsFirst : Prop :=
  ∀ (nbits w : Nat) (i : Instr), decodeTableWord nbits w = some i →
    let s := State.reset.withFetchWord nbits w
    step s = exec i ⟨s.size, { s.cpu with pc := BitVec.ofNat s.size.W s.size.IB }⟩

/-- R95 and R96: what a source gives and what a destination takes. A register that nothing has written
gives the value it holds (the model's choice, log entry 5). -/
def Obligations.OperandResolution : Prop :=
  ∀ (z : WordSize) (s : Cpu z),
    (∀ v : Word z, readOperand s (.imm v.toNat) = .ok v) ∧
    readOperand s (.reg .pc) = .ok s.pc ∧ readOperand s (.reg .sp) = .ok s.sp ∧
    (∀ k r, s.gp[k]? = some r → readOperand s (.reg (.gp k)) = .ok r.value) ∧
    (∀ v : Word z, v.toNat % z.WB ≠ 0 → writeDst s .sp v = .error (.spMisaligned v.toNat)) ∧
    (∀ v : Word z, v.toNat % z.WB = 0 → writeDst s .sp v = .ok { s with sp := v }) ∧
    (∀ k v, k < s.gp.length → writeDst s (.gp k) v = .ok { s with gp := s.gp.set k ⟨v, true⟩ })

/-- `add` (R131), with the frame of R130: everything but the destination and `status.overflow` is as it was. -/
def Obligations.AddResult : Prop :=
  ∀ (z : WordSize) (d : WReg) (a b : Operand) (s : Cpu z) (x y : Word z),
    readOperand s a = .ok x → readOperand s b = .ok y →
    let r : Word z := BitVec.ofNat z.W ((x.toNat + y.toNat) % 2 ^ z.W)
    (accepts s d r →
      exec (.add d a b) ⟨z, s⟩ =
        .next ⟨z, { put s d r with overflow := ⟨decide (2 ^ z.W ≤ x.toNat + y.toNat), true⟩ }⟩) ∧
    (misaligned d r → exec (.add d a b) ⟨z, s⟩ = .fault (.spMisaligned r.toNat))

/-- `sub` (R132), with the frame of R130. -/
def Obligations.SubResult : Prop :=
  ∀ (z : WordSize) (d : WReg) (a b : Operand) (s : Cpu z) (x y : Word z),
    readOperand s a = .ok x → readOperand s b = .ok y →
    let r : Word z := x - y
    (accepts s d r →
      exec (.sub d a b) ⟨z, s⟩ =
        .next ⟨z, { put s d r with overflow := ⟨decide (x.toNat < y.toNat), true⟩ }⟩) ∧
    (misaligned d r → exec (.sub d a b) ⟨z, s⟩ = .fault (.spMisaligned r.toNat))

/-- `mul`, `mulhss`, `mulhsu`, `mulhuu` (R133 to R136): the low half of the product, and the floor of the exact
product divided by `2^W` under each reading of the operands; no flag. -/
def Obligations.MultiplyResults : Prop :=
  ∀ (z : WordSize) (d : WReg) (a b : Operand) (s : Cpu z) (x y : Word z),
    readOperand s a = .ok x → readOperand s b = .ok y →
    (let r : Word z := BitVec.ofNat z.W (x.toNat * y.toNat % 2 ^ z.W)
     (accepts s d r →
       exec (.mul d a b) ⟨z, s⟩ = .next ⟨z, put s d r⟩) ∧
     (misaligned d r → exec (.mul d a b) ⟨z, s⟩ = .fault (.spMisaligned r.toNat))) ∧
    (let r : Word z := BitVec.ofInt z.W (x.toInt * y.toInt / 2 ^ z.W)
     (accepts s d r →
       exec (.mulhss d a b) ⟨z, s⟩ = .next ⟨z, put s d r⟩) ∧
     (misaligned d r → exec (.mulhss d a b) ⟨z, s⟩ = .fault (.spMisaligned r.toNat))) ∧
    (let r : Word z := BitVec.ofInt z.W (x.toInt * y.toNat / 2 ^ z.W)
     (accepts s d r →
       exec (.mulhsu d a b) ⟨z, s⟩ = .next ⟨z, put s d r⟩) ∧
     (misaligned d r → exec (.mulhsu d a b) ⟨z, s⟩ = .fault (.spMisaligned r.toNat))) ∧
    (let r : Word z := BitVec.ofNat z.W (x.toNat * y.toNat / 2 ^ z.W)
     (accepts s d r →
       exec (.mulhuu d a b) ⟨z, s⟩ = .next ⟨z, put s d r⟩) ∧
     (misaligned d r → exec (.mulhuu d a b) ⟨z, s⟩ = .fault (.spMisaligned r.toNat)))

/-- `divss` (R137), with the frame of R130. By zero the destination takes any value: the free value
`anyWord z s.draws`, of which nothing is known, whatever `s.draws` is, so that whether a write of it to `%sp` is
misaligned is left open. That the value is drawn by the field `draws`, which the draw advances, is the model's choice
(DESIGN CHOICE, log entry 7). -/
def Obligations.DivssResult : Prop :=
  ∀ (z : WordSize) (d : WReg) (a b : Operand) (s : Cpu z) (x y : Word z),
    readOperand s a = .ok x → readOperand s b = .ok y →
    (y = 0 → d.wf s.numGp = true →
      let v := anyWord z s.draws
      exec (.divss d a b) ⟨z, s⟩ =
        if d = .sp ∧ v.toNat % z.WB ≠ 0 then .fault (.spMisaligned v.toNat)
        else .next ⟨z, { put s d v with overflow := ⟨false, true⟩, draws := s.draws + 1 }⟩) ∧
    (y ≠ 0 →
      let r : Word z := BitVec.ofInt z.W (x.toInt.tdiv y.toInt)
      (accepts s d r →
        exec (.divss d a b) ⟨z, s⟩ = .next ⟨z, { put s d r with overflow := ⟨true, true⟩ }⟩) ∧
      (misaligned d r → exec (.divss d a b) ⟨z, s⟩ = .fault (.spMisaligned r.toNat)))

/-- `divuu` (R138), with the frame of R130. By zero the destination takes any value: the free value
`anyWord z s.draws`, of which nothing is known, whatever `s.draws` is, so that whether a write of it to `%sp` is
misaligned is left open. That the value is drawn by the field `draws`, which the draw advances, is the model's choice
(DESIGN CHOICE, log entry 7). -/
def Obligations.DivuuResult : Prop :=
  ∀ (z : WordSize) (d : WReg) (a b : Operand) (s : Cpu z) (x y : Word z),
    readOperand s a = .ok x → readOperand s b = .ok y →
    (y = 0 → d.wf s.numGp = true →
      let v := anyWord z s.draws
      exec (.divuu d a b) ⟨z, s⟩ =
        if d = .sp ∧ v.toNat % z.WB ≠ 0 then .fault (.spMisaligned v.toNat)
        else .next ⟨z, { put s d v with overflow := ⟨false, true⟩, draws := s.draws + 1 }⟩) ∧
    (y ≠ 0 →
      let r : Word z := x / y
      (accepts s d r →
        exec (.divuu d a b) ⟨z, s⟩ = .next ⟨z, { put s d r with overflow := ⟨true, true⟩ }⟩) ∧
      (misaligned d r → exec (.divuu d a b) ⟨z, s⟩ = .fault (.spMisaligned r.toNat)))

/-- `remss` (R139), with the frame of R130. By zero the destination takes any value: the free value
`anyWord z s.draws`, of which nothing is known, whatever `s.draws` is, so that whether a write of it to `%sp` is
misaligned is left open. That the value is drawn by the field `draws`, which the draw advances, is the model's choice
(DESIGN CHOICE, log entry 7). -/
def Obligations.RemssResult : Prop :=
  ∀ (z : WordSize) (d : WReg) (a b : Operand) (s : Cpu z) (x y : Word z),
    readOperand s a = .ok x → readOperand s b = .ok y →
    (y = 0 → d.wf s.numGp = true →
      let v := anyWord z s.draws
      exec (.remss d a b) ⟨z, s⟩ =
        if d = .sp ∧ v.toNat % z.WB ≠ 0 then .fault (.spMisaligned v.toNat)
        else .next ⟨z, { put s d v with overflow := ⟨false, true⟩, draws := s.draws + 1 }⟩) ∧
    (y ≠ 0 →
      let r : Word z := BitVec.ofInt z.W (x.toInt.tmod y.toInt)
      (accepts s d r →
        exec (.remss d a b) ⟨z, s⟩ = .next ⟨z, { put s d r with overflow := ⟨true, true⟩ }⟩) ∧
      (misaligned d r → exec (.remss d a b) ⟨z, s⟩ = .fault (.spMisaligned r.toNat)))

/-- `remuu` (R140), with the frame of R130. By zero the destination takes any value: the free value
`anyWord z s.draws`, of which nothing is known, whatever `s.draws` is, so that whether a write of it to `%sp` is
misaligned is left open. That the value is drawn by the field `draws`, which the draw advances, is the model's choice
(DESIGN CHOICE, log entry 7). -/
def Obligations.RemuuResult : Prop :=
  ∀ (z : WordSize) (d : WReg) (a b : Operand) (s : Cpu z) (x y : Word z),
    readOperand s a = .ok x → readOperand s b = .ok y →
    (y = 0 → d.wf s.numGp = true →
      let v := anyWord z s.draws
      exec (.remuu d a b) ⟨z, s⟩ =
        if d = .sp ∧ v.toNat % z.WB ≠ 0 then .fault (.spMisaligned v.toNat)
        else .next ⟨z, { put s d v with overflow := ⟨false, true⟩, draws := s.draws + 1 }⟩) ∧
    (y ≠ 0 →
      let r : Word z := x % y
      (accepts s d r →
        exec (.remuu d a b) ⟨z, s⟩ = .next ⟨z, { put s d r with overflow := ⟨true, true⟩ }⟩) ∧
      (misaligned d r → exec (.remuu d a b) ⟨z, s⟩ = .fault (.spMisaligned r.toNat)))

/-- R137, R139: the quotient and the remainder belong together, the remainder has the sign of the dividend
or is zero and is smaller than the divisor, and the one quotient that does not fit gives the dividend back. -/
def Obligations.SignedDivisionLaws : Prop :=
  ∀ (z : WordSize) (x y : Word z), y ≠ 0 →
    x = divSigned x y * y + remSigned x y ∧
    (remSigned x y).toInt.natAbs < y.toInt.natAbs ∧
    ((remSigned x y).toInt = 0 ∨ ((remSigned x y).toInt < 0 ↔ x.toInt < 0)) ∧
    (x.toInt = -2 ^ (z.W - 1) → y.toInt = -1 → divSigned x y = x ∧ remSigned x y = 0) ∧
    (¬(x.toInt = -2 ^ (z.W - 1) ∧ y.toInt = -1) → (divSigned x y).toInt = x.toInt.tdiv y.toInt)

/-- `and`, `or`, `xor` (R151, R152, R153), bit by bit; no flag. Where R153 has `UninitialisedRead` for a register that
nothing has written, `exec` goes on with the value it holds (the model's choice, log entry 5). -/
def Obligations.BitwiseResults : Prop :=
  ∀ (z : WordSize) (d : WReg) (a b : Operand) (s : Cpu z) (x y : Word z),
    readOperand s a = .ok x → readOperand s b = .ok y →
    (∀ r : Word z, (∀ j, j < z.W → r.getLsbD j = (x.getLsbD j && y.getLsbD j)) →
     (accepts s d r →
       exec (.and d a b) ⟨z, s⟩ = .next ⟨z, put s d r⟩) ∧
     (misaligned d r → exec (.and d a b) ⟨z, s⟩ = .fault (.spMisaligned r.toNat))) ∧
    (∀ r : Word z, (∀ j, j < z.W → r.getLsbD j = (x.getLsbD j || y.getLsbD j)) →
     (accepts s d r →
       exec (.or d a b) ⟨z, s⟩ = .next ⟨z, put s d r⟩) ∧
     (misaligned d r → exec (.or d a b) ⟨z, s⟩ = .fault (.spMisaligned r.toNat))) ∧
    (∀ r : Word z, (∀ j, j < z.W → r.getLsbD j = (x.getLsbD j != y.getLsbD j)) →
     (accepts s d r →
       exec (.xor d a b) ⟨z, s⟩ = .next ⟨z, put s d r⟩) ∧
     (misaligned d r → exec (.xor d a b) ⟨z, s⟩ = .fault (.spMisaligned r.toNat)))

/-- `not` (R154): `(2^W - 1) - u(src(2))`; no flag. -/
def Obligations.NotResult : Prop :=
  ∀ (z : WordSize) (d : WReg) (a : Operand) (s : Cpu z) (x : Word z), readOperand s a = .ok x →
    let r : Word z := BitVec.ofNat z.W (2 ^ z.W - 1 - x.toNat)
    (accepts s d r →
      exec (.not d a) ⟨z, s⟩ = .next ⟨z, put s d r⟩) ∧
    (misaligned d r → exec (.not d a) ⟨z, s⟩ = .fault (.spMisaligned r.toNat))

/-- `lsl` (R155): amounts 0 to `W` shift, more is `Fault(IllegalShift)`; no flag. -/
def Obligations.LslResult : Prop :=
  ∀ (z : WordSize) (d : WReg) (a b : Operand) (s : Cpu z) (x y : Word z),
    readOperand s a = .ok x → readOperand s b = .ok y →
    (y.toNat ≤ z.W →
      let r : Word z := BitVec.ofNat z.W (x.toNat * 2 ^ y.toNat % 2 ^ z.W)
      (accepts s d r →
        exec (.lsl d a b) ⟨z, s⟩ = .next ⟨z, put s d r⟩) ∧
      (misaligned d r → exec (.lsl d a b) ⟨z, s⟩ = .fault (.spMisaligned r.toNat))) ∧
    (z.W < y.toNat → exec (.lsl d a b) ⟨z, s⟩ = .fault (.illegalShift y.toNat))

/-- `rsl` (R156): amounts 0 to `W` shift, more is `Fault(IllegalShift)`; no flag. -/
def Obligations.RslResult : Prop :=
  ∀ (z : WordSize) (d : WReg) (a b : Operand) (s : Cpu z) (x y : Word z),
    readOperand s a = .ok x → readOperand s b = .ok y →
    (y.toNat ≤ z.W →
      let r : Word z := BitVec.ofNat z.W (x.toNat / 2 ^ y.toNat)
      (accepts s d r →
        exec (.rsl d a b) ⟨z, s⟩ = .next ⟨z, put s d r⟩) ∧
      (misaligned d r → exec (.rsl d a b) ⟨z, s⟩ = .fault (.spMisaligned r.toNat))) ∧
    (z.W < y.toNat → exec (.rsl d a b) ⟨z, s⟩ = .fault (.illegalShift y.toNat))

/-- `mov` (R171); no flag, no memory access. -/
def Obligations.MovResult : Prop :=
  ∀ (z : WordSize) (d : WReg) (a : Operand) (s : Cpu z) (x : Word z), readOperand s a = .ok x →
    (accepts s d x → exec (.mov d a) ⟨z, s⟩ = .next ⟨z, put s d x⟩) ∧
    (misaligned d x → exec (.mov d a) ⟨z, s⟩ = .fault (.spMisaligned x.toNat))

/-- `load` (R172): the little-endian word at the address; `MemRead` faults before the register is written. -/
def Obligations.LoadResult : Prop :=
  ∀ (z : WordSize) (d : WReg) (a : Operand) (s : Cpu z) (x : Word z), readOperand s a = .ok x →
    (∀ v : Word z, accessible s x → wordStands s x.toNat v →
      (accepts s d v → exec (.load d a) ⟨z, s⟩ = .next ⟨z, put s d v⟩) ∧
      (misaligned d v → exec (.load d a) ⟨z, s⟩ = .fault (.spMisaligned v.toNat))) ∧
    (z.addressSpace < x.toNat + z.WB → exec (.load d a) ⟨z, s⟩ = .fault (.addressWrap x.toNat)) ∧
    (∀ c, x.toNat + z.WB ≤ z.addressSpace → lowestRefused s x.toNat z.WB c →
      exec (.load d a) ⟨z, s⟩ = .fault (.accessRefused c))

/-- `store` (R173): the address is Op1, the value Op2; no register or flag is written. -/
def Obligations.StoreResult : Prop :=
  ∀ (z : WordSize) (a b : Operand) (s : Cpu z) (x y : Word z), s.mem.wf z = true →
    readOperand s a = .ok x → readOperand s b = .ok y →
    (accessible s x →
      ∃ t : Cpu z, exec (.store a b) ⟨z, s⟩ = .next ⟨z, t⟩ ∧ storedWord s t x.toNat y) ∧
    (z.addressSpace < x.toNat + z.WB → exec (.store a b) ⟨z, s⟩ = .fault (.addressWrap x.toNat)) ∧
    (∀ c, x.toNat + z.WB ≤ z.addressSpace → lowestRefused s x.toNat z.WB c →
      exec (.store a b) ⟨z, s⟩ = .fault (.accessRefused c))

/-- `push` (R174): the value is read before `%sp` changes; `Fault(SpWrap)` below `WB`; the word goes to the new
`%sp`. That `push %sp` is accepted, and stores the value before the decrement, is the meaning that D15 gives and
lets a model refuse (log entry 13). -/
def Obligations.PushResult : Prop :=
  ∀ (z : WordSize) (a : Operand) (s : Cpu z) (x : Word z), s.mem.wf z = true →
    readOperand s a = .ok x →
    (s.sp.toNat < z.WB → exec (.push a) ⟨z, s⟩ = .fault (.spWrap s.sp.toNat)) ∧
    (z.WB ≤ s.sp.toNat → allRam s (s.sp.toNat - z.WB) z.WB →
      ∃ t : Cpu z, exec (.push a) ⟨z, s⟩ = .next ⟨z, t⟩ ∧ t.sp.toNat = s.sp.toNat - z.WB ∧
        storedWord { s with sp := t.sp } t (s.sp.toNat - z.WB) x) ∧
    (∀ c, z.WB ≤ s.sp.toNat → lowestRefused s (s.sp.toNat - z.WB) z.WB c →
      exec (.push a) ⟨z, s⟩ = .fault (.accessRefused c))

/-- `pop` (R175) into `%gpk` and into `%sp`, in the order of its tests. That `pop %sp` is accepted, and ends with
the loaded value plus one word, is the meaning that D15 gives and lets a model refuse (log entry 13). -/
def Obligations.PopResult : Prop :=
  ∀ (z : WordSize) (s : Cpu z) (v : Word z),
    (∀ d, z.addressSpace < s.sp.toNat + z.WB →
      exec (.pop d) ⟨z, s⟩ = .fault (.addressWrap s.sp.toNat)) ∧
    (∀ d c, s.sp.toNat + z.WB ≤ z.addressSpace → lowestRefused s s.sp.toNat z.WB c →
      exec (.pop d) ⟨z, s⟩ = .fault (.accessRefused c)) ∧
    (accessible s s.sp → wordStands s s.sp.toNat v →
      (∀ k, k < s.gp.length →
        (s.sp.toNat + z.WB < z.addressSpace → exec (.pop (.gp k)) ⟨z, s⟩ =
          .next ⟨z, { s with gp := s.gp.set k ⟨v, true⟩, sp := s.sp + BitVec.ofNat z.W z.WB }⟩) ∧
        (z.addressSpace ≤ s.sp.toNat + z.WB →
          exec (.pop (.gp k)) ⟨z, s⟩ = .fault (.spWrap s.sp.toNat))) ∧
      (v.toNat % z.WB ≠ 0 → exec (.pop .sp) ⟨z, s⟩ = .fault (.spMisaligned v.toNat)) ∧
      (v.toNat % z.WB = 0 → z.addressSpace ≤ v.toNat + z.WB →
        exec (.pop .sp) ⟨z, s⟩ = .fault (.spWrap s.sp.toNat)) ∧
      (v.toNat % z.WB = 0 → v.toNat + z.WB < z.addressSpace →
        exec (.pop .sp) ⟨z, s⟩ = .next ⟨z, { s with sp := v + BitVec.ofNat z.W z.WB }⟩))

/-- `cmpeq`, `cmpltu`, `cmplts` (R190 to R193): `status.cmp` and nothing else. -/
def Obligations.CompareResults : Prop :=
  ∀ (z : WordSize) (a b : Operand) (s : Cpu z) (x y : Word z),
    readOperand s a = .ok x → readOperand s b = .ok y →
    (exec (.cmpeq a b) ⟨z, s⟩ =
      .next ⟨z, { s with cmp := ⟨decide (∀ j, j < z.W → x.getLsbD j = y.getLsbD j), true⟩ }⟩) ∧
    (exec (.cmpltu a b) ⟨z, s⟩ =
      .next ⟨z, { s with cmp := ⟨decide (x.toNat < y.toNat), true⟩ }⟩) ∧
    (exec (.cmplts a b) ⟨z, s⟩ =
      .next ⟨z, { s with cmp := ⟨decide (x.toInt < y.toInt), true⟩ }⟩)

/-- `jmp` (R201): any word is accepted as a target; nothing but `%pc` changes. -/
def Obligations.JmpResult : Prop :=
  ∀ (z : WordSize) (a : Operand) (s : Cpu z) (x : Word z), readOperand s a = .ok x →
    exec (.jmp a) ⟨z, s⟩ = .next ⟨z, { s with pc := x }⟩

/-- `br` (R202): `%pc` holds `next_pc`; the exact sum with the signed offset must be an address. -/
def Obligations.BrResult : Prop :=
  ∀ (z : WordSize) (a : Operand) (s : Cpu z) (x : Word z), readOperand s a = .ok x →
    (let t := (s.pc.toNat : Int) + x.toInt
     (0 ≤ t → t < 2 ^ z.W → exec (.br a) ⟨z, s⟩ = .next ⟨z, { s with pc := s.pc + x }⟩) ∧
     (t < 0 ∨ 2 ^ z.W ≤ t → exec (.br a) ⟨z, s⟩ =
       .fault (.pcOverflow (s.pc - BitVec.ofNat z.W z.IB).toNat (some x.toInt))))

/-- `brcond` (R203): as `br` where `status.cmp` is set, and no change where it is clear. A flag no compare has
written reads as it holds (the model's choice, log entry 6). -/
def Obligations.BrcondResult : Prop :=
  ∀ (z : WordSize) (a : Operand) (s : Cpu z) (x : Word z), readOperand s a = .ok x →
    (s.cmp.value = true → (let t := (s.pc.toNat : Int) + x.toInt
     (0 ≤ t → t < 2 ^ z.W → exec (.brcond a) ⟨z, s⟩ = .next ⟨z, { s with pc := s.pc + x }⟩) ∧
     (t < 0 ∨ 2 ^ z.W ≤ t → exec (.brcond a) ⟨z, s⟩ =
       .fault (.pcOverflow (s.pc - BitVec.ofNat z.W z.IB).toNat (some x.toInt))))) ∧
    (s.cmp.value = false → exec (.brcond a) ⟨z, s⟩ = .next ⟨z, s⟩)

/-- `halt` (R204): `status.halt <- 1`; `%pc` is already past it, and from then on the machine takes no step. That a
step of the halted machine answers the same state is how the model writes that there is none (DESIGN CHOICE, log
entry 8). -/
def Obligations.HaltResult : Prop :=
  ∀ (z : WordSize) (s : Cpu z), exec .halt ⟨z, s⟩ = .next ⟨z, { s with halt := true }⟩ ∧
    ∀ t, exec .halt ⟨z, s⟩ = .next t → step t = .next t

/-- The implicit-access column of R86 and R130, R150, R170, R190, R200: what an instruction does not name
as written, it leaves. -/
def Obligations.FrameOfEveryInstruction : Prop :=
  ∀ (z : WordSize) (i : Instr) (s : Cpu z) (u : State), exec i ⟨z, s⟩ = .next u →
    ∃ t : Cpu z, u = ⟨z, t⟩ ∧
      (∀ k, destination i ≠ some (.gp k) → t.gp[k]? = s.gp[k]?) ∧
      (destination i ≠ some .sp → writesSp i = false → t.sp = s.sp) ∧
      (writesPc i = false → t.pc = s.pc) ∧
      (writesCmp i = false → t.cmp = s.cmp) ∧
      (writesOverflow i = false → t.overflow = s.overflow) ∧
      (i ≠ .halt → t.halt = s.halt) ∧
      (writesMem i = false → ∀ c, t.mem.byteAt c = s.mem.byteAt c) ∧
      t.refused = s.refused ∧
      (writesOverflow i = false → t.draws = s.draws)

/-- The bytes outside the word stored are as before: the address is the one the meanings use (R173, R174). -/
def Obligations.StoreAndPushFrame : Prop :=
  ∀ (z : WordSize) (s t : Cpu z), s.mem.wf z = true →
    (∀ (a b : Operand) (x : Word z), readOperand s a = .ok x →
      exec (.store a b) ⟨z, s⟩ = .next ⟨z, t⟩ →
      ∀ c, (c < x.toNat ∨ x.toNat + z.WB ≤ c) → t.mem.byteAt c = s.mem.byteAt c) ∧
    (∀ a : Operand, exec (.push a) ⟨z, s⟩ = .next ⟨z, t⟩ →
      ∀ c, (c < (pushAddress s).toNat ∨ (pushAddress s).toNat + z.WB ≤ c) →
        t.mem.byteAt c = s.mem.byteAt c)

/-- R24: written by the compares and by nothing else, read by `brcond` and by nothing else. -/
def Obligations.CmpIsReadByBrcondOnly : Prop :=
  (∀ (i : Instr) (s t : State), exec i s = .next t →
      (writesCmp i = false → t.cpu.cmp = s.cpu.cmp) ∧
      (writesCmp i = true → t.cpu.cmp.written = true)) ∧
    ∀ (i : Instr) (s : State) (f : Flag), readsCmp i = false →
      exec i (withCmp f s) = mapNext (fun t => if writesCmp i then t else withCmp f t) (exec i s)

/-- R25: written by the six instructions of the table and by nothing else, and read by none. -/
def Obligations.OverflowIsReadByNothing : Prop :=
  (∀ (i : Instr) (s t : State), exec i s = .next t →
      (writesOverflow i = false → t.cpu.overflow = s.cpu.overflow) ∧
      (writesOverflow i = true → t.cpu.overflow.written = true)) ∧
    ∀ (i : Instr) (s : State) (f : Flag),
      exec i (withOverflow f s) =
        mapNext (fun t => if writesOverflow i then t else withOverflow f t) (exec i s)

/-- The strict machine of R36 differs from the model in reporting reads of unwritten registers only (log entries 5
and 6). -/
def Obligations.StrictStepAgreesWithStep : Prop :=
  ∀ s : State,
    (∀ t, strictStep s = .next t → step s = .next t) ∧
    (∀ f, strictStep s = .fault (.fault f) → step s = .fault f) ∧
    (∀ u, strictStep s = .fault (.uninitialisedRead u) →
      s.cpu.halt = false ∧ ∃ i, fetchInstr s.cpu = .ok i ∧ unwrittenRead s.advance.cpu i = some u)

/-- R36 on the strict machine: an instruction that reads a register or `status.cmp` without a value raises
`UninitialisedRead`, and one that does not is the model's. -/
def Obligations.UnwrittenReadIsReported : Prop :=
  ∀ (i : Instr) (s : State),
    (∀ k r, .reg (.gp k) ∈ sources i → s.cpu.gp[k]? = some r → r.written = false →
      ∃ u, strictExec i s = .fault (.uninitialisedRead u)) ∧
    (readsCmp i = true → s.cpu.cmp.written = false →
      ∃ u, strictExec i s = .fault (.uninitialisedRead u)) ∧
    ((∀ k r, .reg (.gp k) ∈ sources i → s.cpu.gp[k]? = some r → r.written = true) →
      (readsCmp i = true → s.cpu.cmp.written = true) → strictExec i s = liftOutcome (exec i s))

/-- R36, R259: what the model puts into registers and flags that nothing has written (log entries 5 and 6) cannot
be seen on the strict machine. -/
def Obligations.StrictMachineIgnoresUnwrittenValues : Prop :=
  ∀ (z : WordSize) (s t : Cpu z), sameWritten s t →
    (∀ u, strictStep ⟨z, s⟩ = .next u →
      ∃ s' t' : Cpu z, u = ⟨z, s'⟩ ∧ strictStep ⟨z, t⟩ = .next ⟨z, t'⟩ ∧ sameWritten s' t') ∧
    (∀ f, strictStep ⟨z, s⟩ = .fault f → strictStep ⟨z, t⟩ = .fault f)

/-- R36: "A write makes the register defined from then on." -/
def Obligations.WrittenStaysWritten : Prop :=
  ∀ s t : State, step s = .next t →
    (∀ (k : Nat) (r : GpReg s.size), s.cpu.gp[k]? = some r → r.written = true →
      ∃ r' : GpReg t.size, t.cpu.gp[k]? = some r' ∧ r'.written = true) ∧
    (s.cpu.cmp.written = true → t.cpu.cmp.written = true) ∧
    (s.cpu.overflow.written = true → t.cpu.overflow.written = true)

/-- R27: the host's `%status` word has each flag at its place, any value where a flag has none, and any value in
the reserved bits. -/
def Obligations.StatusWordBits : Prop :=
  ∀ (z : WordSize) (l : StatusLayout) (f : Word z) (s : Cpu z), l.legal z = true →
    (statusWord l f s).getLsbD l.halt = s.halt ∧
    (s.cmp.written = true → (statusWord l f s).getLsbD l.cmp = s.cmp.value) ∧
    (s.overflow.written = true → (statusWord l f s).getLsbD l.overflow = s.overflow.value) ∧
    (s.cmp.written = false → (statusWord l f s).getLsbD l.cmp = f.getLsbD l.cmp) ∧
    (s.overflow.written = false → (statusWord l f s).getLsbD l.overflow = f.getLsbD l.overflow) ∧
    ∀ j, j < z.W → j ≠ l.cmp → j ≠ l.overflow → j ≠ l.halt →
      (statusWord l f s).getLsbD j = f.getLsbD j

/-- R101, R102, R104: the normal form of a literal is a literal of the same word. -/
def Obligations.NormalFormsReadBack : Prop :=
  ∀ (z : WordSize) (w : Word z),
    Assembly.unsignedWord z (Assembly.unsignedNormal w.toNat) = some w ∧
    Assembly.signedWord z (Assembly.signedNormal w.toInt) = some w ∧
    Assembly.hexWord z (Assembly.hexNormal w) = some w

/-- R107, R88: what the assembler accepts, the decoder accepts. -/
def Obligations.AssemblerGivesValidEncodings : Prop :=
  ∀ (z : WordSize) (n : Nat) (mnemonic : List Char) (operands : List (List Char)) (ws : Words z),
    legalNumGp z n → Assembly.assemble z n mnemonic operands = some ws → ∃ i, decode n ws = .ok i

/-- R107, R108: an instruction's text assembles to its encoding. -/
def Obligations.DisassemblyAssembles : Prop :=
  ∀ (z : WordSize) (n : Nat) (i : Instr), legalNumGp z n → i.wf z n = true →
    Assembly.assemble z n (Assembly.disassemble z i).1 (Assembly.disassemble z i).2 =
      some (encode z i)
end

