-- ==== Sys2Proof/Laws/Config.lean ====
section
/-! SUPPORT. The sizes that a word size gives, for arithmetic goals. They are no simp lemmas, so that a statement
written with `z.W` stays written with it. -/

namespace Sys2Proof

theorem WordSize.W_eq (z : WordSize) : z.W = 8 * z.WB := rfl
theorem WordSize.IB_eq (z : WordSize) : z.IB = 4 * z.WB := rfl
theorem WordSize.addressSpace_eq (z : WordSize) : z.addressSpace = 2 ^ z.W := rfl

theorem WordSize.sixteen_le_W (z : WordSize) : 16 ≤ z.W := by
  have := z.two_le_WB; rw [W_eq]; omega

/-- Every address space has at least `2^16` addresses. -/
theorem WordSize.le_addressSpace (z : WordSize) : 65536 ≤ z.addressSpace :=
  (Nat.pow_le_pow_right (by decide) z.sixteen_le_W : 2 ^ 16 ≤ 2 ^ z.W)

/-- An instruction is shorter than the address space, by far. -/
theorem WordSize.IB_lt_addressSpace (z : WordSize) : z.IB < z.addressSpace := by
  have h : z.W < 2 ^ z.W := Nat.lt_two_pow_self
  have := z.two_le_WB
  rw [addressSpace_eq, IB_eq]; rw [W_eq] at h ⊢; omega

theorem WordSize.WB_lt_addressSpace (z : WordSize) : z.WB < z.addressSpace := by
  have := z.IB_lt_addressSpace; rw [IB_eq] at this; omega

/-- A word size is its number of bits. -/
theorem WordSize.eq_of_W {z z' : WordSize} (h : z.W = z'.W) : z = z' := by
  obtain ⟨m, _⟩ := z
  obtain ⟨m', _⟩ := z'
  simp only [W] at h
  obtain rfl : m = m' := by omega
  rfl

namespace Config

/-- The bounds of R5 are met by the word sizes of the model and by nothing else. -/
theorem wordSizeOf_eq_some {w : Nat} {z : WordSize} : wordSizeOf w = some z ↔ legalW w ∧ z.W = w := by
  unfold wordSizeOf
  split_ifs with h
  · obtain ⟨m, _⟩ := z
    simp only [Option.some.injEq, WordSize.mk.injEq, WordSize.W]
    constructor
    · intro hm; exact ⟨h, by omega⟩
    · intro hm; omega
  · simp [h]

end Config

end Sys2Proof
end

