-- ==== Sys2Proof/Laws/Decode.lean ====
section
/-! SUPPORT. The operation word (30_encoding.md R81) as a number: what the encoder puts into it, and the fields that
the decoder reads from it. -/

namespace Sys2Proof

variable {z : WordSize}

/-- The number that the four fields make. -/
theorem opWord_number {op k1 k2 k3 : Nat} (h1 : k1 < 4) (h2 : k2 < 4) (h3 : k3 < 4) :
    op <<< 8 ||| k1 <<< 4 ||| k2 <<< 2 ||| k3 = op * 256 + k1 * 16 + k2 * 4 + k3 := by
  have e3 : k2 <<< 2 ||| k3 = k2 <<< 2 + k3 :=
    (Nat.shiftLeft_add_eq_or_of_lt (i := 2) h3 k2).symm
  have e2 : k1 <<< 4 ||| (k2 <<< 2 + k3) = k1 <<< 4 + (k2 <<< 2 + k3) :=
    (Nat.shiftLeft_add_eq_or_of_lt (i := 4) (by rw [Nat.shiftLeft_eq]; omega) k1).symm
  have e1 : op <<< 8 ||| (k1 <<< 4 + (k2 <<< 2 + k3)) = op <<< 8 + (k1 <<< 4 + (k2 <<< 2 + k3)) :=
    (Nat.shiftLeft_add_eq_or_of_lt (i := 8) (by simp only [Nat.shiftLeft_eq]; omega) op).symm
  rw [Nat.or_assoc, Nat.or_assoc, e3, e2, e1]
  simp only [Nat.shiftLeft_eq]
  omega

/-- An encoded operation word holds its fields and nothing else, at every word size. -/
theorem toNat_opWord {op k1 k2 k3 : Nat} (h : op < 256) (h1 : k1 < 4) (h2 : k2 < 4) (h3 : k3 < 4) :
    (opWord z op k1 k2 k3).toNat = op * 256 + k1 * 16 + k2 * 4 + k3 := by
  have hz := z.le_addressSpace
  rw [z.addressSpace_eq] at hz
  rw [opWord, opWord_number h1 h2 h3, BitVec.toNat_ofNat, Nat.mod_eq_of_lt (by omega)]

/-- The kind of a source is an immediate's or a register's (R87). -/
theorem Operand.kind_mem (a : Operand) : a.kind ∈ [1, 2] := by
  cases a <;> simp [Operand.kind]

theorem Operand.kind_lt (a : Operand) : a.kind < 4 := by
  cases a <;> simp [Operand.kind]

theorem opcodeOf_eq (w : Word z) : opcodeOf w = w.toNat / 256 := by
  simp [opcodeOf, Nat.shiftRight_eq_div_pow]

/-- Two bits of a word. -/
theorem toNat_extract_two (w : Word z) (j : Nat) : (w.extractLsb' j 2).toNat = w.toNat / 2 ^ j % 4 := by
  simp [BitVec.extractLsb', Nat.shiftRight_eq_div_pow]

theorem rsvdOf_eq_zero (w : Word z) : rsvdOf w = 0 ↔ w.toNat / 64 % 4 = 0 := by
  rw [rsvdOf, BitVec.toNat_eq, toNat_extract_two]; exact Iff.rfl

end Sys2Proof
end

