-- ==== Sys2Proof/Laws/State.lean ====
section
/-! SUPPORT. One lemma per field per update of the state, so that no proof unfolds an update. -/

namespace Sys2Proof.Machine

variable {z : WordSize} (s : Cpu z)

@[simp] theorem Cpu.setPc_pc (v : Word z) : (s.setPc v).pc = v := rfl
@[simp] theorem Cpu.setPc_sp (v : Word z) : (s.setPc v).sp = s.sp := rfl
@[simp] theorem Cpu.setPc_gp (v : Word z) : (s.setPc v).gp = s.gp := rfl
@[simp] theorem Cpu.setPc_cmp (v : Word z) : (s.setPc v).cmp = s.cmp := rfl
@[simp] theorem Cpu.setPc_overflow (v : Word z) : (s.setPc v).overflow = s.overflow := rfl
@[simp] theorem Cpu.setPc_halt (v : Word z) : (s.setPc v).halt = s.halt := rfl
@[simp] theorem Cpu.setPc_mem (v : Word z) : (s.setPc v).mem = s.mem := rfl
@[simp] theorem Cpu.setPc_refused (v : Word z) : (s.setPc v).refused = s.refused := rfl
@[simp] theorem Cpu.setPc_draws (v : Word z) : (s.setPc v).draws = s.draws := rfl

@[simp] theorem Cpu.setSp_pc (v : Word z) : (s.setSp v).pc = s.pc := rfl
@[simp] theorem Cpu.setSp_sp (v : Word z) : (s.setSp v).sp = v := rfl
@[simp] theorem Cpu.setSp_gp (v : Word z) : (s.setSp v).gp = s.gp := rfl
@[simp] theorem Cpu.setSp_cmp (v : Word z) : (s.setSp v).cmp = s.cmp := rfl
@[simp] theorem Cpu.setSp_overflow (v : Word z) : (s.setSp v).overflow = s.overflow := rfl
@[simp] theorem Cpu.setSp_halt (v : Word z) : (s.setSp v).halt = s.halt := rfl
@[simp] theorem Cpu.setSp_mem (v : Word z) : (s.setSp v).mem = s.mem := rfl
@[simp] theorem Cpu.setSp_refused (v : Word z) : (s.setSp v).refused = s.refused := rfl
@[simp] theorem Cpu.setSp_draws (v : Word z) : (s.setSp v).draws = s.draws := rfl

@[simp] theorem Cpu.setGp_pc (k : Nat) (v : Word z) : (s.setGp k v).pc = s.pc := rfl
@[simp] theorem Cpu.setGp_sp (k : Nat) (v : Word z) : (s.setGp k v).sp = s.sp := rfl
@[simp] theorem Cpu.setGp_gp (k : Nat) (v : Word z) : (s.setGp k v).gp = s.gp.set k ⟨v, true⟩ := rfl
@[simp] theorem Cpu.setGp_cmp (k : Nat) (v : Word z) : (s.setGp k v).cmp = s.cmp := rfl
@[simp] theorem Cpu.setGp_overflow (k : Nat) (v : Word z) : (s.setGp k v).overflow = s.overflow := rfl
@[simp] theorem Cpu.setGp_halt (k : Nat) (v : Word z) : (s.setGp k v).halt = s.halt := rfl
@[simp] theorem Cpu.setGp_mem (k : Nat) (v : Word z) : (s.setGp k v).mem = s.mem := rfl
@[simp] theorem Cpu.setGp_refused (k : Nat) (v : Word z) : (s.setGp k v).refused = s.refused := rfl
@[simp] theorem Cpu.setGp_draws (k : Nat) (v : Word z) : (s.setGp k v).draws = s.draws := rfl

@[simp] theorem Cpu.setCmp_pc (b : Bool) : (s.setCmp b).pc = s.pc := rfl
@[simp] theorem Cpu.setCmp_sp (b : Bool) : (s.setCmp b).sp = s.sp := rfl
@[simp] theorem Cpu.setCmp_gp (b : Bool) : (s.setCmp b).gp = s.gp := rfl
@[simp] theorem Cpu.setCmp_cmp (b : Bool) : (s.setCmp b).cmp = ⟨b, true⟩ := rfl
@[simp] theorem Cpu.setCmp_overflow (b : Bool) : (s.setCmp b).overflow = s.overflow := rfl
@[simp] theorem Cpu.setCmp_halt (b : Bool) : (s.setCmp b).halt = s.halt := rfl
@[simp] theorem Cpu.setCmp_mem (b : Bool) : (s.setCmp b).mem = s.mem := rfl
@[simp] theorem Cpu.setCmp_refused (b : Bool) : (s.setCmp b).refused = s.refused := rfl
@[simp] theorem Cpu.setCmp_draws (b : Bool) : (s.setCmp b).draws = s.draws := rfl

@[simp] theorem Cpu.setOverflow_pc (b : Bool) : (s.setOverflow b).pc = s.pc := rfl
@[simp] theorem Cpu.setOverflow_sp (b : Bool) : (s.setOverflow b).sp = s.sp := rfl
@[simp] theorem Cpu.setOverflow_gp (b : Bool) : (s.setOverflow b).gp = s.gp := rfl
@[simp] theorem Cpu.setOverflow_cmp (b : Bool) : (s.setOverflow b).cmp = s.cmp := rfl
@[simp] theorem Cpu.setOverflow_overflow (b : Bool) : (s.setOverflow b).overflow = ⟨b, true⟩ := rfl
@[simp] theorem Cpu.setOverflow_halt (b : Bool) : (s.setOverflow b).halt = s.halt := rfl
@[simp] theorem Cpu.setOverflow_mem (b : Bool) : (s.setOverflow b).mem = s.mem := rfl
@[simp] theorem Cpu.setOverflow_refused (b : Bool) : (s.setOverflow b).refused = s.refused := rfl
@[simp] theorem Cpu.setOverflow_draws (b : Bool) : (s.setOverflow b).draws = s.draws := rfl

@[simp] theorem Cpu.setHalt_pc (b : Bool) : (s.setHalt b).pc = s.pc := rfl
@[simp] theorem Cpu.setHalt_sp (b : Bool) : (s.setHalt b).sp = s.sp := rfl
@[simp] theorem Cpu.setHalt_gp (b : Bool) : (s.setHalt b).gp = s.gp := rfl
@[simp] theorem Cpu.setHalt_cmp (b : Bool) : (s.setHalt b).cmp = s.cmp := rfl
@[simp] theorem Cpu.setHalt_overflow (b : Bool) : (s.setHalt b).overflow = s.overflow := rfl
@[simp] theorem Cpu.setHalt_halt (b : Bool) : (s.setHalt b).halt = b := rfl
@[simp] theorem Cpu.setHalt_mem (b : Bool) : (s.setHalt b).mem = s.mem := rfl
@[simp] theorem Cpu.setHalt_refused (b : Bool) : (s.setHalt b).refused = s.refused := rfl
@[simp] theorem Cpu.setHalt_draws (b : Bool) : (s.setHalt b).draws = s.draws := rfl

@[simp] theorem Cpu.setMem_pc (m : Memory) : (s.setMem m).pc = s.pc := rfl
@[simp] theorem Cpu.setMem_sp (m : Memory) : (s.setMem m).sp = s.sp := rfl
@[simp] theorem Cpu.setMem_gp (m : Memory) : (s.setMem m).gp = s.gp := rfl
@[simp] theorem Cpu.setMem_cmp (m : Memory) : (s.setMem m).cmp = s.cmp := rfl
@[simp] theorem Cpu.setMem_overflow (m : Memory) : (s.setMem m).overflow = s.overflow := rfl
@[simp] theorem Cpu.setMem_halt (m : Memory) : (s.setMem m).halt = s.halt := rfl
@[simp] theorem Cpu.setMem_mem (m : Memory) : (s.setMem m).mem = m := rfl
@[simp] theorem Cpu.setMem_refused (m : Memory) : (s.setMem m).refused = s.refused := rfl
@[simp] theorem Cpu.setMem_draws (m : Memory) : (s.setMem m).draws = s.draws := rfl

@[simp] theorem Cpu.tick_pc : (s.tick).pc = s.pc := rfl
@[simp] theorem Cpu.tick_sp : (s.tick).sp = s.sp := rfl
@[simp] theorem Cpu.tick_gp : (s.tick).gp = s.gp := rfl
@[simp] theorem Cpu.tick_cmp : (s.tick).cmp = s.cmp := rfl
@[simp] theorem Cpu.tick_overflow : (s.tick).overflow = s.overflow := rfl
@[simp] theorem Cpu.tick_halt : (s.tick).halt = s.halt := rfl
@[simp] theorem Cpu.tick_mem : (s.tick).mem = s.mem := rfl
@[simp] theorem Cpu.tick_refused : (s.tick).refused = s.refused := rfl
@[simp] theorem Cpu.tick_draws : (s.tick).draws = s.draws + 1 := rfl

@[simp] theorem Cpu.advance_pc : s.advance.pc = s.pc + BitVec.ofNat z.W z.IB := rfl
@[simp] theorem Cpu.advance_sp : s.advance.sp = s.sp := rfl
@[simp] theorem Cpu.advance_gp : s.advance.gp = s.gp := rfl
@[simp] theorem Cpu.advance_cmp : s.advance.cmp = s.cmp := rfl
@[simp] theorem Cpu.advance_overflow : s.advance.overflow = s.overflow := rfl
@[simp] theorem Cpu.advance_halt : s.advance.halt = s.halt := rfl
@[simp] theorem Cpu.advance_mem : s.advance.mem = s.mem := rfl
@[simp] theorem Cpu.advance_refused : s.advance.refused = s.refused := rfl
@[simp] theorem Cpu.advance_draws : s.advance.draws = s.draws := rfl

@[simp] theorem Cpu.setGp_numGp (k : Nat) (v : Word z) : (s.setGp k v).numGp = s.numGp := by
  simp [Cpu.numGp]

/-- The machine that a state holds after an instruction is the meaning's, of the same word size. -/
theorem State.on_next {f : Cpu z → CpuResult z} {u : State} :
    (State.mk z s).on f = .next u ↔ ∃ t, f s = .next t ∧ u = ⟨z, t⟩ := by
  simp only [State.on]
  cases f s <;> simp [eq_comm]

theorem State.on_fault {f : Cpu z → CpuResult z} {e : Fault} :
    (State.mk z s).on f = .fault e ↔ f s = .fault e := by
  simp only [State.on]
  cases f s <;> simp

theorem State.on_refused {f : Cpu z → CpuResult z} {r : Refusal} :
    (State.mk z s).on f = .refused r ↔ f s = .refused r := by
  simp only [State.on]
  cases f s <;> simp

@[simp] theorem State.advance_mk : (State.mk z s).advance = ⟨z, s.advance⟩ := rfl

/-- A written register reads back what was written, with a value. -/
theorem Cpu.getElem?_setGp_self (k : Nat) (v : Word z) (h : k < s.numGp) :
    (s.setGp k v).gp[k]? = some ⟨v, true⟩ := by
  simp only [setGp_gp]; exact List.getElem?_set_self h

/-- Writing one register leaves every other as it was (R20). -/
theorem Cpu.getElem?_setGp_ne (k j : Nat) (v : Word z) (h : k ≠ j) :
    (s.setGp k v).gp[j]? = s.gp[j]? := by
  simp only [setGp_gp]; exact List.getElem?_set_ne h

end Sys2Proof.Machine

namespace Sys2Proof.Safety

open Machine

variable {z : WordSize} (s : Cpu z)

@[simp] theorem put_pc (d : WReg) (v : Word z) : (put s d v).pc = s.pc := by cases d <;> rfl
@[simp] theorem put_cmp (d : WReg) (v : Word z) : (put s d v).cmp = s.cmp := by cases d <;> rfl
@[simp] theorem put_overflow (d : WReg) (v : Word z) : (put s d v).overflow = s.overflow := by cases d <;> rfl
@[simp] theorem put_halt (d : WReg) (v : Word z) : (put s d v).halt = s.halt := by cases d <;> rfl
@[simp] theorem put_mem (d : WReg) (v : Word z) : (put s d v).mem = s.mem := by cases d <;> rfl
@[simp] theorem put_refused (d : WReg) (v : Word z) : (put s d v).refused = s.refused := by cases d <;> rfl
@[simp] theorem put_draws (d : WReg) (v : Word z) : (put s d v).draws = s.draws := by cases d <;> rfl

theorem put_sp (v : Word z) : put s .sp v = s.setSp v := rfl
theorem put_gp (k : Nat) (v : Word z) : put s (.gp k) v = s.setGp k v := rfl

@[simp] theorem put_numGp (d : WReg) (v : Word z) : (put s d v).numGp = s.numGp := by
  cases d <;> simp [put, Cpu.numGp]

end Sys2Proof.Safety
end

