-- ==== Sys2Proof/Laws/Memory.lean ====
section
/-! SUPPORT. Memory as an array of bytes (20_memory.md R51, R71): what a byte reads as after a store, and
that every memory operation keeps the canonical form. -/

namespace Sys2Proof.Machine

open Config

variable {z : WordSize}

/-! ## One byte -/

theorem Memory.wfFrom_cons (low k : Nat) (b : Byte) (m : Memory) :
    Memory.wfFrom z low ((k, b) :: m) = true ↔
      low ≤ k ∧ k < z.addressSpace ∧ b ≠ unlistedByte ∧ Memory.wfFrom z (k + 1) m = true := by
  simp [Memory.wfFrom, Bool.and_eq_true, and_assoc]

/-- A smaller lower bound is met too. -/
theorem Memory.wfFrom_mono {low low' : Nat} {m : Memory} (h : low' ≤ low)
    (hm : Memory.wfFrom z low m = true) : Memory.wfFrom z low' m = true := by
  cases m with
  | nil => rfl
  | cons c m =>
    obtain ⟨k, b⟩ := c
    rw [Memory.wfFrom_cons] at hm ⊢
    exact ⟨h.trans hm.1, hm.2⟩

/-- An address below every listed one reads as an unlisted address does. -/
theorem Memory.byteAt_of_lt {low a : Nat} {m : Memory} (hm : Memory.wfFrom z low m = true)
    (h : a < low) : m.byteAt a = unlistedByte := by
  induction m generalizing low with
  | nil => rfl
  | cons c m ih =>
    obtain ⟨k, b⟩ := c
    rw [Memory.wfFrom_cons] at hm
    have hk : k ≠ a := by omega
    simpa [Memory.byteAt, hk] using ih hm.2.2.2 (by omega)

theorem Memory.wfFrom_setByte {low a : Nat} {m : Memory} (v : Byte)
    (hm : Memory.wfFrom z low m = true) (hl : low ≤ a) (ha : a < z.addressSpace) :
    Memory.wfFrom z low (m.setByte a v) = true := by
  induction m generalizing low with
  | nil =>
    by_cases hv : v = unlistedByte
    · simp [Memory.setByte, hv, Memory.wfFrom]
    · simp only [Memory.setByte, if_neg hv, Memory.wfFrom_cons]
      exact ⟨hl, ha, hv, rfl⟩
  | cons c m ih =>
    obtain ⟨k, b⟩ := c
    have hm' := hm
    rw [Memory.wfFrom_cons] at hm'
    obtain ⟨h1, h2, h3, h4⟩ := hm'
    unfold Memory.setByte
    split_ifs with hlt hv heq hv
    · exact hm
    · simp only [Memory.wfFrom_cons]
      exact ⟨hl, ha, hv, by omega, h2, h3, h4⟩
    · exact Memory.wfFrom_mono (by omega) h4
    · simp only [Memory.wfFrom_cons]
      exact ⟨hl, ha, hv, heq ▸ h4⟩
    · rw [Memory.wfFrom_cons]
      exact ⟨h1, h2, h3, ih h4 (by omega)⟩

/-- Storing one byte keeps the canonical form. -/
theorem Memory.wf_setByte {a : Nat} {m : Memory} (v : Byte) (hm : m.wf z = true)
    (ha : a < z.addressSpace) : (m.setByte a v).wf z = true :=
  Memory.wfFrom_setByte v hm (Nat.zero_le a) ha

@[simp] theorem Memory.byteAt_nil (c : Nat) : Memory.byteAt [] c = unlistedByte := rfl

theorem Memory.byteAt_cons (k c : Nat) (b : Byte) (m : Memory) :
    Memory.byteAt ((k, b) :: m) c = if k = c then b else Memory.byteAt m c := rfl

theorem Memory.byteAt_setByte_from {low : Nat} {m : Memory} (a c : Nat) (v : Byte)
    (hm : Memory.wfFrom z low m = true) :
    (m.setByte a v).byteAt c = if c = a then v else m.byteAt c := by
  induction m generalizing low with
  | nil =>
    by_cases hc : c = a
    · by_cases hv : v = unlistedByte <;> simp [Memory.setByte, hv, hc, Memory.byteAt_cons]
    · by_cases hv : v = unlistedByte <;> simp [Memory.setByte, hv, hc, Memory.byteAt_cons, Ne.symm hc]
  | cons p m ih =>
    obtain ⟨k, b⟩ := p
    have hbelow : ∀ x, x < k → Memory.byteAt ((k, b) :: m) x = unlistedByte := fun x hx =>
      Memory.byteAt_of_lt (low := k)
        ((Memory.wfFrom_cons ..).2 ⟨le_rfl, ((Memory.wfFrom_cons ..).1 hm).2⟩) hx
    have habove : Memory.wfFrom z (k + 1) m = true := ((Memory.wfFrom_cons ..).1 hm).2.2.2
    unfold Memory.setByte
    by_cases hlt : a < k
    · by_cases hc : c = a
      · by_cases hv : v = unlistedByte
        · simp only [hlt, hc, hv, if_true]; exact hbelow a hlt
        · simp [hlt, hc, hv, Memory.byteAt_cons]
      · by_cases hv : v = unlistedByte
        · simp [hlt, hc, hv]
        · simp [hlt, hc, hv, Memory.byteAt_cons a, Ne.symm hc]
    · by_cases heq : a = k
      · subst heq
        by_cases hc : c = a
        · by_cases hv : v = unlistedByte
          · simp only [hc, hv, lt_irrefl, if_false, if_true]
            exact Memory.byteAt_of_lt habove (Nat.lt_succ_self a)
          · simp [hc, hv, Memory.byteAt_cons]
        · by_cases hv : v = unlistedByte <;> simp [hc, hv, Memory.byteAt_cons, Ne.symm hc]
      · by_cases hc : c = a
        · subst hc
          simp [hlt, heq, Memory.byteAt_cons, Ne.symm heq, ih habove]
        · simp [hlt, heq, hc, Memory.byteAt_cons, ih habove]

/-- A byte reads as what was stored there, every other byte as before (R65). -/
theorem Memory.byteAt_setByte {m : Memory} (a c : Nat) (v : Byte) (hm : m.wf z = true) :
    (m.setByte a v).byteAt c = if c = a then v else m.byteAt c :=
  Memory.byteAt_setByte_from a c v hm

/-! ## Several bytes -/

/-- Storing bytes keeps the canonical form. -/
theorem Memory.wf_setBytes {m : Memory} (bs : List Byte) {a : Nat} (hm : m.wf z = true)
    (ha : a + bs.length ≤ z.addressSpace) : (m.setBytes a bs).wf z = true := by
  induction bs generalizing m a with
  | nil => exact hm
  | cons b bs ih =>
    simp only [List.length_cons] at ha
    exact ih (Memory.wf_setByte b hm (by omega)) (by omega)

/-- The bytes stored, each at its address, and every other byte as before (R58, R71). -/
theorem Memory.byteAt_setBytes {m : Memory} (bs : List Byte) {a : Nat} (c : Nat) (hm : m.wf z = true)
    (ha : a + bs.length ≤ z.addressSpace) :
    (m.setBytes a bs).byteAt c =
      if a ≤ c ∧ c < a + bs.length then bs.getD (c - a) 0 else m.byteAt c := by
  induction bs generalizing m a with
  | nil =>
    have : ¬(a ≤ c ∧ c < a + 0) := by omega
    simp only [List.length_nil, if_neg this]; rfl
  | cons b bs ih =>
    simp only [List.length_cons] at ha ⊢
    rw [show Memory.setBytes m a (b :: bs) = (m.setByte a b).setBytes (a + 1) bs from rfl,
      ih (Memory.wf_setByte b hm (by omega)) (by omega), Memory.byteAt_setByte a c b hm]
    by_cases hlo : a + 1 ≤ c ∧ c < a + 1 + bs.length
    · rw [if_pos hlo, if_pos (by omega), show c - a = (c - (a + 1)) + 1 by omega]
      simp
    · rw [if_neg hlo]
      by_cases hc : c = a
      · rw [if_pos hc, if_pos (by omega), show c - a = 0 by omega]; simp
      · rw [if_neg hc, if_neg (by omega)]

@[simp] theorem Memory.length_bytesAt (m : Memory) (a n : Nat) : (m.bytesAt a n).length = n := by
  induction n generalizing a with
  | zero => rfl
  | succ n ih => simp [Memory.bytesAt, ih]

theorem Memory.getElem?_bytesAt (m : Memory) (a n i : Nat) (h : i < n) :
    (m.bytesAt a n)[i]? = some (m.byteAt (a + i)) := by
  induction n generalizing a i with
  | zero => omega
  | succ n ih =>
    cases i with
    | zero => simp [Memory.bytesAt]
    | succ i =>
      simp only [Memory.bytesAt, List.getElem?_cons_succ, ih (a + 1) i (by omega)]
      congr 2; omega

/-! ## One word -/

@[simp] theorem length_wordBytes (w : Word z) : (wordBytes w).length = z.WB := by
  simp only [wordBytes, List.length_map, List.length_range]

theorem getElem?_wordBytes (w : Word z) (i : Nat) (h : i < z.WB) :
    (wordBytes w)[i]? = some (wordByte w i) := by
  simp only [wordBytes, List.getElem?_map, List.getElem?_range h, Option.map_some]

/-- Bit `i` of the word that bytes make is bit `i % 8` of byte `i / 8` (R56). -/
theorem getLsbD_wordOfBytes (bs : List Byte) (i : Nat) (hi : i < z.W) :
    (wordOfBytes z bs).getLsbD i = (bs.getD (i / 8) 0).getLsbD (i % 8) := by
  induction bs generalizing i with
  | nil => simp [wordOfBytes]
  | cons b bs ih =>
    simp only [wordOfBytes, BitVec.getLsbD_or, BitVec.getLsbD_shiftLeft, BitVec.getLsbD_setWidth]
    by_cases h : i < 8
    · simp [h, hi, Nat.div_eq_of_lt h, Nat.mod_eq_of_lt h]
    · have hb : b.getLsbD i = false := BitVec.getLsbD_of_ge b i (by omega)
      rw [hb, ih (i - 8) (by omega), show i / 8 = (i - 8) / 8 + 1 by omega,
        show i % 8 = (i - 8) % 8 by omega]
      simp [h, hi]

/-- The bytes of a word make the word (R56). -/
theorem wordOfBytes_wordBytes (w : Word z) : wordOfBytes z (wordBytes w) = w := by
  apply BitVec.eq_of_getLsbD_eq
  intro i hi
  have h : i / 8 < z.WB := by rw [z.W_eq] at hi; omega
  rw [getLsbD_wordOfBytes _ _ hi, List.getD_eq_getElem?_getD, getElem?_wordBytes _ _ h, Option.getD_some,
    wordByte, BitVec.getLsbD_extractLsb', decide_eq_true (Nat.mod_lt i (by decide)), Bool.true_and,
    Nat.div_add_mod]

/-- Storing a word keeps the canonical form. -/
theorem Memory.wf_setWord {m : Memory} {a : Nat} (v : Word z) (hm : m.wf z = true)
    (ha : a + z.WB ≤ z.addressSpace) : (m.setWord a v).wf z = true :=
  Memory.wf_setBytes _ hm (by rw [length_wordBytes]; exact ha)

/-- The bytes of a stored word, the least significant at the lowest address, and every other byte as
before (R56, R58). -/
theorem Memory.byteAt_setWord {m : Memory} {a : Nat} (v : Word z) (c : Nat) (hm : m.wf z = true)
    (ha : a + z.WB ≤ z.addressSpace) :
    (m.setWord a v).byteAt c =
      if a ≤ c ∧ c < a + z.WB then wordByte v (c - a) else m.byteAt c := by
  unfold Memory.setWord
  rw [Memory.byteAt_setBytes _ c hm (by rw [length_wordBytes]; exact ha), length_wordBytes]
  split_ifs with h
  · rw [List.getD_eq_getElem?_getD, getElem?_wordBytes v _ (by omega), Option.getD_some]
  · rfl

/-! ## Placing bytes -/

/-- Placing a byte changes memory and nothing else. -/
theorem Cpu.placeByte_eq (s : Cpu z) (a : Nat) (b : Byte) :
    s.placeByte a b = s.setMem (s.placeByte a b).mem := by
  unfold placeByte
  split_ifs <;> rfl

/-- Placing bytes changes memory and nothing else. -/
theorem Cpu.place_eq (bs : List Byte) (s : Cpu z) (a : Nat) :
    s.place a bs = s.setMem (s.place a bs).mem := by
  induction bs generalizing s a with
  | nil => rfl
  | cons b bs ih =>
    rw [place, ih, placeByte_eq]
    rfl

/-- Placing a byte keeps the canonical form. -/
theorem wf_placeByte {s : Cpu z} (a : Nat) (b : Byte) (hm : s.mem.wf z = true) :
    (s.placeByte a b).mem.wf z = true := by
  unfold Cpu.placeByte
  split_ifs with h
  · exact Memory.wf_setByte b hm h
  · exact hm

/-- Placing bytes keeps the canonical form. -/
theorem wf_place (bs : List Byte) {s : Cpu z} (a : Nat) (hm : s.mem.wf z = true) :
    (s.place a bs).mem.wf z = true := by
  induction bs generalizing s a with
  | nil => exact hm
  | cons b bs ih => exact ih (a + 1) (wf_placeByte a b hm)

/-- The memory at start-up has the canonical form. -/
theorem wf_start (n : Nat) (r : List Region) : (Cpu.start z n r).mem.wf z = true := rfl

end Sys2Proof.Machine
end

