-- ==== Sys2Proof/Laws/Ops.lean ====
section
/-! SUPPORT. For each shared operation, one lemma that says everything it can do: what a proof cites
instead of unfolding it. -/

namespace Sys2Proof.Machine

open Config Safety

variable {z : WordSize}

/-! ## Accesses -/

theorem firstRefused_none {s : Cpu z} {a n : Nat} :
    s.firstRefused a n = none ↔ allRam s a n := by
  induction n generalizing a with
  | zero => simp [Cpu.firstRefused, allRam]
  | succ n ih =>
    unfold Cpu.firstRefused
    constructor
    · intro h i hi
      split_ifs at h with h0
      cases i with
      | zero => cases hm : s.mapped a <;> simp_all
      | succ i => rw [show a + (i + 1) = a + 1 + i by omega]; exact ih.1 h i (by omega)
    · intro h
      have h0 : s.mapped a = .ram := h 0 (by omega)
      rw [h0, if_neg (by decide)]
      exact ih.2 fun i hi => by rw [show a + 1 + i = a + (i + 1) by omega]; exact h (i + 1) (by omega)

/-- An access has no fault exactly where its bytes exist and are all `ram` (R57, R58). -/
theorem accessFault_none {s : Cpu z} {a : Word z} : s.accessFault a = none ↔ accessible s a := by
  unfold Cpu.accessFault accessible
  by_cases h : z.addressSpace < a.toNat + z.WB
  · rw [if_pos h]; exact ⟨nofun, fun h' => absurd h'.1 (by omega)⟩
  · rw [if_neg h, ← firstRefused_none]
    cases s.firstRefused a.toNat z.WB with
    | none => simp; omega
    | some x => simp

/-- `MemRead` (R57). -/
theorem memRead_ok {s : Cpu z} {a v : Word z} :
    memRead s a = .ok v ↔ accessible s a ∧ v = s.mem.wordAt z a.toNat := by
  unfold memRead
  rw [← accessFault_none]
  cases s.accessFault a <;> simp [eq_comm]

/-- `MemWrite` (R58). -/
theorem memWrite_ok {s t : Cpu z} {a v : Word z} :
    memWrite s a v = .ok t ↔ accessible s a ∧ t = s.setMem (s.mem.setWord a.toNat v) := by
  unfold memWrite
  rw [← accessFault_none]
  cases s.accessFault a <;> simp [eq_comm]

/-- The mapping of an address depends on `refused` alone. -/
theorem mapped_congr {s t : Cpu z} (h : s.refused = t.refused) (a : Nat) :
    s.mapped a = t.mapped a := by
  simp only [Cpu.mapped, h]

/-! ## Operands -/

/-- `src(i)` (R95). -/
theorem readOperand_ok {s : Cpu z} {a : Operand} {v : Word z} :
    readOperand s a = .ok v ↔
      (∃ n, a = .imm n ∧ v = BitVec.ofNat z.W n) ∨ (a = .reg .pc ∧ v = s.pc) ∨ (a = .reg .sp ∧ v = s.sp) ∨
        ∃ k r, a = .reg (.gp k) ∧ s.gp[k]? = some r ∧ v = r.value := by
  cases a with
  | imm n => simp [readOperand, eq_comm]
  | reg r =>
    cases r with
    | pc => simp [readOperand, readReg, eq_comm]
    | sp => simp [readOperand, readReg, eq_comm]
    | gp k =>
      simp only [readOperand, readReg]
      cases h : s.gp[k]? <;> simp [h, eq_comm]

/-- A well-formed source can be read. -/
theorem readOperand_of_wf {s : Cpu z} {a : Operand} (h : a.wf z s.numGp = true) :
    ∃ v, readOperand s a = .ok v := by
  cases a with
  | imm n => exact ⟨_, rfl⟩
  | reg r =>
    cases r with
    | pc => exact ⟨_, rfl⟩
    | sp => exact ⟨_, rfl⟩
    | gp k =>
      have hk : k < s.gp.length := of_decide_eq_true h
      exact ⟨s.gp[k].value, by simp [readOperand, readReg, List.getElem?_eq_getElem hk]⟩

/-- `dst(i) <- v` (R96). -/
theorem writeDst_ok {s t : Cpu z} {d : WReg} {v : Word z} :
    writeDst s d v = .ok t ↔ accepts s d v ∧ t = put s d v := by
  cases d with
  | sp =>
    by_cases h : v.toNat % z.WB = 0
    · simp only [writeDst, accepts, put_sp, h, ne_eq, not_true, if_false, true_and, Except.ok.injEq]
      exact eq_comm
    · simp [writeDst, accepts, h]
  | gp k =>
    by_cases h : k < s.numGp
    · have h' : k < s.gp.length := h
      simp only [writeDst, accepts, put_gp, h, h', if_true, true_and, Except.ok.injEq]
      exact eq_comm
    · have h' : ¬k < s.gp.length := h
      simp [writeDst, accepts, h, h']

/-! ## The forms of the meanings -/

theorem withVal_next {α : Type} {r : Except Fault α} {go : α → CpuResult z} {t : Cpu z} :
    withVal r go = .next t ↔ ∃ v, r = .ok v ∧ go v = .next t := by
  cases r <;> simp [withVal]

theorem withSrc_next {s t : Cpu z} {a : Operand} {go : Word z → CpuResult z} :
    withSrc s a go = .next t ↔ ∃ v, readOperand s a = .ok v ∧ go v = .next t :=
  withVal_next

/-- Shape `D,S,S` without a flag. -/
theorem binary_next {f : Word z → Word z → Word z} {d : WReg} {a b : Operand} {s t : Cpu z} :
    binary f d a b s = .next t ↔
      ∃ x y, readOperand s a = .ok x ∧ readOperand s b = .ok y ∧ accepts s d (f x y) ∧
        t = put s d (f x y) := by
  simp only [binary, withSrc_next, withVal_next, writeDst_ok, Host.Outcome.next.injEq]
  constructor
  · rintro ⟨x, hx, y, hy, _, ⟨hacc, rfl⟩, rfl⟩; exact ⟨x, y, hx, hy, hacc, rfl⟩
  · rintro ⟨x, y, hx, hy, hacc, rfl⟩; exact ⟨x, hx, y, hy, _, ⟨hacc, rfl⟩, rfl⟩

/-- Shape `D,S,S` that also writes `status.overflow`. -/
theorem binaryFlag_next {f : Word z → Word z → Word z} {g : Word z → Word z → Bool} {d : WReg}
    {a b : Operand} {s t : Cpu z} :
    binaryFlag f g d a b s = .next t ↔
      ∃ x y, readOperand s a = .ok x ∧ readOperand s b = .ok y ∧ accepts s d (f x y) ∧
        t = (put s d (f x y)).setOverflow (g x y) := by
  simp only [binaryFlag, withSrc_next, withVal_next, writeDst_ok, Host.Outcome.next.injEq]
  constructor
  · rintro ⟨x, hx, y, hy, _, ⟨hacc, rfl⟩, rfl⟩; exact ⟨x, y, hx, hy, hacc, rfl⟩
  · rintro ⟨x, y, hx, hy, hacc, rfl⟩; exact ⟨x, hx, y, hy, _, ⟨hacc, rfl⟩, rfl⟩

/-- A division or remainder. -/
theorem dividing_next {f : Word z → Word z → Word z} {g : Word z → Bool} {d : WReg} {a b : Operand}
    {s t : Cpu z} :
    dividing f g d a b s = .next t ↔
      ∃ x y, readOperand s a = .ok x ∧ readOperand s b = .ok y ∧
        ((y.toNat = 0 ∧ accepts s d s.anyW ∧ t = (put s.tick d s.anyW).setOverflow (g y)) ∨
          (y.toNat ≠ 0 ∧ accepts s d (f x y) ∧ t = (put s d (f x y)).setOverflow (g y))) := by
  have hacc : ∀ v, accepts s.tick d v ↔ accepts s d v := fun v => by cases d <;> rfl
  simp only [dividing, withSrc_next]
  constructor
  · rintro ⟨x, hx, y, hy, h⟩
    refine ⟨x, y, hx, hy, ?_⟩
    split_ifs at h with h0
    · simp only [withVal_next, writeDst_ok, hacc, Host.Outcome.next.injEq] at h
      obtain ⟨_, ⟨h1, rfl⟩, rfl⟩ := h; exact .inl ⟨h0, h1, rfl⟩
    · simp only [withVal_next, writeDst_ok, Host.Outcome.next.injEq] at h
      obtain ⟨_, ⟨h1, rfl⟩, rfl⟩ := h; exact .inr ⟨h0, h1, rfl⟩
  · rintro ⟨x, y, hx, hy, ⟨h0, h1, rfl⟩ | ⟨h0, h1, rfl⟩⟩
    · exact ⟨x, hx, y, hy, by
        rw [if_pos h0]; exact withVal_next.2 ⟨_, writeDst_ok.2 ⟨(hacc _).2 h1, rfl⟩, rfl⟩⟩
    · exact ⟨x, hx, y, hy, by
        rw [if_neg h0]; exact withVal_next.2 ⟨_, writeDst_ok.2 ⟨h1, rfl⟩, rfl⟩⟩

/-- Shape `D,S`. -/
theorem unary_next {f : Word z → Word z} {d : WReg} {a : Operand} {s t : Cpu z} :
    unary f d a s = .next t ↔
      ∃ x, readOperand s a = .ok x ∧ accepts s d (f x) ∧ t = put s d (f x) := by
  simp only [unary, withSrc_next, withVal_next, writeDst_ok, Host.Outcome.next.injEq]
  constructor
  · rintro ⟨x, hx, _, ⟨hacc, rfl⟩, rfl⟩; exact ⟨x, hx, hacc, rfl⟩
  · rintro ⟨x, hx, hacc, rfl⟩; exact ⟨x, hx, _, ⟨hacc, rfl⟩, rfl⟩

/-- A shift. -/
theorem shifting_next {f : Word z → Nat → Word z} {d : WReg} {a b : Operand} {s t : Cpu z} :
    shifting f d a b s = .next t ↔
      ∃ x n, readOperand s a = .ok x ∧ readOperand s b = .ok n ∧ n.toNat ≤ z.W ∧
        accepts s d (f x n.toNat) ∧ t = put s d (f x n.toNat) := by
  simp only [shifting, withSrc_next]
  constructor
  · rintro ⟨x, hx, n, hn, h⟩
    split_ifs at h with h0
    simp only [withVal_next, writeDst_ok, Host.Outcome.next.injEq] at h
    obtain ⟨_, ⟨h1, rfl⟩, rfl⟩ := h
    exact ⟨x, n, hx, hn, not_lt.1 h0, h1, rfl⟩
  · rintro ⟨x, n, hx, hn, h0, h1, rfl⟩
    exact ⟨x, hx, n, hn, by
      rw [if_neg (not_lt.2 h0)]; exact withVal_next.2 ⟨_, writeDst_ok.2 ⟨h1, rfl⟩, rfl⟩⟩

/-- A compare. -/
theorem comparing_next {p : Word z → Word z → Bool} {a b : Operand} {s t : Cpu z} :
    comparing p a b s = .next t ↔
      ∃ x y, readOperand s a = .ok x ∧ readOperand s b = .ok y ∧ t = s.setCmp (p x y) := by
  simp only [comparing, withSrc_next, Host.Outcome.next.injEq]
  constructor
  · rintro ⟨x, hx, y, hy, rfl⟩; exact ⟨x, y, hx, hy, rfl⟩
  · rintro ⟨x, y, hx, hy, rfl⟩; exact ⟨x, hx, y, hy, rfl⟩

/-- A relative branch. -/
theorem branchBy_next {s t : Cpu z} {off : Word z} :
    branchBy s off = .next t ↔
      0 ≤ (s.pc.toNat : Int) + off.toInt ∧ (s.pc.toNat : Int) + off.toInt < z.addressSpace ∧
        t = s.setPc (BitVec.ofInt z.W (s.pc.toNat + off.toInt)) := by
  simp only [branchBy]
  split_ifs with h
  · constructor
    · exact nofun
    · rintro ⟨h1, h2, -⟩; omega
  · simp only [Host.Outcome.next.injEq]
    constructor
    · rintro rfl; exact ⟨by omega, by omega, rfl⟩
    · rintro ⟨-, -, rfl⟩; rfl

/-- `load`. -/
theorem loading_next {d : WReg} {a : Operand} {s t : Cpu z} :
    loading d a s = .next t ↔
      ∃ x, readOperand s a = .ok x ∧ accessible s x ∧ accepts s d (s.mem.wordAt z x.toNat) ∧
        t = put s d (s.mem.wordAt z x.toNat) := by
  simp only [loading, withSrc_next, withVal_next, writeDst_ok, memRead_ok, Host.Outcome.next.injEq]
  constructor
  · rintro ⟨x, hx, _, ⟨h1, rfl⟩, _, ⟨h2, rfl⟩, rfl⟩; exact ⟨x, hx, h1, h2, rfl⟩
  · rintro ⟨x, hx, h1, h2, rfl⟩; exact ⟨x, hx, _, ⟨h1, rfl⟩, _, ⟨h2, rfl⟩, rfl⟩

/-- `store`. -/
theorem storing_next {a b : Operand} {s t : Cpu z} :
    storing a b s = .next t ↔
      ∃ x v, readOperand s a = .ok x ∧ readOperand s b = .ok v ∧ accessible s x ∧
        t = s.setMem (s.mem.setWord x.toNat v) := by
  simp only [storing, withSrc_next, withVal_next, memWrite_ok, Host.Outcome.next.injEq]
  constructor
  · rintro ⟨x, hx, v, hv, _, ⟨h1, rfl⟩, rfl⟩; exact ⟨x, v, hx, hv, h1, rfl⟩
  · rintro ⟨x, v, hx, hv, h1, rfl⟩; exact ⟨x, hx, v, hv, _, ⟨h1, rfl⟩, rfl⟩

/-- `push`. -/
theorem pushing_next {a : Operand} {s t : Cpu z} :
    pushing a s = .next t ↔
      ∃ v, readOperand s a = .ok v ∧ z.WB ≤ s.sp.toNat ∧ accessible s (pushAddress s) ∧
        t = (s.setMem (s.mem.setWord (pushAddress s).toNat v)).setSp (pushAddress s) := by
  simp only [pushing, withSrc_next]
  constructor
  · rintro ⟨v, hv, h⟩
    split_ifs at h with h0
    simp only [withVal_next, memWrite_ok, Host.Outcome.next.injEq] at h
    obtain ⟨_, ⟨h1, rfl⟩, rfl⟩ := h
    exact ⟨v, hv, not_lt.1 h0, h1, rfl⟩
  · rintro ⟨v, hv, h0, h1, rfl⟩
    exact ⟨v, hv, by
      rw [if_neg (not_lt.2 h0)]; exact withVal_next.2 ⟨_, memWrite_ok.2 ⟨h1, rfl⟩, rfl⟩⟩

/-- `pop`. -/
theorem popping_next {d : WReg} {s t : Cpu z} :
    popping d s = .next t ↔
      accessible s s.sp ∧ accepts s d (s.mem.wordAt z s.sp.toNat) ∧
        (popBase d (s.mem.wordAt z s.sp.toNat) s).toNat + z.WB < z.addressSpace ∧
        t = (put s d (s.mem.wordAt z s.sp.toNat)).setSp
          (popBase d (s.mem.wordAt z s.sp.toNat) s + BitVec.ofNat z.W z.WB) := by
  simp only [popping, withVal_next, memRead_ok]
  constructor
  · rintro ⟨v, ⟨h0, rfl⟩, h⟩
    split_ifs at h with h1 h2
    simp only [withVal_next, writeDst_ok, Host.Outcome.next.injEq] at h
    obtain ⟨_, ⟨h3, rfl⟩, rfl⟩ := h
    exact ⟨h0, h3, not_le.1 h2, rfl⟩
  · rintro ⟨h0, h1, h2, rfl⟩
    refine ⟨_, ⟨h0, rfl⟩, ?_⟩
    rw [if_neg (by rintro ⟨rfl, h⟩; exact h h1), if_neg (not_le.2 h2)]
    exact withVal_next.2 ⟨_, writeDst_ok.2 ⟨h1, rfl⟩, rfl⟩

/-- `brcond`. -/
theorem branchingIf_next {a : Operand} {s t : Cpu z} :
    branchingIf a s = .next t ↔
      ∃ off, readOperand s a = .ok off ∧
        ((s.cmp.value = true ∧ branchBy s off = .next t) ∨ (s.cmp.value = false ∧ t = s)) := by
  simp only [branchingIf, withSrc_next]
  cases s.cmp.value <;> simp [eq_comm]

/-! ## Fetch and step -/

/-- The instruction at `%pc` (R31, R32, R61). -/
theorem fetchInstr_ok {s : Cpu z} {i : Instr} :
    fetchInstr s = .ok i ↔
      s.pc.toNat + z.IB < z.addressSpace ∧
        ∃ ws, fetchWords s s.pc = .ok ws ∧ decode s.numGp ws = .ok i := by
  unfold fetchInstr
  split_ifs with h
  · simp; omega
  · cases hf : fetchWords s s.pc with
    | error f => simp
    | ok ws =>
      cases hd : decode s.numGp ws with
      | error e => simp [hd]
      | ok j => simp [hd]; omega

/-- Everything a step can do when it answers a next state (R31). -/
theorem step_next {s : Cpu z} {u : State} :
    step ⟨z, s⟩ = .next u ↔
      (s.halt = true ∧ u = ⟨z, s⟩) ∨
        (s.halt = false ∧ ∃ i, fetchInstr s = .ok i ∧ exec i ⟨z, s.advance⟩ = .next u) := by
  unfold step
  cases hh : s.halt
  · cases hf : fetchInstr s <;> simp
  · simp [eq_comm]

end Sys2Proof.Machine
end

