-- ==== Sys2Proof/Laws/PerInstr.lean ====
section
/-! SUPPORT. Statements about the instructions as syntax, one lemma per constructor. -/

namespace Sys2Proof.Laws

open Safety

/-- The number of a legal operation word (30_encoding.md R87, 95_test_vectors.md 3.2). -/
abbrev legalNumber (n : Nat) : Prop := n % 256 ∈ legalLowBytes (n / 256)

/-- At every word size the operation word of an encoded instruction is one of the legal ones of its opcode. -/
def OperationWord.Statement (i : Instr) : Prop := ∀ z : WordSize, legalNumber (encode z i).w0.toNat

/-- An operation word with legal fields is legal at every word size. -/
theorem legalNumber_opWord {op k1 k2 k3 : Nat} (h : op < 256) (h1 : k1 < 4) (h2 : k2 < 4) (h3 : k3 < 4)
    (hl : legalNumber (op * 256 + k1 * 16 + k2 * 4 + k3)) (z : WordSize) :
    legalNumber (opWord z op k1 k2 k3).toNat := by
  rwa [toNat_opWord h h1 h2 h3]

/-- Shape `D,S,S`. -/
theorem legalNumber_encDSS {op : Nat} (h : op < 256)
    (hl : ∀ k2 ∈ [1, 2], ∀ k3 ∈ [1, 2], legalNumber (op * 256 + 2 * 16 + k2 * 4 + k3))
    (d : WReg) (a b : Operand) (z : WordSize) : legalNumber (encDSS z op d a b).w0.toNat :=
  legalNumber_opWord h (by decide) a.kind_lt b.kind_lt
    (hl _ a.kind_mem _ b.kind_mem) z

/-- Shape `D,S`. -/
theorem legalNumber_encDS {op : Nat} (h : op < 256)
    (hl : ∀ k2 ∈ [1, 2], legalNumber (op * 256 + 2 * 16 + k2 * 4 + 0))
    (d : WReg) (a : Operand) (z : WordSize) : legalNumber (encDS z op d a).w0.toNat :=
  legalNumber_opWord h (by decide) a.kind_lt (by decide) (hl _ a.kind_mem) z

/-- Shape `S,S`. -/
theorem legalNumber_encSS {op : Nat} (h : op < 256)
    (hl : ∀ k1 ∈ [1, 2], ∀ k2 ∈ [1, 2], legalNumber (op * 256 + k1 * 16 + k2 * 4 + 0))
    (a b : Operand) (z : WordSize) : legalNumber (encSS z op a b).w0.toNat :=
  legalNumber_opWord h a.kind_lt b.kind_lt (by decide)
    (hl _ a.kind_mem _ b.kind_mem) z

/-- Shape `S`. -/
theorem legalNumber_encS {op : Nat} (h : op < 256)
    (hl : ∀ k1 ∈ [1, 2], legalNumber (op * 256 + k1 * 16 + 0 * 4 + 0))
    (a : Operand) (z : WordSize) : legalNumber (encS z op a).w0.toNat :=
  legalNumber_opWord h a.kind_lt (by decide) (by decide) (hl _ a.kind_mem) z

theorem OperationWord.add (d : WReg) (a b : Operand) : OperationWord.Statement (.add d a b) :=
  legalNumber_encDSS (by decide) (by decide) d a b

theorem OperationWord.sub (d : WReg) (a b : Operand) : OperationWord.Statement (.sub d a b) :=
  legalNumber_encDSS (by decide) (by decide) d a b

theorem OperationWord.mul (d : WReg) (a b : Operand) : OperationWord.Statement (.mul d a b) :=
  legalNumber_encDSS (by decide) (by decide) d a b

theorem OperationWord.mulhss (d : WReg) (a b : Operand) : OperationWord.Statement (.mulhss d a b) :=
  legalNumber_encDSS (by decide) (by decide) d a b

theorem OperationWord.mulhsu (d : WReg) (a b : Operand) : OperationWord.Statement (.mulhsu d a b) :=
  legalNumber_encDSS (by decide) (by decide) d a b

theorem OperationWord.mulhuu (d : WReg) (a b : Operand) : OperationWord.Statement (.mulhuu d a b) :=
  legalNumber_encDSS (by decide) (by decide) d a b

theorem OperationWord.divss (d : WReg) (a b : Operand) : OperationWord.Statement (.divss d a b) :=
  legalNumber_encDSS (by decide) (by decide) d a b

theorem OperationWord.divuu (d : WReg) (a b : Operand) : OperationWord.Statement (.divuu d a b) :=
  legalNumber_encDSS (by decide) (by decide) d a b

theorem OperationWord.remss (d : WReg) (a b : Operand) : OperationWord.Statement (.remss d a b) :=
  legalNumber_encDSS (by decide) (by decide) d a b

theorem OperationWord.remuu (d : WReg) (a b : Operand) : OperationWord.Statement (.remuu d a b) :=
  legalNumber_encDSS (by decide) (by decide) d a b

theorem OperationWord.and (d : WReg) (a b : Operand) : OperationWord.Statement (.and d a b) :=
  legalNumber_encDSS (by decide) (by decide) d a b

theorem OperationWord.or (d : WReg) (a b : Operand) : OperationWord.Statement (.or d a b) :=
  legalNumber_encDSS (by decide) (by decide) d a b

theorem OperationWord.xor (d : WReg) (a b : Operand) : OperationWord.Statement (.xor d a b) :=
  legalNumber_encDSS (by decide) (by decide) d a b

theorem OperationWord.not (d : WReg) (a : Operand) : OperationWord.Statement (.not d a) :=
  legalNumber_encDS (by decide) (by decide) d a

theorem OperationWord.lsl (d : WReg) (a b : Operand) : OperationWord.Statement (.lsl d a b) :=
  legalNumber_encDSS (by decide) (by decide) d a b

theorem OperationWord.rsl (d : WReg) (a b : Operand) : OperationWord.Statement (.rsl d a b) :=
  legalNumber_encDSS (by decide) (by decide) d a b

theorem OperationWord.mov (d : WReg) (a : Operand) : OperationWord.Statement (.mov d a) :=
  legalNumber_encDS (by decide) (by decide) d a

theorem OperationWord.load (d : WReg) (a : Operand) : OperationWord.Statement (.load d a) :=
  legalNumber_encDS (by decide) (by decide) d a

theorem OperationWord.store (a b : Operand) : OperationWord.Statement (.store a b) :=
  legalNumber_encSS (by decide) (by decide) a b

theorem OperationWord.cmpeq (a b : Operand) : OperationWord.Statement (.cmpeq a b) :=
  legalNumber_encSS (by decide) (by decide) a b

theorem OperationWord.cmpltu (a b : Operand) : OperationWord.Statement (.cmpltu a b) :=
  legalNumber_encSS (by decide) (by decide) a b

theorem OperationWord.cmplts (a b : Operand) : OperationWord.Statement (.cmplts a b) :=
  legalNumber_encSS (by decide) (by decide) a b

theorem OperationWord.push (a : Operand) : OperationWord.Statement (.push a) :=
  legalNumber_encS (by decide) (by decide) a

theorem OperationWord.pop (d : WReg) : OperationWord.Statement (.pop d) :=
  fun z => legalNumber_opWord (k1 := 2) (k2 := 0) (k3 := 0) (by decide) (by decide) (by decide) (by decide)
    (by decide) z

theorem OperationWord.jmp (a : Operand) : OperationWord.Statement (.jmp a) :=
  legalNumber_encS (by decide) (by decide) a

theorem OperationWord.br (a : Operand) : OperationWord.Statement (.br a) :=
  legalNumber_encS (by decide) (by decide) a

theorem OperationWord.brcond (a : Operand) : OperationWord.Statement (.brcond a) :=
  legalNumber_encS (by decide) (by decide) a

theorem OperationWord.halt : OperationWord.Statement (.halt) :=
  fun z => legalNumber_opWord (k1 := 0) (k2 := 0) (k3 := 0) (by decide) (by decide) (by decide) (by decide)
    (by decide) z

end Sys2Proof.Laws
end

