-- ==== Sys2Proof/Laws/Session.lean ====
section
/-! SUPPORT. What the parts of a simulation can do. -/

namespace Sys2Proof.Machine

variable {z : WordSize}

/-- Several actions after several others. -/
theorem Session.hostAll_append (c : Session) (as bs : List HostAction) :
    c.hostAll (as ++ bs) = (c.hostAll as).bind (·.hostAll bs) := by
  induction as generalizing c with
  | nil => rfl
  | cons a as ih =>
    simp only [List.cons_append, hostAll]
    cases c.host a with
    | none => rfl
    | some d => exact ih d

/-- A load of bytes that all exist is accepted before `Start`, and places them. -/
theorem Session.hostAll_loadActions (bs : List Byte) (s : Cpu z) (a : Nat)
    (h : a + bs.length ≤ z.addressSpace) :
    (Session.loading ⟨z, s⟩).hostAll (loadActions a bs) = some (.loading ⟨z, s.place a bs⟩) := by
  induction bs generalizing s a with
  | nil => rfl
  | cons b bs ih =>
    simp only [List.length_cons] at h
    simp only [loadActions, hostAll, host, if_pos (show a < z.addressSpace by omega)]
    exact ih _ _ (by omega)

/-- A simulation before `Start` was before `Start` a step earlier: no step returns to the phase of loading. -/
theorem Session.proceed_eq_loading {c : Session} {s : State} : c.proceed = .loading s ↔ c = .loading s := by
  cases c with
  | running t =>
    simp only [proceed]
    cases step t with
    | next u => dsimp only; split_ifs <;> simp
    | fault f => simp
    | refused r => simp
  | _ => simp [proceed]

/-- An ended simulation stays as it is. -/
theorem Session.run_halted (n : Nat) (s : State) : (Session.halted s).run n = .halted s := by
  induction n with
  | zero => rfl
  | succ n ih => exact ih

theorem Session.run_faulted (n : Nat) (f : Fault) (s : State) :
    (Session.faulted f s).run n = .faulted f s := by
  induction n with
  | zero => rfl
  | succ n ih => exact ih

end Sys2Proof.Machine
end

