-- ==== Sys2Proof/Tests/Slice0.lean ====
section
/-! SUPPORT. Tests: the checks of WellFormed, written-out words and what they decode to, one or two steps for
each instruction, and for every obligation with hypotheses a witness that meets them. Expected results are the
spec's own (95_test_vectors.md), at the reference configuration unless a name says otherwise; where that file has
no row, they are computed by hand from the rule that the comment names. -/

namespace Sys2Proof.Tests

open Config Machine Safety

/-! ## Helpers -/

/-- A running machine of 8 registers, with some registers written, `%sp`, some bytes of memory, and `%pc`. -/
def st (gps : List (Nat × Nat)) (sp : Nat := 0) (mem : List (Nat × List Byte) := []) (z : WordSize := resetSize)
    (pc : Nat := 0x110) : Cpu z :=
  mem.foldl (fun s m => s.place m.1 m.2)
    ((gps.foldl (fun s g => s.setGp g.1 (BitVec.ofNat z.W g.2)) ((Cpu.start z 8 []).setHalt false)).setPc
      (BitVec.ofNat z.W pc) |>.setSp (BitVec.ofNat z.W sp))

/-- What is asked of the next state. -/
def nx {α : Type} (r : Result) (f : State → α) : Option α :=
  match r with
  | .next t => some (f t)
  | _ => none

/-- The fault of an outcome. -/
def flt (r : Result) : Option Fault :=
  match r with
  | .fault f => some f
  | _ => none

/-- The value of `%gpk`, if it has one. -/
def gpv (t : State) (k : Nat) : Option Nat :=
  match t.cpu.gp[k]? with
  | some r => if r.written then some r.value.toNat else none
  | none => none

/-- `%pc` and `%sp`. -/
def pcv (t : State) : Nat := t.cpu.pc.toNat
def spv (t : State) : Nat := t.cpu.sp.toNat

/-- The value of a flag, if it has one. -/
def fv (f : Flag) : Option Bool := if f.written then some f.value else none

/-- A register as a source. -/
def g (k : Nat) : Operand := .reg (.gp k)

/-! ## WellFormed (R88 V6, R85): each check refuses an ill-formed term -/

theorem test_wf_accepts : (Instr.add (.gp 7) (g 7) (.imm 0xFFFFFFFF)).wf resetSize 8 = true := by decide
theorem test_wf_accepts_halt : Instr.halt.wf size16 1 = true := by decide
theorem test_wf_accepts_special : (Instr.mov .sp (.reg .pc)).wf size24 1 = true := by decide
theorem test_wf_refuses_dst : (WReg.gp 8).wf 8 = false := by decide
theorem test_wf_refuses_rreg : (RReg.gp 8).wf 8 = false := by decide
theorem test_wf_refuses_operand : (g 1).wf resetSize 1 = false := by decide
theorem test_wf_refuses_immediate : (Operand.imm 0x10000).wf size16 8 = false ∧
    (Operand.imm 0x10000).wf size24 8 = true := by decide

theorem test_wf_refuses_three_operands :
    (([.add (.gp 8) (g 0) (g 0), .add (.gp 0) (g 8) (g 0), .add (.gp 0) (g 0) (g 8),
        .sub (.gp 8) (g 0) (g 0), .sub (.gp 0) (g 8) (g 0), .sub (.gp 0) (g 0) (g 8),
        .mul (.gp 8) (g 0) (g 0), .mul (.gp 0) (g 8) (g 0), .mul (.gp 0) (g 0) (g 8)] : List Instr) ++
      ([.mulhss (.gp 8) (g 0) (g 0), .mulhss (.gp 0) (g 8) (g 0), .mulhss (.gp 0) (g 0) (g 8),
          .mulhsu (.gp 8) (g 0) (g 0), .mulhsu (.gp 0) (g 8) (g 0), .mulhsu (.gp 0) (g 0) (g 8),
          .mulhuu (.gp 8) (g 0) (g 0), .mulhuu (.gp 0) (g 8) (g 0), .mulhuu (.gp 0) (g 0) (g 8)]
          : List Instr) ++
      ([.divss (.gp 8) (g 0) (g 0), .divss (.gp 0) (g 8) (g 0), .divss (.gp 0) (g 0) (g 8),
          .divuu (.gp 8) (g 0) (g 0), .divuu (.gp 0) (g 8) (g 0), .divuu (.gp 0) (g 0) (g 8),
          .remss (.gp 8) (g 0) (g 0), .remss (.gp 0) (g 8) (g 0), .remss (.gp 0) (g 0) (g 8)]
          : List Instr) ++
      ([.remuu (.gp 8) (g 0) (g 0), .remuu (.gp 0) (g 8) (g 0), .remuu (.gp 0) (g 0) (g 8),
          .and (.gp 8) (g 0) (g 0), .and (.gp 0) (g 8) (g 0), .and (.gp 0) (g 0) (g 8),
          .or (.gp 8) (g 0) (g 0), .or (.gp 0) (g 8) (g 0), .or (.gp 0) (g 0) (g 8)] : List Instr) ++
      ([.xor (.gp 8) (g 0) (g 0), .xor (.gp 0) (g 8) (g 0), .xor (.gp 0) (g 0) (g 8),
          .lsl (.gp 8) (g 0) (g 0), .lsl (.gp 0) (g 8) (g 0), .lsl (.gp 0) (g 0) (g 8),
          .rsl (.gp 8) (g 0) (g 0), .rsl (.gp 0) (g 8) (g 0), .rsl (.gp 0) (g 0) (g 8)]
          : List Instr)).all (fun i => !i.wf resetSize 8) = true := by decide
theorem test_wf_refuses_destination_and_source :
    (([.not (.gp 8) (g 0), .not (.gp 0) (g 8), .mov (.gp 8) (g 0), .mov (.gp 0) (g 8), .load (.gp 8) (g 0),
        .load (.gp 0) (g 8)] : List Instr)).all (fun i => !i.wf resetSize 8) = true := by decide
theorem test_wf_refuses_two_sources :
    (([.store (g 8) (g 0), .store (g 0) (g 8), .cmpeq (g 8) (g 0), .cmpeq (g 0) (g 8), .cmpltu (g 8) (g 0),
        .cmpltu (g 0) (g 8), .cmplts (g 8) (g 0), .cmplts (g 0) (g 8)]
        : List Instr)).all (fun i => !i.wf resetSize 8) = true := by decide
theorem test_wf_refuses_one_source :
    (([.push (g 8), .jmp (g 8), .br (g 8), .brcond (g 8)] : List Instr)).all (fun i => !i.wf resetSize 8) =
        true := by decide
theorem test_wf_refuses_one_destination :
    (([.pop (.gp 8)] : List Instr)).all (fun i => !i.wf resetSize 8) = true := by decide

/-! ## Decoding: the words of 95_test_vectors.md 3.1, one for every instruction, and its encoding back -/

theorem test_decode_add : decode 8 (⟨0x00000129, 0x00000100, 0x00000101, 0x00000005⟩ : Words resetSize) =
    .ok (.add (.gp 0) (g 1) (.imm 5)) ∧
    encode resetSize (.add (.gp 0) (g 1) (.imm 5)) = ⟨0x00000129, 0x00000100, 0x00000101, 0x00000005⟩ :=
        by decide
theorem test_decode_sub : decode 8 (⟨0x00000229, 0x00000101, 0x00000101, 0x00000001⟩ : Words resetSize) =
    .ok (.sub (.gp 1) (g 1) (.imm 1)) ∧
    encode resetSize (.sub (.gp 1) (g 1) (.imm 1)) = ⟨0x00000229, 0x00000101, 0x00000101, 0x00000001⟩ :=
        by decide
theorem test_decode_mul : decode 8 (⟨0x0000032A, 0x00000102, 0x00000100, 0x00000101⟩ : Words resetSize) =
    .ok (.mul (.gp 2) (g 0) (g 1)) ∧
    encode resetSize (.mul (.gp 2) (g 0) (g 1)) = ⟨0x0000032A, 0x00000102, 0x00000100, 0x00000101⟩ := by decide
theorem test_decode_mulhss : decode 8 (⟨0x00000426, 0x00000103, 0xFFFFFFFD, 0x00000101⟩ : Words resetSize) =
    .ok (.mulhss (.gp 3) (.imm 0xFFFFFFFD) (g 1)) ∧
    encode resetSize (.mulhss (.gp 3) (.imm 0xFFFFFFFD) (g 1)) = ⟨0x00000426, 0x00000103, 0xFFFFFFFD,
        0x00000101⟩ := by decide
theorem test_decode_mulhsu : decode 8 (⟨0x0000052A, 0x00000103, 0x00000100, 0x00000101⟩ : Words resetSize) =
    .ok (.mulhsu (.gp 3) (g 0) (g 1)) ∧
    encode resetSize (.mulhsu (.gp 3) (g 0) (g 1)) = ⟨0x0000052A, 0x00000103, 0x00000100, 0x00000101⟩ :=
        by decide
theorem test_decode_mulhuu : decode 8 (⟨0x00000629, 0x00000103, 0x00000100, 0x00000009⟩ : Words resetSize) =
    .ok (.mulhuu (.gp 3) (g 0) (.imm 9)) ∧
    encode resetSize (.mulhuu (.gp 3) (g 0) (.imm 9)) = ⟨0x00000629, 0x00000103, 0x00000100, 0x00000009⟩ :=
        by decide
theorem test_decode_divss : decode 8 (⟨0x00000729, 0x00000104, 0x00000100, 0x00000002⟩ : Words resetSize) =
    .ok (.divss (.gp 4) (g 0) (.imm 2)) ∧
    encode resetSize (.divss (.gp 4) (g 0) (.imm 2)) = ⟨0x00000729, 0x00000104, 0x00000100, 0x00000002⟩ :=
        by decide
theorem test_decode_divuu : decode 8 (⟨0x00000829, 0x00000104, 0x00000100, 0x00000002⟩ : Words resetSize) =
    .ok (.divuu (.gp 4) (g 0) (.imm 2)) ∧
    encode resetSize (.divuu (.gp 4) (g 0) (.imm 2)) = ⟨0x00000829, 0x00000104, 0x00000100, 0x00000002⟩ :=
        by decide
theorem test_decode_remss : decode 8 (⟨0x00000929, 0x00000105, 0x00000100, 0xFFFFFFFE⟩ : Words resetSize) =
    .ok (.remss (.gp 5) (g 0) (.imm 0xFFFFFFFE)) ∧
    encode resetSize (.remss (.gp 5) (g 0) (.imm 0xFFFFFFFE)) = ⟨0x00000929, 0x00000105, 0x00000100,
        0xFFFFFFFE⟩ := by decide
theorem test_decode_remuu : decode 8 (⟨0x00000A26, 0x00000105, 0x00000064, 0x00000101⟩ : Words resetSize) =
    .ok (.remuu (.gp 5) (.imm 100) (g 1)) ∧
    encode resetSize (.remuu (.gp 5) (.imm 100) (g 1)) = ⟨0x00000A26, 0x00000105, 0x00000064, 0x00000101⟩ :=
        by decide
theorem test_decode_and : decode 8 (⟨0x00000B29, 0x00000106, 0x00000100, 0x000000FF⟩ : Words resetSize) =
    .ok (.and (.gp 6) (g 0) (.imm 255)) ∧
    encode resetSize (.and (.gp 6) (g 0) (.imm 255)) = ⟨0x00000B29, 0x00000106, 0x00000100, 0x000000FF⟩ :=
        by decide
theorem test_decode_or : decode 8 (⟨0x00000C2A, 0x00000106, 0x00000100, 0x00000002⟩ : Words resetSize) =
    .ok (.or (.gp 6) (g 0) (.reg .sp)) ∧
    encode resetSize (.or (.gp 6) (g 0) (.reg .sp)) = ⟨0x00000C2A, 0x00000106, 0x00000100, 0x00000002⟩ :=
        by decide
theorem test_decode_xor : decode 8 (⟨0x00000D29, 0x00000107, 0x00000107, 0xFFFFFFFF⟩ : Words resetSize) =
    .ok (.xor (.gp 7) (g 7) (.imm 0xFFFFFFFF)) ∧
    encode resetSize (.xor (.gp 7) (g 7) (.imm 0xFFFFFFFF)) = ⟨0x00000D29, 0x00000107, 0x00000107,
        0xFFFFFFFF⟩ := by decide
theorem test_decode_not : decode 8 (⟨0x00000E28, 0x00000100, 0x00000101, 0x00000000⟩ : Words resetSize) =
    .ok (.not (.gp 0) (g 1)) ∧
    encode resetSize (.not (.gp 0) (g 1)) = ⟨0x00000E28, 0x00000100, 0x00000101, 0x00000000⟩ := by decide
theorem test_decode_lsl : decode 8 (⟨0x00000F29, 0x00000100, 0x00000101, 0x00000004⟩ : Words resetSize) =
    .ok (.lsl (.gp 0) (g 1) (.imm 4)) ∧
    encode resetSize (.lsl (.gp 0) (g 1) (.imm 4)) = ⟨0x00000F29, 0x00000100, 0x00000101, 0x00000004⟩ :=
        by decide
theorem test_decode_rsl : decode 8 (⟨0x0000102A, 0x00000100, 0x00000101, 0x00000102⟩ : Words resetSize) =
    .ok (.rsl (.gp 0) (g 1) (g 2)) ∧
    encode resetSize (.rsl (.gp 0) (g 1) (g 2)) = ⟨0x0000102A, 0x00000100, 0x00000101, 0x00000102⟩ := by decide
theorem test_decode_mov : decode 8 (⟨0x00001124, 0x00000002, 0x00001000, 0x00000000⟩ : Words resetSize) =
    .ok (.mov .sp (.imm 4096)) ∧
    encode resetSize (.mov .sp (.imm 4096)) = ⟨0x00001124, 0x00000002, 0x00001000, 0x00000000⟩ := by decide
theorem test_decode_load : decode 8 (⟨0x00001228, 0x00000100, 0x00000002, 0x00000000⟩ : Words resetSize) =
    .ok (.load (.gp 0) (.reg .sp)) ∧
    encode resetSize (.load (.gp 0) (.reg .sp)) = ⟨0x00001228, 0x00000100, 0x00000002, 0x00000000⟩ := by decide
theorem test_decode_store : decode 8 (⟨0x00001328, 0x00000101, 0x00000100, 0x00000000⟩ : Words resetSize) =
    .ok (.store (g 1) (g 0)) ∧
    encode resetSize (.store (g 1) (g 0)) = ⟨0x00001328, 0x00000101, 0x00000100, 0x00000000⟩ := by decide
theorem test_decode_cmpeq : decode 8 (⟨0x00001424, 0x00000101, 0x00000000, 0x00000000⟩ : Words resetSize) =
    .ok (.cmpeq (g 1) (.imm 0)) ∧
    encode resetSize (.cmpeq (g 1) (.imm 0)) = ⟨0x00001424, 0x00000101, 0x00000000, 0x00000000⟩ := by decide
theorem test_decode_cmpltu : decode 8 (⟨0x00001518, 0x0000000A, 0x00000101, 0x00000000⟩ : Words resetSize) =
    .ok (.cmpltu (.imm 10) (g 1)) ∧
    encode resetSize (.cmpltu (.imm 10) (g 1)) = ⟨0x00001518, 0x0000000A, 0x00000101, 0x00000000⟩ := by decide
theorem test_decode_cmplts : decode 8 (⟨0x00001624, 0x00000100, 0xFFFFFFFF, 0x00000000⟩ : Words resetSize) =
    .ok (.cmplts (g 0) (.imm 0xFFFFFFFF)) ∧
    encode resetSize (.cmplts (g 0) (.imm 0xFFFFFFFF)) = ⟨0x00001624, 0x00000100, 0xFFFFFFFF, 0x00000000⟩ :=
        by decide
theorem test_decode_push : decode 8 (⟨0x00001720, 0x00000001, 0x00000000, 0x00000000⟩ : Words resetSize) =
    .ok (.push (.reg .pc)) ∧
    encode resetSize (.push (.reg .pc)) = ⟨0x00001720, 0x00000001, 0x00000000, 0x00000000⟩ := by decide
theorem test_decode_pop : decode 8 (⟨0x00001820, 0x00000107, 0x00000000, 0x00000000⟩ : Words resetSize) =
    .ok (.pop (.gp 7)) ∧
    encode resetSize (.pop (.gp 7)) = ⟨0x00001820, 0x00000107, 0x00000000, 0x00000000⟩ := by decide
theorem test_decode_jmp : decode 8 (⟨0x00001920, 0x00000106, 0x00000000, 0x00000000⟩ : Words resetSize) =
    .ok (.jmp (g 6)) ∧
    encode resetSize (.jmp (g 6)) = ⟨0x00001920, 0x00000106, 0x00000000, 0x00000000⟩ := by decide
theorem test_decode_br : decode 8 (⟨0x00001A10, 0xFFFFFFB0, 0x00000000, 0x00000000⟩ : Words resetSize) =
    .ok (.br (.imm 0xFFFFFFB0)) ∧
    encode resetSize (.br (.imm 0xFFFFFFB0)) = ⟨0x00001A10, 0xFFFFFFB0, 0x00000000, 0x00000000⟩ := by decide
theorem test_decode_brcond : decode 8 (⟨0x00001B10, 0x00000010, 0x00000000, 0x00000000⟩ : Words resetSize) =
    .ok (.brcond (.imm 16)) ∧
    encode resetSize (.brcond (.imm 16)) = ⟨0x00001B10, 0x00000010, 0x00000000, 0x00000000⟩ := by decide
theorem test_decode_halt : decode 8 (⟨0x00001C00, 0x00000000, 0x00000000, 0x00000000⟩ : Words resetSize) =
    .ok (.halt) ∧
    encode resetSize (.halt) = ⟨0x00001C00, 0x00000000, 0x00000000, 0x00000000⟩ := by decide

/-! ### Words that are no instruction (95_test_vectors.md 3.3, or by hand from R88) -/

theorem test_invalid_zero_words : decode 8 (⟨0x00000000, 0x00000000, 0x00000000, 0x00000000⟩
    : Words resetSize) = .error .unknownOpcode := by decide
theorem test_invalid_opcode_29 : decode 8 (⟨0x00001D00, 0x00000000, 0x00000000, 0x00000000⟩
    : Words resetSize) = .error .unknownOpcode := by decide
theorem test_invalid_reserved_bits : decode 8 (⟨0x000001A9, 0x00000100, 0x00000101, 0x00000005⟩
    : Words resetSize) = .error .reservedBits := by decide
theorem test_invalid_reserved_kind : decode 8 (⟨0x0000012B, 0x00000100, 0x00000101, 0x00000005⟩
    : Words resetSize) = .error .reservedKind := by decide
theorem test_invalid_immediate_destination : decode 8 (⟨0x00000119, 0x00000100, 0x00000101, 0x00000005⟩
    : Words resetSize) = .error .wrongShape := by decide
theorem test_invalid_operand_of_halt : decode 8 (⟨0x00001C20, 0x00000100, 0x00000000, 0x00000000⟩
    : Words resetSize) = .error .wrongShape := by decide
theorem test_invalid_unused_slot : decode 8 (⟨0x00001124, 0x00000100, 0x00000005, 0x00000007⟩
    : Words resetSize) = .error .unusedSlotNotZero := by decide
theorem test_invalid_gp8 : decode 8 (⟨0x00001124, 0x00000108, 0x00000005, 0x00000000⟩ : Words resetSize) =
    .error .noSuchRegister := by decide
theorem test_invalid_code_255 : decode 8 (⟨0x00001124, 0x000000FF, 0x00000005, 0x00000000⟩
    : Words resetSize) = .error .noSuchRegister := by decide
theorem test_invalid_status_source : decode 8 (⟨0x00001720, 0x00000003, 0x00000000, 0x00000000⟩
    : Words resetSize) = .error .notReadable := by decide
theorem test_invalid_pc_destination : decode 8 (⟨0x00001820, 0x00000001, 0x00000000, 0x00000000⟩
    : Words resetSize) = .error .notWritable := by decide
theorem test_invalid_status_destination : decode 8 (⟨0x00001124, 0x00000003, 0x00000005, 0x00000000⟩
    : Words resetSize) = .error .notWritable := by decide
theorem test_decode_too_short : decodeBytes resetSize 8 (List.replicate 15 0) = .error .tooShort := by decide
theorem test_decode_table_word :
    decodeTableWord 128 0x00000005000001010000010000000129 = some (.add (.gp 0) (g 1) (.imm 5)) ∧
    decodeTableWord 32 0x00001C00 = some .halt ∧ decodeTableWord 32 0x00000129 = none := by decide
theorem test_bytes : (encodeBytes resetSize (.add (.gp 0) (g 1) (.imm 5))).take 4 = [0x29, 0x01, 0x00,
    0x00] := by decide

/-! ## Meanings (95_test_vectors.md section 2): `%pc` is `next_pc`, `0x110` -/

theorem test_add_carries : nx (exec (.add (.gp 0) (g 1) (.imm 1)) ⟨_, st [(1, 0xFFFFFFFF)]⟩)
    (fun t => (gpv t 0, fv t.cpu.overflow)) = some (some 0, some true) := by decide
theorem test_add_no_signed_overflow : nx (exec (.add (.gp 0) (g 1) (.imm 1)) ⟨_, st [(1, 0x7FFFFFFF)]⟩)
    (fun t => (gpv t 0, fv t.cpu.overflow)) = some (some 0x80000000, some false) := by decide
theorem test_sub_borrows : nx (exec (.sub (.gp 0) (g 1) (.imm 7)) ⟨_, st [(1, 5)]⟩)
    (fun t => (gpv t 0, fv t.cpu.overflow)) = some (some 0xFFFFFFFE, some true) := by decide
theorem test_sub_no_signed_overflow : nx (exec (.sub (.gp 0) (g 1) (.imm 1)) ⟨_, st [(1, 0x80000000)]⟩)
    (fun t => (gpv t 0, fv t.cpu.overflow)) = some (some 0x7FFFFFFF, some false) := by decide
theorem test_mul_low : nx (exec (.mul (.gp 0) (.imm 100000) (.imm 100000)) ⟨_, st []⟩)
    (fun t => (gpv t 0, fv t.cpu.overflow)) = some (some 0x540BE400, none) := by decide
theorem test_mulhss_floor : nx (exec (.mulhss (.gp 0) (.imm 0xFFFFFFFD) (.imm 7)) ⟨_, st []⟩)
    (fun t => gpv t 0) = some (some 0xFFFFFFFF) := by decide
theorem test_mulhss_min : nx (exec (.mulhss (.gp 0) (g 1) (g 1)) ⟨_, st [(1, 0x80000000)]⟩)
    (fun t => gpv t 0) = some (some 0x40000000) := by decide
theorem test_mulhsu_first_signed : nx (exec (.mulhsu (.gp 0) (g 1) (g 2)) ⟨_, st [(1, 0x80000000), (2,
    0xFFFFFFFF)]⟩)
    (fun t => gpv t 0) = some (some 0x80000000) := by decide
theorem test_mulhsu_second_unsigned : nx (exec (.mulhsu (.gp 0) (g 1) (g 2)) ⟨_, st [(1, 1), (2, 0xFFFFFFFF)]⟩)
    (fun t => gpv t 0) = some (some 0) := by decide
theorem test_mulhuu : nx (exec (.mulhuu (.gp 0) (g 1) (g 1)) ⟨_, st [(1, 0xFFFFFFFF)]⟩)
    (fun t => gpv t 0) = some (some 0xFFFFFFFE) := by decide
theorem test_divss_toward_zero : nx (exec (.divss (.gp 0) (g 1) (.imm 2)) ⟨_, st [(1, 0xFFFFFFF9)]⟩)
    (fun t => (gpv t 0, fv t.cpu.overflow)) = some (some 0xFFFFFFFD, some true) := by decide
theorem test_divss_by_zero : nx (exec (.divss (.gp 0) (.imm 5) (.imm 0)) ⟨_, st []⟩)
    (fun t => (gpv t 0).isSome && fv t.cpu.overflow == some false && t.cpu.draws == 1) = some true := by decide
theorem test_divuu : nx (exec (.divuu (.gp 0) (g 1) (.imm 2)) ⟨_, st [(1, 0xFFFFFFF9)]⟩)
    (fun t => (gpv t 0, fv t.cpu.overflow)) = some (some 0x7FFFFFFC, some true) := by decide
theorem test_divuu_by_zero : nx (exec (.divuu (.gp 0) (.imm 3) (.imm 0)) ⟨_, st []⟩)
    (fun t => (gpv t 0).isSome && fv t.cpu.overflow == some false && t.cpu.draws == 1) = some true := by decide
theorem test_remss_sign_of_dividend : nx (exec (.remss (.gp 0) (.imm 7) (.imm 0xFFFFFFFE)) ⟨_, st []⟩)
    (fun t => (gpv t 0, fv t.cpu.overflow)) = some (some 1, some true) := by decide
theorem test_remss_min : nx (exec (.remss (.gp 0) (g 1) (.imm 0xFFFFFFFF)) ⟨_, st [(1, 0x80000000)]⟩)
    (fun t => (gpv t 0, fv t.cpu.overflow)) = some (some 0, some true) := by decide
theorem test_remuu : nx (exec (.remuu (.gp 0) (.imm 100) (.imm 7)) ⟨_, st []⟩)
    (fun t => (gpv t 0, fv t.cpu.overflow)) = some (some 2, some true) := by decide
theorem test_remuu_by_zero : nx (exec (.remuu (.gp 0) (.imm 3) (.imm 0)) ⟨_, st []⟩)
    (fun t => (gpv t 0).isSome && fv t.cpu.overflow == some false && t.cpu.draws == 1) = some true := by decide
theorem test_and : nx (exec (.and (.gp 0) (g 1) (.imm 65535)) ⟨_, st [(1, 0xF0F0A5A5)]⟩)
    (fun t => gpv t 0) = some (some 0x0000A5A5) := by decide
theorem test_or : nx (exec (.or (.gp 0) (g 1) (.imm 255)) ⟨_, st [(1, 0xF0F00000)]⟩)
    (fun t => gpv t 0) = some (some 0xF0F000FF) := by decide
theorem test_xor : nx (exec (.xor (.gp 0) (g 1) (.imm 0xFFFFFFFF)) ⟨_, st [(1, 0x12345678)]⟩)
    (fun t => gpv t 0) = some (some 0xEDCBA987) := by decide
theorem test_not : nx (exec (.not (.gp 0) (g 1)) ⟨_, st [(1, 0x12345678)]⟩)
    (fun t => gpv t 0) = some (some 0xEDCBA987) := by decide
theorem test_lsl_by_width : nx (exec (.lsl (.gp 0) (g 1) (.imm 32)) ⟨_, st [(1, 0x80000001)]⟩)
    (fun t => gpv t 0) = some (some 0) := by decide
theorem test_lsl_illegal : flt (exec (.lsl (.gp 0) (g 1) (.imm 33)) ⟨_, st [(1, 0x80000001)]⟩) =
    some (.illegalShift 33) := by decide
theorem test_rsl : nx (exec (.rsl (.gp 0) (g 1) (.imm 4)) ⟨_, st [(1, 0x80000010)]⟩)
    (fun t => gpv t 0) = some (some 0x08000001) := by decide
theorem test_rsl_illegal : flt (exec (.rsl (.gp 0) (g 1) (.imm 33)) ⟨_, st [(1, 0x80000000)]⟩) =
    some (.illegalShift 33) := by decide
theorem test_mov_pc : nx (exec (.mov (.gp 0) (.reg .pc)) ⟨_, st []⟩)
    (fun t => gpv t 0) = some (some 0x110) := by decide
theorem test_mov_sp_misaligned : flt (exec (.mov .sp (.imm 6)) ⟨_, st []⟩) = some (.spMisaligned 6) := by decide
theorem test_load_unaligned : nx (exec (.load (.gp 0) (.imm 8193)) ⟨_, st [] 0 [(0x2000, [0x78, 0x56, 0x34,
    0x12, 0xEF])]⟩)
    (fun t => gpv t 0) = some (some 0xEF123456) := by decide
theorem test_load_wraps : flt (exec (.load (.gp 0) (.imm 0xFFFFFFFD)) ⟨_, st []⟩) =
    some (.addressWrap 0xFFFFFFFD) := by decide
theorem test_store_unaligned : nx (exec (.store (g 1) (g 0)) ⟨_, st [(0, 0xCAFEF00D), (1, 0x1003)]⟩)
    (fun t => t.cpu.mem) = some [(0x1003, 0x0D), (0x1004, 0xF0), (0x1005, 0xFE), (0x1006, 0xCA)] := by decide
theorem test_store_wraps : flt (exec (.store (.imm 0xFFFFFFFF) (.imm 0)) ⟨_, st []⟩) =
    some (.addressWrap 0xFFFFFFFF) := by decide
theorem test_push_sp_is_old : nx (exec (.push (.reg .sp)) ⟨_, st [] 0x1000⟩)
    (fun t => (spv t, t.cpu.mem)) = some (0xFFC, [(0xFFD, 0x10)]) := by decide
theorem test_push_underflow : flt (exec (.push (g 0)) ⟨_, st [(0, 1)] 0⟩) = some (.spWrap 0) := by decide
theorem test_pop : nx (exec (.pop (.gp 1)) ⟨_, st [] 0xFFC [(0xFFC, [0x0D, 0xF0, 0xFE, 0xCA])]⟩)
    (fun t => (spv t, gpv t 1)) = some (0x1000, some 0xCAFEF00D) := by decide
theorem test_pop_sp : nx (exec (.pop .sp) ⟨_, st [] 0xFFC [(0xFFC, [0x00, 0x20, 0x00, 0x00])]⟩)
    (fun t => spv t) = some 0x2004 := by decide
theorem test_cmpeq : nx (exec (.cmpeq (.imm 0xFFFFFFFF) (.imm 4294967295)) ⟨_, st []⟩)
    (fun t => (fv t.cpu.cmp, fv t.cpu.overflow)) = some (some true, none) := by decide
theorem test_cmpltu : nx (exec (.cmpltu (g 0) (g 1)) ⟨_, st [(0, 1), (1, 0xFFFFFFFF)]⟩)
    (fun t => fv t.cpu.cmp) = some (some true) := by decide
theorem test_cmplts : nx (exec (.cmplts (g 0) (g 1)) ⟨_, st [(0, 1), (1, 0xFFFFFFFF)]⟩)
    (fun t => fv t.cpu.cmp) = some (some false) := by decide
theorem test_jmp_any_word : nx (exec (.jmp (.imm 0xFFFFFFFF)) ⟨_, st []⟩)
    (fun t => pcv t) = some 0xFFFFFFFF := by decide
theorem test_br_to_zero : nx (exec (.br (.imm 0xFFFFFEF0)) ⟨_, st []⟩)
    (fun t => pcv t) = some 0 := by decide
theorem test_br_below_zero : flt (exec (.br (.imm 0xFFFFFEEF)) ⟨_, st []⟩) =
    some (.pcOverflow 0x100 (some (-273))) := by decide
theorem test_brcond_taken : nx (exec (.brcond (.imm 16)) ⟨_, (st []).setCmp true⟩)
    (fun t => pcv t) = some 0x120 := by decide
theorem test_brcond_not_taken : nx (exec (.brcond (.imm 0xFFFFFEEF)) ⟨_, (st []).setCmp false⟩)
    (fun t => pcv t) = some 0x110 := by decide
theorem test_halt : nx (exec (.halt) ⟨_, st []⟩)
    (fun t => (t.cpu.halt, pcv t)) = some (true, 0x110) := by decide

/-! ## The step (95_test_vectors.md 3.4, 70_reset_and_hazards.md) -/

/-- A machine with four words at an address, started there. -/
def at4 (a : Nat) (ws : Words resetSize) (refused : List Region := []) : Cpu resetSize :=
  (((Cpu.start resetSize 8 refused).place a ws.bytes).setHalt false).setPc (BitVec.ofNat resetSize.W a)

theorem test_step_halt_high : nx (step ⟨_, at4 0xFFFFFFEF ⟨0x1C00, 0, 0, 0⟩⟩)
    (fun t => (t.cpu.halt, pcv t)) = some (true, 0xFFFFFFFF) := by decide
theorem test_step_past_the_top : flt (step ⟨_, at4 0xFFFFFFF0 ⟨0x1C00, 0, 0, 0⟩⟩) =
    some (.pcOverflow 0xFFFFFFF0 none) := by decide
theorem test_step_unaligned : nx (step ⟨_, at4 0x101 ⟨0x1124, 0x100, 1, 0⟩⟩)
    (fun t => (gpv t 0, pcv t)) = some (some 1, 0x111) := by decide
theorem test_step_refused_load : flt (step ⟨_, at4 0x100 ⟨0x1224, 0x100, 0x2000, 0⟩ [⟨0x2002, 1⟩]⟩) =
    some (.accessRefused 0x2002) := by decide
theorem test_step_refused_fetch : flt (step ⟨_, at4 0x100 ⟨0, 0, 0, 0⟩ [⟨0x10C, 1⟩]⟩) =
    some (.accessRefused 0x10C) := by decide
theorem test_step_invalid : flt (step ⟨_, at4 0x100 ⟨0, 0, 0, 0⟩⟩) =
    some (.invalidInstruction .unknownOpcode) := by decide
theorem test_reset_is_halted : step State.reset = .next State.reset := rfl
theorem test_strict_unwritten : strictStep ⟨_, at4 0x100 ⟨0xD2A, 0x100, 0x100, 0x100⟩⟩ =
    .fault (.uninitialisedRead (.gp 0)) := rfl
/-- The model goes on with the value the register holds (log entry 5). -/
theorem test_unwritten_goes_on : nx (step ⟨_, at4 0x100 ⟨0xD2A, 0x100, 0x100, 0x100⟩⟩)
    (fun t => gpv t 0) = some (some 0) := by decide
/-- A store over the instruction that runs next (20_memory.md R67), by hand: `store 16u, 7168u` at 0 turns the words of
`jmp 0u` at 16 into those of `halt`. -/
theorem test_self_modifying : nx (step ⟨_, ((Cpu.start resetSize 8 []).place 0
      (encodeBytes resetSize (.store (.imm 16) (.imm 0x1C00)) ++
        encodeBytes resetSize (.jmp (.imm 0)))).setHalt false⟩)
    (fun t => nx (step t) (fun u => (u.cpu.halt, pcv u))) = some (some (true, 32)) := by decide

/-! ## The host (70_reset_and_hazards.md R253, R255, R256) -/

/-- The host loads a `halt` at 0 and starts the machine. -/
def loaded : List HostAction := loadActions 0 (encodeBytes resetSize .halt) ++ [.start]

theorem test_session_halts : (((Session.begin 32 8 []).bind (·.hostAll loaded)).bind (fun c => (c.run 3).result)).map
    (fun s => (s.cpu.halt, s.cpu.pc.toNat)) = some (true, 16) := by decide
theorem test_session_faults : (((Session.begin 32 8 []).bind (·.hostAll [.start])).bind
    (fun c => (c.run 3).faultReport)).map (·.1) = some (.invalidInstruction .unknownOpcode) := by decide
/-- A running machine is neither written to nor started, and an ended one neither (item 34). -/
theorem test_host_may_not : ((Session.begin 32 8 []).bind (·.hostAll (loaded ++ [.start]))) = none ∧
    ((Session.begin 32 8 []).bind (·.hostAll (loaded ++ [.writeByte 64 1]))) = none ∧
    (((Session.begin 32 8 []).bind (·.hostAll loaded)).bind (fun c => (c.run 1).host .start)) = none ∧
    (((Session.begin 32 8 []).bind (·.hostAll loaded)).bind (fun c => (c.run 1).host (.writeByte 0 1))) = none ∧
    ((Session.begin 16 8 []).bind (·.hostAll [.writeByte 0x10000 1])) = none := by decide

/-! ## Other word sizes (95_test_vectors.md 2.6, 00_scope.md R5) -/

theorem test_size_16 :
    nx (exec (.add (.gp 0) (g 1) (.imm 1)) ⟨_, st [(1, 0xFFFF)] 0 [] size16 0x108⟩)
      (fun t => (gpv t 0, fv t.cpu.overflow)) = some (some 0, some true) ∧
    nx (exec (.mulhuu (.gp 0) (.imm 300) (.imm 300)) ⟨_, st [] 0 [] size16 0x108⟩)
      (fun t => gpv t 0) = some (some 1) ∧
    flt (exec (.lsl (.gp 0) (.imm 1) (.imm 17)) ⟨_, st [] 0 [] size16 0x108⟩) = some (.illegalShift 17) ∧
    nx (exec (.push (g 0)) ⟨_, st [(0, 0xBEEF)] 0x200 [] size16 0x108⟩)
      (fun t => (spv t, t.cpu.mem)) = some (0x1FE, [(0x1FE, 0xEF), (0x1FF, 0xBE)]) ∧
    nx (exec (.br (.imm 0xFFF8)) ⟨_, st [] 0 [] size16 0x108⟩) pcv = some 0x100 := by decide

theorem test_size_24 :
    flt (exec (.mov .sp (.imm 4096)) ⟨_, st [] 0 [] size24 0x30C⟩) = some (.spMisaligned 4096) ∧
    nx (exec (.mov .sp (.imm 4095)) ⟨_, st [] 0 [] size24 0x30C⟩) spv = some 4095 ∧
    nx (exec (.push (g 0)) ⟨_, st [(0, 0xABCDEF)] 0xFFF [] size24 0x30C⟩)
      (fun t => (spv t, t.cpu.mem)) = some (0xFFC, [(0xFFC, 0xEF), (0xFFD, 0xCD), (0xFFE, 0xAB)]) ∧
    nx (exec (.pop (.gp 1)) ⟨_, st [] 0xFFFFFC [(0xFFFFFC, [1, 2, 3])] size24 0x30C⟩)
      (fun t => (spv t, gpv t 1)) = some (0xFFFFFF, some 0x030201) ∧
    flt (exec (.load (.gp 0) (.imm 0xFFFFFE)) ⟨_, st [] 0 [] size24 0x30C⟩) =
      some (.addressWrap 0xFFFFFE) := by decide

theorem test_decode_16 : decode 4 (⟨0x1124, 0x0103, 1, 0⟩ : Words size16) = .ok (.mov (.gp 3) (.imm 1)) ∧
    decode 4 (⟨0x1124, 0x0104, 1, 0⟩ : Words size16) = .error .noSuchRegister := by decide

theorem test_start_up : startUp 32 8 [] = some State.reset ∧ (startUp 24 1 []).isSome ∧
    startUp 12 8 [] = none ∧ startUp 8 8 [] = none ∧ startUp 32 0 [] = none ∧
    startUp 16 65280 [] ≠ none ∧ startUp 16 65281 [] = none := by
  refine ⟨rfl, rfl, rfl, rfl, rfl, ?_, rfl⟩
  simp [startUp, wordSizeOf, legalW, legalNumGp, WordSize.addressSpace, WordSize.W]

/-! ## Text (30_encoding.md R100 to R108) -/

theorem test_assemble : Assembly.assembleLine resetSize 8 "mulhss %gp3, -3s, %gp1 ; text".toList =
    some ⟨0x00000426, 0x00000103, 0xFFFFFFFD, 0x00000101⟩ := by decide
theorem test_literals : Assembly.signedWord resetSize "-2147483648s".toList = some 0x80000000 ∧
    Assembly.signedWord resetSize "2147483648s".toList = none ∧
    Assembly.unsignedWord resetSize "4294967295u".toList = some 0xFFFFFFFF ∧
    Assembly.hexNormal (0xABC : Word resetSize) = "0x00000abc".toList ∧ Assembly.signedNormal 0 =
        "+0s".toList := by decide
theorem test_status_word : statusWord .default 0 ((st []).setCmp true) = 1 := by decide

/-! ## Witnesses: for every obligation with hypotheses, a state and operands that meet them, clause by clause -/

/-- Eight registers: `%gp0 = 7`, `%gp1 = 0x80000000`, `%gp2 = 32`, `%gp3 = 33`, `%gp4 = 0`, `%sp = 0x1000`. -/
def ws : Cpu resetSize := st [(0, 7), (1, 0x80000000), (2, 32), (3, 33), (4, 0)] 0x1000

/-- The same with the bytes `0x2003 .. 0x2006` refused. -/
def wr : Cpu resetSize := { ws with refused := [⟨0x2003, 4⟩] }

/-- A destination of each kind that takes a value, and a value that `%sp` does not take. -/
theorem witness_destinations : accepts ws (.gp 7) 0xFFFFFFFF ∧ accepts ws .sp 0xFFFFFFFC ∧
    misaligned .sp (0xFFFFFFFD : Word resetSize) := ⟨by simp [accepts]; decide,
        by simp only [accepts]; decide, rfl, by decide⟩

theorem witness_allRam {z : WordSize} (s : Cpu z) (a n : Nat) (h : s.refused = []) : allRam s a n :=
    fun i _ => by
  simp [Cpu.mapped, h]

theorem witness_DecodeOfEncodeIsTheInstruction : legalNumGp resetSize 8 ∧
    (Instr.add (.gp 7) (g 0) (.imm 0xFFFFFFFF)).wf resetSize 8 = true ∧ legalNumGp resetSize (2 ^ 32 - 256) ∧
    (Instr.pop (.gp (2 ^ 32 - 257))).wf resetSize (2 ^ 32 - 256) = true ∧
    (encode resetSize (.pop (.gp (2 ^ 32 - 257)))).w1 = 0xFFFFFFFF := by decide

theorem witness_EncodeOfDecodeIsTheWords :
    decode 8 (⟨0x1C00, 0, 0, 0⟩ : Words resetSize) = .ok .halt ∧
    decode 8 (⟨0x1124, 2, 0xFFFFFFFF, 0⟩ : Words resetSize) = .ok (.mov .sp (.imm 0xFFFFFFFF)) := by decide

theorem witness_EachInstructionHasExactlyOneEncoding : legalNumGp resetSize 1 ∧
    decode 1 (⟨0x1820, 256, 0, 0⟩ : Words resetSize) = .ok (.pop (.gp 0)) ∧
        (Instr.pop (.gp 0)).wf resetSize 1 = true := by decide

theorem witness_BytesOfAnInstructionDecode : legalNumGp resetSize 1 ∧ (Instr.push (g 0)).wf resetSize 1 =
    true := by decide

theorem witness_StepRunsTheDecodedInstruction :
    let s := at4 0xFFFFFFEF ⟨0x1C00, 0, 0, 0⟩
    s.halt = false ∧ s.pc.toNat + resetSize.IB < resetSize.addressSpace ∧ allRam s s.pc.toNat resetSize.IB ∧
      decodeBytes resetSize s.numGp (s.mem.bytesAt s.pc.toNat resetSize.IB) = .ok (.halt, []) :=
  ⟨rfl, by decide, witness_allRam _ _ _ rfl, by decide⟩

theorem witness_InvalidInstructionFaults :
    let s := at4 0x100 ⟨0, 0, 0, 0⟩
    s.halt = false ∧ s.pc.toNat + resetSize.IB < resetSize.addressSpace ∧ fetchWords s s.pc = .ok ⟨0, 0, 0, 0⟩ ∧
      ¬ validWords s.numGp (⟨0, 0, 0, 0⟩ : Words resetSize) :=
  ⟨rfl, by decide, by decide, by simp [validWords, legalLowBytes]⟩

theorem witness_StepPastTheTopFaults :
    let s := at4 0xFFFFFFF0 ⟨0x1C00, 0, 0, 0⟩
    s.halt = false ∧ resetSize.addressSpace ≤ s.pc.toNat + resetSize.IB := by decide

theorem witness_RefusedFetchFaults :
    let s := at4 0x100 ⟨0, 0, 0, 0⟩ [⟨0x10F, 1⟩]
    s.halt = false ∧ s.pc.toNat + resetSize.IB < resetSize.addressSpace ∧
        lowestRefused s s.pc.toNat resetSize.IB 0x10F :=
  ⟨rfl, by decide, by decide, by decide, by decide, fun y h1 h2 => by
    have h1 : 256 ≤ y := h1
    interval_cases y <;> decide⟩

theorem witness_HaltIsWrittenByHaltOnly :
    exec .halt ⟨_, ws⟩ = .next ⟨_, { ws with halt := true }⟩ ∧
    exec (.jmp (.imm 0)) ⟨_, ws⟩ = .next ⟨_, { ws with pc := 0 }⟩ ∧ State.reset.cpu.halt = true ∧
    ws.mem.wf resetSize = true ∧ (0xFFFFFFFF : Nat) < resetSize.addressSpace ∧
    (Session.loading ⟨_, ws⟩).host .start = some (.running ⟨_, { ws with halt := false }⟩) ∧
    (Session.loading ⟨_, ws.setMem []⟩).host (.writeByte 0xFFFFFFFF 1) =
      some (.loading ⟨_, ws.setMem [(0xFFFFFFFF, 1)]⟩) := ⟨rfl, rfl, rfl, by decide, by decide, rfl, rfl⟩

/-- The three cases of an access: at the last word, past it, and at a refused byte, the last of the four. They are the
cases of `WordWriteIsLittleEndian`, `LoadResult` and `StoreResult` too, whose address is an immediate. -/
theorem witness_WordReadIsLittleEndian : accessible ws 0xFFFFFFFC ∧ resetSize.addressSpace < (0xFFFFFFFD
    : Word resetSize).toNat + resetSize.WB ∧
    ((0x2000 : Word resetSize).toNat + resetSize.WB ≤ resetSize.addressSpace ∧ lowestRefused wr (0x2000
        : Word resetSize).toNat resetSize.WB 0x2003) :=
  ⟨⟨by decide, witness_allRam _ _ _ rfl⟩, by decide, by decide, by decide, by decide, by decide,
    fun y h1 h2 => by
      have h1 : 0x2000 ≤ y := h1
      interval_cases y <;> decide⟩

theorem witness_WordWriteIsLittleEndian : ws.mem.wf resetSize = true ∧ wr.mem.wf resetSize = true := by decide

theorem witness_StoredWordReadsBack : ws.mem.wf resetSize = true ∧
    memWrite ws 0x2000 1 = .ok (ws.setMem [(0x2000, 1)]) := ⟨rfl, rfl⟩

theorem witness_EqualBytesAreEqualMemories : Memory.wf resetSize [(1, 5), (4294967295, 7)] = true ∧
    ∀ a, Memory.byteAt [(1, 5), (4294967295, 7)] a = Memory.byteAt [(1, 5), (4294967295, 7)] a :=
  ⟨by decide, fun _ => rfl⟩

/-- A running machine at a `push 7u`, `%sp = 4`. -/
def wp : Cpu resetSize := (at4 0x100 ⟨0x1710, 7, 0, 0⟩).setSp 4

theorem witness_StepKeepsTheInvariant : Inv ⟨_, wp⟩ ∧ ∃ t, step ⟨_, wp⟩ = .next t :=
  ⟨⟨by decide, by decide, by decide⟩, _, rfl⟩

theorem witness_StepKeepsThePlatform : ∃ t, step ⟨_, wp⟩ = .next t := ⟨_, rfl⟩

theorem witness_ResetMeetsTheInvariant :
    Session.begin 16 1 [⟨5, 2⟩] = some (.loading ⟨size16, Cpu.start size16 1 [⟨5, 2⟩]⟩) ∧
    (Session.loading ⟨size16, Cpu.start size16 1 [⟨5, 2⟩]⟩).hostAll [.writeByte 0xFFFF 1, .start] =
      some (.running ⟨size16, ((Cpu.start size16 1 [⟨5, 2⟩]).setMem [(0xFFFF, 1)]).setHalt false⟩) :=
  ⟨rfl, rfl⟩

theorem witness_ParametersWithinBounds : startUp 24 3 [⟨5, 2⟩] = some ⟨size24, Cpu.start size24 3 [⟨5, 2⟩]⟩ :=
  rfl

theorem witness_ProgramAtZeroRunsFirst : legalNumGp resetSize 8 ∧
    (Instr.pop (.gp 7)).wf resetSize 8 = true ∧
    (encodeBytes resetSize (.pop (.gp 7)) ++ [0xFF]).length ≤ resetSize.addressSpace := by decide

theorem witness_FetchWordRunsFirst :
    decodeTableWord 128 0x00000005000001010000010000000129 = some (.add (.gp 0) (g 1) (.imm 5)) := by decide

theorem witness_OperandResolution : ws.gp[7]? = some ⟨0, false⟩ ∧ ws.gp[0]? = some ⟨7, true⟩ ∧
    7 < ws.gp.length ∧ (0xFFFFFFFD : Word resetSize).toNat % resetSize.WB ≠ 0 ∧ (0xFFFFFFFC
        : Word resetSize).toNat % resetSize.WB = 0 := by decide

/-- Operands that can be read, of every kind, for the statements of results: with `witness_destinations` and the
values below, the hypotheses of each clause. -/
theorem witness_operands : readOperand ws (.imm 5) = .ok 5 ∧ readOperand ws (.reg .pc) = .ok 0x110 ∧
    readOperand ws (.reg .sp) = .ok 0x1000 ∧ readOperand ws (g 1) = .ok 0x80000000 ∧
    readOperand ws (g 4) = .ok 0 := ⟨rfl, rfl, rfl, rfl, rfl⟩

theorem witness_AddResult : readOperand ws (g 1) = .ok 0x80000000 ∧
    readOperand ws (g 1) = .ok 0x80000000 ∧
    accepts ws .sp (BitVec.ofNat resetSize.W (((0x80000000 : Word resetSize).toNat + (0x80000000
        : Word resetSize).toNat) % 2 ^ resetSize.W)) ∧
    readOperand ws (.imm 1) = .ok 1 ∧
    misaligned .sp (BitVec.ofNat resetSize.W (((0x80000000 : Word resetSize).toNat + (1
        : Word resetSize).toNat) % 2 ^ resetSize.W)) :=
  ⟨rfl, rfl, by simp only [accepts]; decide, rfl, rfl, by decide⟩

theorem witness_SubResult : readOperand ws (g 4) = .ok 0 ∧ readOperand ws (.imm 1) = .ok 1 ∧
    accepts ws (.gp 0) ((0 : Word resetSize) - 1) ∧ misaligned .sp ((0 : Word resetSize) - 1) :=
  ⟨rfl, rfl, by simp only [accepts]; decide, rfl, by decide⟩

theorem witness_MultiplyResults : readOperand ws (g 1) = .ok 0x80000000 ∧
    readOperand ws (.imm 2) = .ok 2 ∧
    accepts ws (.gp 7) (BitVec.ofNat resetSize.W ((0x80000000 : Word resetSize).toNat * (2
        : Word resetSize).toNat % 2 ^ resetSize.W)) ∧
    accepts ws (.gp 7) (BitVec.ofInt resetSize.W ((0x80000000 : Word resetSize).toInt * (2
        : Word resetSize).toInt / 2 ^ resetSize.W)) ∧
    misaligned .sp (BitVec.ofInt resetSize.W ((0x80000000 : Word resetSize).toInt * (2
        : Word resetSize).toInt / 2 ^ resetSize.W)) ∧
    misaligned .sp (BitVec.ofInt resetSize.W ((0x80000000 : Word resetSize).toInt * (2
        : Word resetSize).toNat / 2 ^ resetSize.W)) ∧
    misaligned .sp (BitVec.ofNat resetSize.W ((0x80000000 : Word resetSize).toNat * (2
        : Word resetSize).toNat / 2 ^ resetSize.W)) ∧
    readOperand ws (g 0) = .ok 7 ∧ readOperand ws (g 3) = .ok 33 ∧
    misaligned .sp (BitVec.ofNat resetSize.W ((7 : Word resetSize).toNat * (33
        : Word resetSize).toNat % 2 ^ resetSize.W)) :=
  ⟨rfl, rfl, by simp only [accepts]; decide, by simp only [accepts]; decide, ⟨rfl, by decide⟩,
    ⟨rfl, by decide⟩, ⟨rfl, by decide⟩, rfl, rfl, rfl, by decide⟩

/-- For the four divisions: the divisor 0, and 7 and 33 with results that `%sp` takes and does not take. -/
theorem witness_DivssResult : readOperand ws (g 1) = .ok 0x80000000 ∧ readOperand ws (g 4) = .ok 0 ∧
    (WReg.gp 7).wf ws.numGp = true ∧ WReg.sp.wf ws.numGp = true ∧
    readOperand ws (.imm 0xFFFFFFFF) = .ok (-1) ∧ (-1 : Word resetSize) ≠ 0 ∧
    accepts ws .sp (BitVec.ofInt resetSize.W ((0x80000000 : Word resetSize).toInt.tdiv (-1
        : Word resetSize).toInt)) ∧
    readOperand ws (g 3) = .ok 33 ∧ readOperand ws (g 0) = .ok 7 ∧ (7 : Word resetSize) ≠ 0 ∧
    accepts ws .sp (BitVec.ofInt resetSize.W ((33 : Word resetSize).toInt.tdiv (7 : Word resetSize).toInt)) ∧
    misaligned .sp (BitVec.ofInt resetSize.W ((7 : Word resetSize).toInt.tdiv (7 : Word resetSize).toInt)) :=
  ⟨rfl, rfl, rfl, rfl, rfl, by decide, by simp only [accepts]; decide, rfl, rfl, by decide,
    by simp only [accepts]; decide, rfl, by decide⟩

theorem witness_DivuuResult : readOperand ws (g 4) = .ok 0 ∧ (WReg.gp 7).wf ws.numGp = true ∧
    WReg.sp.wf ws.numGp = true ∧ readOperand ws (g 3) = .ok 33 ∧ readOperand ws (g 0) = .ok 7 ∧
    (7 : Word resetSize) ≠ 0 ∧ accepts ws .sp ((33 : Word resetSize) / 7) ∧ misaligned .sp ((7
        : Word resetSize) / 7) :=
  ⟨rfl, rfl, rfl, rfl, rfl, by decide, by simp only [accepts]; decide, rfl, by decide⟩

theorem witness_RemssResult : readOperand ws (g 4) = .ok 0 ∧ (WReg.gp 7).wf ws.numGp = true ∧
    WReg.sp.wf ws.numGp = true ∧ readOperand ws (g 3) = .ok 33 ∧ readOperand ws (g 0) = .ok 7 ∧
    (7 : Word resetSize) ≠ 0 ∧ accepts ws .sp (BitVec.ofInt resetSize.W ((7
        : Word resetSize).toInt.tmod (7 : Word resetSize).toInt)) ∧
    misaligned .sp (BitVec.ofInt resetSize.W ((33 : Word resetSize).toInt.tmod (7 : Word resetSize).toInt)) :=
  ⟨rfl, rfl, rfl, rfl, rfl, by decide, by simp only [accepts]; decide, rfl, by decide⟩

theorem witness_RemuuResult : readOperand ws (g 4) = .ok 0 ∧ (WReg.gp 7).wf ws.numGp = true ∧
    WReg.sp.wf ws.numGp = true ∧ readOperand ws (g 3) = .ok 33 ∧ readOperand ws (g 0) = .ok 7 ∧
    (7 : Word resetSize) ≠ 0 ∧ accepts ws .sp ((7 : Word resetSize) % 7) ∧ misaligned .sp ((33
        : Word resetSize) % 7) :=
  ⟨rfl, rfl, rfl, rfl, rfl, by decide, by simp only [accepts]; decide, rfl, by decide⟩

theorem witness_SignedDivisionLaws : (-1 : Word resetSize) ≠ 0 ∧
    (0x80000000 : Word resetSize).toInt = -2 ^ (resetSize.W - 1) ∧ (-1 : Word resetSize).toInt = -1 ∧
    ¬((7 : Word resetSize).toInt = -2 ^ (resetSize.W - 1) ∧ (-1 : Word resetSize).toInt = -1) := by decide

theorem witness_BitwiseResults : readOperand ws (g 0) = .ok 7 ∧ readOperand ws (g 3) = .ok 33 ∧
    (∀ j, j < resetSize.W → (1 : Word resetSize).getLsbD j = ((7 : Word resetSize).getLsbD j && (33
        : Word resetSize).getLsbD j)) ∧
    (∀ j, j < resetSize.W → (39 : Word resetSize).getLsbD j = ((7 : Word resetSize).getLsbD j || (33
        : Word resetSize).getLsbD j)) ∧
    (∀ j, j < resetSize.W → (38 : Word resetSize).getLsbD j = ((7 : Word resetSize).getLsbD j != (33
        : Word resetSize).getLsbD j)) ∧
    accepts ws (.gp 7) 1 ∧ misaligned .sp (1 : Word resetSize) ∧ misaligned .sp (39 : Word resetSize) ∧
        misaligned .sp (38 : Word resetSize) :=
  ⟨rfl, rfl, by decide, by decide, by decide, by simp only [accepts]; decide, ⟨rfl, by decide⟩,
    ⟨rfl, by decide⟩, rfl, by decide⟩

theorem witness_NotResult : readOperand ws (g 4) = .ok 0 ∧
    accepts ws (.gp 7) (BitVec.ofNat resetSize.W (2 ^ resetSize.W - 1 - (0 : Word resetSize).toNat)) ∧
    misaligned .sp (BitVec.ofNat resetSize.W (2 ^ resetSize.W - 1 - (0 : Word resetSize).toNat)) :=
  ⟨rfl, by simp only [accepts]; decide, rfl, by decide⟩

/-- The amounts `W` and `W + 1`, and 0 for a result that `%sp` does not take. -/
theorem witness_LslResult : readOperand ws (g 0) = .ok 7 ∧ readOperand ws (g 2) = .ok 32 ∧
    (32 : Word resetSize).toNat ≤ resetSize.W ∧ readOperand ws (g 3) = .ok 33 ∧ resetSize.W < (33
        : Word resetSize).toNat ∧
    accepts ws .sp (BitVec.ofNat resetSize.W ((7 : Word resetSize).toNat * 2 ^ (32
        : Word resetSize).toNat % 2 ^ resetSize.W)) ∧
    readOperand ws (g 4) = .ok 0 ∧ (0 : Word resetSize).toNat ≤ resetSize.W ∧
    misaligned .sp (BitVec.ofNat resetSize.W ((7 : Word resetSize).toNat * 2 ^ (0
        : Word resetSize).toNat % 2 ^ resetSize.W)) :=
  ⟨rfl, rfl, by decide, rfl, by decide, by simp only [accepts]; decide, rfl, by decide, rfl, by decide⟩

theorem witness_RslResult : readOperand ws (g 0) = .ok 7 ∧ readOperand ws (g 2) = .ok 32 ∧
    (32 : Word resetSize).toNat ≤ resetSize.W ∧ readOperand ws (g 3) = .ok 33 ∧ resetSize.W < (33
        : Word resetSize).toNat ∧
    accepts ws .sp (BitVec.ofNat resetSize.W ((7 : Word resetSize).toNat / 2 ^ (32 : Word resetSize).toNat)) ∧
    readOperand ws (g 4) = .ok 0 ∧ (0 : Word resetSize).toNat ≤ resetSize.W ∧
    misaligned .sp (BitVec.ofNat resetSize.W ((7 : Word resetSize).toNat / 2 ^ (0 : Word resetSize).toNat)) :=
  ⟨rfl, rfl, by decide, rfl, by decide, by simp only [accepts]; decide, rfl, by decide, rfl, by decide⟩

theorem witness_MovResult : readOperand ws (.reg .pc) = .ok 0x110 ∧ accepts ws .sp 0x110 ∧
    readOperand ws (g 0) = .ok 7 ∧ misaligned .sp (7 : Word resetSize) :=
  ⟨rfl, by simp only [accepts]; decide, rfl, rfl, by decide⟩

theorem witness_wordStands {z : WordSize} (s : Cpu z) (a : Nat) (v : Word z)
    (h : ∀ i ∈ List.range z.WB, v.extractLsb' (8 * i) 8 = s.mem.byteAt (a + i)) : wordStands s a v :=
  fun i hi => h i (List.mem_range.2 hi)

/-- `ws` with the word `0x2002` at `0xFFFFFFFC` and the word `0x2000` at `0xFFFFFFF8`. -/
def wl (sp : Nat) : Cpu resetSize :=
  st [] sp [(0xFFFFFFF8, [0x00, 0x20, 0x00, 0x00, 0x02, 0x20, 0x00, 0x00])]

theorem witness_LoadResult : readOperand (wl 0) (.imm 0xFFFFFFFC) = .ok 0xFFFFFFFC ∧
    accessible (wl 0) 0xFFFFFFFC ∧ wordStands (wl 0) (0xFFFFFFFC : Word resetSize).toNat 0x2002 ∧
    accepts (wl 0) (.gp 7) 0x2002 ∧ misaligned .sp (0x2002 : Word resetSize) ∧
    accessible (wl 0) 0xFFFFFFF8 ∧ wordStands (wl 0) (0xFFFFFFF8 : Word resetSize).toNat 0x2000 ∧
    accepts (wl 0) .sp 0x2000 :=
  ⟨rfl, ⟨by decide, witness_allRam _ _ _ rfl⟩, witness_wordStands _ _ _ (by decide),
    by simp only [accepts]; decide, ⟨rfl, by decide⟩, ⟨by decide, witness_allRam _ _ _ rfl⟩,
    witness_wordStands _ _ _ (by decide), by simp only [accepts]; decide⟩

theorem witness_StoreResult : ws.mem.wf resetSize = true ∧ readOperand ws (.imm 0xFFFFFFFC) = .ok 0xFFFFFFFC ∧
    readOperand ws (g 0) = .ok 7 ∧ accessible ws 0xFFFFFFFC :=
  ⟨by decide, rfl, rfl, witness_WordReadIsLittleEndian.1⟩

/-- `%sp` at 0, at `resetSize.WB`, and a word above refused bytes. -/
theorem witness_PushResult : (ws.setSp 0).mem.wf resetSize = true ∧ readOperand (ws.setSp 0) (g 0) = .ok 7 ∧
    (ws.setSp 0).sp.toNat < resetSize.WB ∧ readOperand (ws.setSp 4) (g 0) = .ok 7 ∧
        resetSize.WB ≤ (ws.setSp 4).sp.toNat ∧
    allRam (ws.setSp 4) ((ws.setSp 4).sp.toNat - resetSize.WB) resetSize.WB ∧
        resetSize.WB ≤ (wr.setSp 0x2004).sp.toNat ∧
    lowestRefused (wr.setSp 0x2004) ((wr.setSp 0x2004).sp.toNat - resetSize.WB) resetSize.WB 0x2003 :=
  ⟨by decide, rfl, by decide, rfl, by decide, witness_allRam _ _ _ rfl, by decide, by decide, by decide,
    by decide, fun y h1 h2 => by
      have h1 : 0x2000 ≤ y := h1
      interval_cases y <;> decide⟩

/-- `%sp` on the last word, on the one before it, and past both; words for `%sp` that are aligned and not;
a word whose increment leaves the address space. -/
theorem witness_PopResult :
    (accessible (wl 0xFFFFFFFC) (wl 0xFFFFFFFC).sp ∧
      wordStands (wl 0xFFFFFFFC) (wl 0xFFFFFFFC).sp.toNat 0x2002 ∧ 7 < (wl 0xFFFFFFFC).gp.length ∧
      resetSize.addressSpace ≤ (wl 0xFFFFFFFC).sp.toNat + resetSize.WB ∧ (0x2002
          : Word resetSize).toNat % resetSize.WB ≠ 0) ∧
    (accessible (wl 0xFFFFFFF8) (wl 0xFFFFFFF8).sp ∧
      wordStands (wl 0xFFFFFFF8) (wl 0xFFFFFFF8).sp.toNat 0x2000 ∧
      (wl 0xFFFFFFF8).sp.toNat + resetSize.WB < resetSize.addressSpace ∧ (0x2000
          : Word resetSize).toNat % resetSize.WB = 0 ∧
      (0x2000 : Word resetSize).toNat + resetSize.WB < resetSize.addressSpace) ∧
    (let s := st [] 0x1000 [(0x1000, [0xFC, 0xFF, 0xFF, 0xFF])];
      accessible s s.sp ∧ wordStands s s.sp.toNat 0xFFFFFFFC ∧ (0xFFFFFFFC
          : Word resetSize).toNat % resetSize.WB = 0 ∧
        resetSize.addressSpace ≤ (0xFFFFFFFC : Word resetSize).toNat + resetSize.WB) ∧
    resetSize.addressSpace < (ws.setSp 0xFFFFFFFD).sp.toNat + resetSize.WB ∧
    ((wr.setSp 0x2000).sp.toNat + resetSize.WB ≤ resetSize.addressSpace ∧
      lowestRefused (wr.setSp 0x2000) (wr.setSp 0x2000).sp.toNat resetSize.WB 0x2003) :=
  ⟨⟨⟨by decide, witness_allRam _ _ _ rfl⟩, witness_wordStands _ _ _ (by decide), by decide, by decide,
      by decide⟩,
    ⟨⟨by decide, witness_allRam _ _ _ rfl⟩, witness_wordStands _ _ _ (by decide), by decide, by decide,
      by decide⟩,
    ⟨⟨by decide, witness_allRam _ _ _ rfl⟩, witness_wordStands _ _ _ (by decide), by decide, by decide⟩,
    by decide, by decide, by decide, by decide, by decide, fun y h1 h2 => by
      have h1 : 0x2000 ≤ y := h1
      interval_cases y <;> decide⟩

theorem witness_CompareResults : readOperand ws (g 1) = .ok 0x80000000 ∧
    readOperand ws (.reg .sp) = .ok 0x1000 := ⟨rfl, rfl⟩

theorem witness_JmpResult : readOperand ws (.imm 0xFFFFFFFF) = .ok 0xFFFFFFFF := rfl

/-- Targets 0 and -1, from `next_pc = 0x110`; `2^W - 1` and `2^W`, from a high `next_pc`. -/
theorem witness_BrResult : readOperand ws (.imm 0xFFFFFEF0) = .ok (-272) ∧
    (ws.pc.toNat : Int) + (-272 : Word resetSize).toInt = 0 ∧ (ws.pc.toNat : Int) + (-273
        : Word resetSize).toInt < 0 ∧
    readOperand (ws.setPc 0xFFFFFFF0) (.imm 15) = .ok 15 ∧
    ((ws.setPc 0xFFFFFFF0).pc.toNat : Int) + (15 : Word resetSize).toInt = 2 ^ resetSize.W - 1 ∧
    2 ^ resetSize.W ≤ ((ws.setPc 0xFFFFFFF0).pc.toNat : Int) + (16 : Word resetSize).toInt :=
  ⟨rfl, by decide, by decide, rfl, by decide, by decide⟩

theorem witness_BrcondResult : (ws.setCmp true).cmp.value = true ∧ ws.cmp.value = false ∧
    readOperand (ws.setCmp true) (.imm 0xFFFFFEF0) = .ok (-272) ∧
    ((ws.setCmp true).pc.toNat : Int) + (-272 : Word resetSize).toInt = 0 ∧
    ((ws.setCmp true).pc.toNat : Int) + (-273 : Word resetSize).toInt < 0 :=
  ⟨rfl, rfl, rfl, by decide, by decide⟩

theorem witness_HaltResult : exec .halt ⟨_, ws⟩ = .next ⟨_, { ws with halt := true }⟩ := rfl

/-- One instruction that completes for each clause of the frame. -/
theorem witness_FrameOfEveryInstruction :
    (exec (.mov (.gp 0) (.imm 1)) ⟨_, ws⟩ = .next ⟨_, (ws.setGp 0 1)⟩ ∧
      destination (.mov (.gp 0) (.imm 1)) ≠ some (.gp 1) ∧ destination (.mov (.gp 0) (.imm 1)) ≠ some .sp ∧
      writesSp (.mov (.gp 0) (.imm 1)) = false ∧ writesPc (.mov (.gp 0) (.imm 1)) = false ∧
      writesCmp (.mov (.gp 0) (.imm 1)) = false ∧ writesOverflow (.mov (.gp 0) (.imm 1)) = false ∧
      Instr.mov (.gp 0) (.imm 1) ≠ .halt ∧ writesMem (.mov (.gp 0) (.imm 1)) = false) :=
  ⟨rfl, by decide, by decide, rfl, rfl, rfl, rfl, by decide, rfl⟩

theorem witness_StoreAndPushFrame : ws.mem.wf resetSize = true ∧ readOperand ws (.imm 0xFFFFFFFC) =
    .ok 0xFFFFFFFC ∧
    (∃ t, exec (.store (.imm 0xFFFFFFFC) (g 0)) ⟨_, ws⟩ = .next t) ∧ (∃ t, exec (.push (g 0)) ⟨_, ws⟩ =
        .next t) :=
  ⟨by decide, rfl, ⟨_, rfl⟩, _, rfl⟩

theorem witness_CmpIsReadByBrcondOnly : exec (.jmp (.imm 0)) ⟨_, ws⟩ = .next ⟨_, (ws.setPc 0)⟩ ∧
    writesCmp (.jmp (.imm 0)) = false ∧ exec (.cmpeq (g 0) (.imm 7)) ⟨_, ws⟩ = .next ⟨_, (ws.setCmp true)⟩ ∧
    writesCmp (.cmpeq (g 0) (.imm 7)) = true ∧ readsCmp (.cmpeq (g 0) (.imm 7)) = false :=
  ⟨rfl, rfl, rfl, rfl, rfl⟩

theorem witness_OverflowIsReadByNothing : exec (.jmp (.imm 0)) ⟨_, ws⟩ = .next ⟨_, (ws.setPc 0)⟩ ∧
    writesOverflow (.jmp (.imm 0)) = false ∧ writesOverflow (.sub .sp (.imm 8) (.imm 4)) = true ∧
    exec (.sub .sp (.imm 8) (.imm 4)) ⟨_, ws⟩ = .next ⟨_, ((ws.setSp 4).setOverflow false)⟩ :=
  ⟨rfl, rfl, rfl, rfl⟩

/-- A strict step that completes, one that faults, one that reports an unwritten register, and an unwritten
`status.cmp`. -/
theorem witness_StrictStepAgreesWithStep : (∃ t, strictStep ⟨_, wp⟩ = .next t) ∧
    strictStep ⟨_, at4 0x100 ⟨0x1124, 2, 6, 0⟩⟩ = .fault (.fault (.spMisaligned 6)) ∧
    strictStep ⟨_, at4 0x100 ⟨0xD2A, 0x100, 0x100, 0x100⟩⟩ = .fault (.uninitialisedRead (.gp 0)) ∧
    strictStep ⟨_, at4 0x100 ⟨0x1B10, 0, 0, 0⟩⟩ = .fault (.uninitialisedRead .cmp) :=
  ⟨⟨_, rfl⟩, rfl, rfl, rfl⟩

theorem witness_UnwrittenReadIsReported : .reg (.gp 7) ∈ sources (.push (g 7)) ∧
    ws.gp[7]? = some ⟨0, false⟩ ∧ readsCmp (.brcond (.imm 0)) = true ∧ ws.cmp.written = false ∧
    .reg (.gp 0) ∈ sources (.push (g 0)) ∧ ws.gp[0]? = some ⟨7, true⟩ ∧
    readsCmp (.push (g 0)) = false ∧ (ws.setCmp true).cmp.written = true := by decide

/-- Two machines of one register and two flags that nothing has written, with the value `v` and the flag value `b`:
at a `push 7u` and at a `brcond 0u`. -/
def wu (w0 w1 v : Word resetSize) (b : Bool) : Cpu resetSize :=
  { (at4 0x100 ⟨w0, w1, 0, 0⟩).setSp 4 with gp := [⟨v, false⟩], cmp := ⟨b, false⟩, overflow := ⟨b, false⟩ }

theorem witness_StrictMachineIgnoresUnwrittenValues :
    (∀ w0 w1, sameWritten (wu w0 w1 0 false) (wu w0 w1 5 true)) ∧
    (∃ s', strictStep ⟨_, wu 0x1710 7 0 false⟩ = .next s') ∧
    strictStep ⟨_, wu 0x1B10 0 0 false⟩ = .fault (.uninitialisedRead .cmp) :=
  ⟨fun _ _ => ⟨rfl, rfl, .cons ⟨rfl, nofun⟩ .nil, ⟨rfl, nofun⟩, ⟨rfl, nofun⟩, rfl, rfl, rfl, rfl⟩,
    ⟨_, rfl⟩, rfl⟩

theorem witness_WrittenStaysWritten :
    let s := ((wp.setGp 0 1).setCmp true).setOverflow true
    (∃ t, step ⟨_, s⟩ = .next t) ∧ s.gp[0]? = some ⟨1, true⟩ ∧ s.cmp.written = true ∧
      s.overflow.written = true := ⟨⟨_, rfl⟩, rfl, rfl, rfl⟩

theorem witness_StatusWordBits : StatusLayout.default.legal resetSize = true ∧
    StatusLayout.legal resetSize ⟨31, 0, 15⟩ = true ∧
    (ws.setCmp true).cmp.written = true ∧ (ws.setOverflow true).overflow.written = true ∧
    ws.cmp.written = false ∧ ws.overflow.written = false ∧
    3 < resetSize.W ∧ 3 ≠ StatusLayout.default.cmp ∧ 3 ≠ StatusLayout.default.overflow ∧
    3 ≠ StatusLayout.default.halt := by decide

theorem witness_AssemblerGivesValidEncodings : legalNumGp resetSize 8 ∧
    Assembly.assemble resetSize 8 "pop".toList ["%gp7".toList] = some ⟨0x1820, 0x107, 0, 0⟩ := by decide

theorem witness_DisassemblyAssembles : legalNumGp resetSize 8 ∧
    (Instr.lsl .sp (.reg .pc) (.imm 4294967295)).wf resetSize 8 = true := by decide

end Sys2Proof.Tests
end

section
/-! PROOFS of 00_scope.md. The parameters of the ISA (R2 to R5): which word sizes there are, and which machines start up. -/

namespace Sys2Proof.Config

/-- The bounds of R5 hold of every word size, by its type. -/
theorem legalW_W (z : WordSize) : legalW z.W :=
  ⟨z.sixteen_le_W, by rw [z.W_eq]; exact Nat.mul_mod_right 8 z.WB⟩

@[simp] theorem wordSizeOf_W (z : WordSize) : wordSizeOf z.W = some z :=
  wordSizeOf_eq_some.2 ⟨legalW_W z, rfl⟩

/-- No number of bits is missing: what R5 allows is eight times its own eighth. -/
theorem legalW_iff_exists_wordSize {w : Nat} : legalW w ↔ ∃ z : WordSize, z.W = w := by
  constructor
  · intro h
    have two_le : 2 ≤ w / 8 := by omega
    exact ⟨⟨w / 8, two_le⟩, Nat.mul_div_cancel' (Nat.dvd_of_mod_eq_zero h.2)⟩
  · rintro ⟨z, rfl⟩
    exact legalW_W z

theorem wordSizeOf_eq_none {w : Nat} (h : ¬ legalW w) : wordSizeOf w = none := dif_neg h

end Sys2Proof.Config

namespace Sys2Proof.Machine

open Config

section StartUp

variable {w n : Nat} {r : List Region} {s : State}

@[simp] theorem Cpu.numGp_start (z : WordSize) (n : Nat) (r : List Region) : (Cpu.start z n r).numGp = n :=
  List.length_replicate

@[simp] theorem Cpu.refused_start (z : WordSize) (n : Nat) (r : List Region) : (Cpu.start z n r).refused = r := rfl

/-- At a word size, the number of registers alone decides whether there is a machine. -/
theorem startUp_W (z : WordSize) (n : Nat) (r : List Region) :
    startUp z.W n r = if legalNumGp z n then some ⟨z, Cpu.start z n r⟩ else none := by
  rw [startUp, wordSizeOf_W]

/-- Start-up answers the machine of `Cpu.start` within the bounds of R5, and nothing else. -/
theorem startUp_eq_some_iff :
    startUp w n r = some s ↔ ∃ z : WordSize, z.W = w ∧ legalNumGp z n ∧ s = ⟨z, Cpu.start z n r⟩ := by
  by_cases hw : legalW w
  · obtain ⟨z, rfl⟩ := legalW_iff_exists_wordSize.1 hw
    rw [startUp_W, Option.ite_none_right_eq_some, Option.some.injEq]
    constructor
    · rintro ⟨hn, rfl⟩
      exact ⟨z, rfl, hn, rfl⟩
    · rintro ⟨z', hz, hn, rfl⟩
      obtain rfl := WordSize.eq_of_W hz
      exact ⟨hn, rfl⟩
  · constructor
    · intro h
      simp [startUp, wordSizeOf_eq_none hw] at h
    · rintro ⟨z, rfl, -⟩
      exact absurd (legalW_W z) hw

/-- The bounds of R5 are all that start-up asks for, whatever `Mapped` is. -/
theorem exists_startUp_iff :
    (∃ s, startUp w n r = some s) ↔ 16 ≤ w ∧ w % 8 = 0 ∧ 1 ≤ n ∧ n ≤ 2 ^ w - 256 := by
  constructor
  · rintro ⟨s, h⟩
    obtain ⟨z, rfl, hn, -⟩ := startUp_eq_some_iff.1 h
    exact and_assoc.1 ⟨legalW_W z, hn⟩
  · rintro ⟨hlow, hbytes, hn⟩
    obtain ⟨z, rfl⟩ := legalW_iff_exists_wordSize.1 ⟨hlow, hbytes⟩
    exact ⟨_, startUp_eq_some_iff.2 ⟨z, rfl, hn, rfl⟩⟩

/-- The machine has the parameters that start-up was asked for. -/
theorem startUp_parameters (h : startUp w n r = some s) :
    s.size.W = w ∧ s.cpu.numGp = n ∧ s.cpu.refused = r := by
  obtain ⟨z, rfl, -, rfl⟩ := startUp_eq_some_iff.1 h
  exact ⟨rfl, Cpu.numGp_start z n r, Cpu.refused_start z n r⟩

/-- The reference configuration of R6 lies within the bounds, and its machine is the one after reset. -/
theorem startUp_reference : startUp 32 8 [] = some State.reset :=
  startUp_eq_some_iff.2 ⟨resetSize, rfl, by decide, rfl⟩

end StartUp

/-- Settles O60: word sizes by `legalW_iff_exists_wordSize`, machines by `startUp_eq_some_iff`. -/
theorem parametersWithinBounds : Obligations.ParametersWithinBounds := fun _ _ =>
  ⟨legalW_iff_exists_wordSize, fun z => ⟨z.W_eq.symm, z.IB_eq, wordSizeOf_W z⟩,
    fun _ => exists_startUp_iff, fun _ _ => startUp_parameters, startUp_reference⟩

end Sys2Proof.Machine
end

section
/-! SUPPORT of 10_state.md. The row of an instruction in the table of R86 and the form that its meaning takes, once for
all 28 instructions; and from these everything that an instruction can do when it answers a next state. -/

namespace Sys2Proof.Safety

open Config Machine

variable {z : WordSize}

/-! ## Rows of the table and forms of the meanings -/

/-- What the table of R86 says of an instruction: what it names, and what it reads and writes without naming it. -/
structure Row where
  sources : List Operand := []
  destination : Option WReg := none
  readsCmp : Bool := false
  writesCmp : Bool := false
  writesOverflow : Bool := false
  writesPc : Bool := false
  writesSp : Bool := false
  writesMem : Bool := false
  halts : Bool := false

/-- The row of an instruction, column by column. -/
def rowOf (i : Instr) : Row :=
  ⟨sources i, destination i, readsCmp i, writesCmp i, writesOverflow i, writesPc i, writesSp i, writesMem i,
    decide (i = .halt)⟩

/-- The forms that meanings take, each with the rows of the instructions that have it. -/
inductive Form : Row → (Cpu z → CpuResult z) → Prop where
  | binary (f) (d : WReg) (a b : Operand) :
    Form { sources := [a, b], destination := some d } (binary f d a b)
  | binaryFlag (f g) (d : WReg) (a b : Operand) :
    Form { sources := [a, b], destination := some d, writesOverflow := true } (binaryFlag f g d a b)
  | dividing (f g) (d : WReg) (a b : Operand) :
    Form { sources := [a, b], destination := some d, writesOverflow := true } (dividing f g d a b)
  | unary (f) (d : WReg) (a : Operand) : Form { sources := [a], destination := some d } (unary f d a)
  | shifting (f) (d : WReg) (a b : Operand) :
    Form { sources := [a, b], destination := some d } (shifting f d a b)
  | loading (d : WReg) (a : Operand) : Form { sources := [a], destination := some d } (loading d a)
  | storing (a b : Operand) : Form { sources := [a, b], writesMem := true } (storing a b)
  | comparing (p) (a b : Operand) : Form { sources := [a, b], writesCmp := true } (comparing p a b)
  | pushing (a : Operand) : Form { sources := [a], writesSp := true, writesMem := true } (pushing a)
  | popping (d : WReg) : Form { destination := some d, writesSp := true } (popping d)
  | jumping (a : Operand) : Form { sources := [a], writesPc := true } (jumping a)
  | branching (a : Operand) : Form { sources := [a], writesPc := true } (branching a)
  | branchingIf (a : Operand) : Form { sources := [a], readsCmp := true, writesPc := true } (branchingIf a)
  | halting : Form { halts := true } fun s => .next (s.setHalt true)

/-- Every instruction runs a meaning of the form that its row allows. -/
theorem exists_form (z : WordSize) (i : Instr) :
    ∃ m : Cpu z → CpuResult z, Form (rowOf i) m ∧ ∀ s, exec i ⟨z, s⟩ = (State.mk z s).on m := by
  cases i with
  | add d a b => exact ⟨_, .binaryFlag addResult addWrapped d a b, fun _ => rfl⟩
  | sub d a b => exact ⟨_, .binaryFlag subResult subWrapped d a b, fun _ => rfl⟩
  | mul d a b => exact ⟨_, .binary mulLow d a b, fun _ => rfl⟩
  | mulhss d a b => exact ⟨_, .binary mulHighSS d a b, fun _ => rfl⟩
  | mulhsu d a b => exact ⟨_, .binary mulHighSU d a b, fun _ => rfl⟩
  | mulhuu d a b => exact ⟨_, .binary mulHighUU d a b, fun _ => rfl⟩
  | divss d a b => exact ⟨_, .dividing divSigned divisorNonzero d a b, fun _ => rfl⟩
  | divuu d a b => exact ⟨_, .dividing divUnsigned divisorNonzero d a b, fun _ => rfl⟩
  | remss d a b => exact ⟨_, .dividing remSigned divisorNonzero d a b, fun _ => rfl⟩
  | remuu d a b => exact ⟨_, .dividing remUnsigned divisorNonzero d a b, fun _ => rfl⟩
  | and d a b => exact ⟨_, .binary andResult d a b, fun _ => rfl⟩
  | or d a b => exact ⟨_, .binary orResult d a b, fun _ => rfl⟩
  | xor d a b => exact ⟨_, .binary xorResult d a b, fun _ => rfl⟩
  | not d a => exact ⟨_, .unary notResult d a, fun _ => rfl⟩
  | lsl d a b => exact ⟨_, .shifting shiftLeft d a b, fun _ => rfl⟩
  | rsl d a b => exact ⟨_, .shifting shiftRight d a b, fun _ => rfl⟩
  | mov d a => exact ⟨_, .unary id d a, fun _ => rfl⟩
  | load d a => exact ⟨_, .loading d a, fun _ => rfl⟩
  | store a b => exact ⟨_, .storing a b, fun _ => rfl⟩
  | cmpeq a b => exact ⟨_, .comparing sameBits a b, fun _ => rfl⟩
  | cmpltu a b => exact ⟨_, .comparing lessUnsigned a b, fun _ => rfl⟩
  | cmplts a b => exact ⟨_, .comparing lessSigned a b, fun _ => rfl⟩
  | push a => exact ⟨_, .pushing a, fun _ => rfl⟩
  | pop d => exact ⟨_, .popping d, fun _ => rfl⟩
  | jmp a => exact ⟨_, .jumping a, fun _ => rfl⟩
  | br a => exact ⟨_, .branching a, fun _ => rfl⟩
  | brcond a => exact ⟨_, .branchingIf a, fun _ => rfl⟩
  | halt => exact ⟨_, .halting, fun _ => rfl⟩

/-! ## What an instruction does -/

/-- What an instruction with a given row can have made of a machine. -/
inductive Effect : Row → Cpu z → Cpu z → Prop where
  | write {srcs s d v} (h : accepts s d v) :
    Effect { sources := srcs, destination := some d } s (put s d v)
  | writeFlag {srcs s d v} (b : Bool) (h : accepts s d v) :
    Effect { sources := srcs, destination := some d, writesOverflow := true } s ((put s d v).setOverflow b)
  | writeDrawn {srcs s d} (b : Bool) (h : accepts s d s.anyW) :
    Effect { sources := srcs, destination := some d, writesOverflow := true } s
      ((put s.tick d s.anyW).setOverflow b)
  | store {srcs s a} {v : Word z} (h : accessible s a) :
    Effect { sources := srcs, writesMem := true } s (s.setMem (s.mem.setWord a.toNat v))
  | compare {srcs s} (b : Bool) : Effect { sources := srcs, writesCmp := true } s (s.setCmp b)
  | push {srcs s} {v : Word z} (hsp : z.WB ≤ s.sp.toNat) (h : accessible s (pushAddress s)) :
    Effect { sources := srcs, writesSp := true, writesMem := true } s
      ((s.setMem (s.mem.setWord (pushAddress s).toNat v)).setSp (pushAddress s))
  | pop {s d v} (h : accepts s d v) (hsp : (popBase d v s).toNat + z.WB < z.addressSpace) :
    Effect { destination := some d, writesSp := true } s
      ((put s d v).setSp (popBase d v s + BitVec.ofNat z.W z.WB))
  | jump {srcs s r v} : Effect { sources := srcs, readsCmp := r, writesPc := true } s (s.setPc v)
  | stay {srcs s} : Effect { sources := srcs, readsCmp := true, writesPc := true } s s
  | halt {s} : Effect { halts := true } s (s.setHalt true)

theorem branchBy_effect {srcs : List Operand} {r : Bool} {s t : Cpu z} {off : Word z}
    (h : branchBy s off = .next t) : Effect { sources := srcs, readsCmp := r, writesPc := true } s t := by
  obtain ⟨-, -, rfl⟩ := branchBy_next.1 h
  exact .jump

/-- Each form, by the lemma that says what it can do. -/
theorem Form.effect {r : Row} {m : Cpu z → CpuResult z} {s t : Cpu z} (hm : Form r m) (h : m s = .next t) :
    Effect r s t := by
  cases hm with
  | binary f d a b =>
    obtain ⟨x, y, -, -, hacc, rfl⟩ := binary_next.1 h
    exact .write hacc
  | binaryFlag f g d a b =>
    obtain ⟨x, y, -, -, hacc, rfl⟩ := binaryFlag_next.1 h
    exact .writeFlag _ hacc
  | dividing f g d a b =>
    obtain ⟨x, y, -, -, ⟨-, hacc, rfl⟩ | ⟨-, hacc, rfl⟩⟩ := dividing_next.1 h
    · exact .writeDrawn _ hacc
    · exact .writeFlag _ hacc
  | unary f d a =>
    obtain ⟨x, -, hacc, rfl⟩ := unary_next.1 h
    exact .write hacc
  | shifting f d a b =>
    obtain ⟨x, n, -, -, -, hacc, rfl⟩ := shifting_next.1 h
    exact .write hacc
  | loading d a =>
    obtain ⟨x, -, -, hacc, rfl⟩ := loading_next.1 h
    exact .write hacc
  | storing a b =>
    obtain ⟨x, v, -, -, hmem, rfl⟩ := storing_next.1 h
    exact .store hmem
  | comparing p a b =>
    obtain ⟨x, y, -, -, rfl⟩ := comparing_next.1 h
    exact .compare _
  | pushing a =>
    obtain ⟨v, -, hsp, hmem, rfl⟩ := pushing_next.1 h
    exact .push hsp hmem
  | popping d =>
    obtain ⟨-, hacc, hsp, rfl⟩ := popping_next.1 h
    exact .pop hacc hsp
  | jumping a =>
    obtain ⟨v, -, h⟩ := withSrc_next.1 h
    obtain rfl := Host.Outcome.next.inj h
    exact .jump
  | branching a =>
    obtain ⟨off, -, h⟩ := withSrc_next.1 h
    exact branchBy_effect h
  | branchingIf a =>
    obtain ⟨off, -, ⟨-, h⟩ | ⟨-, rfl⟩⟩ := branchingIf_next.1 h
    · exact branchBy_effect h
    · exact .stay
  | halting =>
    obtain rfl := Host.Outcome.next.inj h
    exact .halt

/-- Everything an instruction can do when it answers a next state. -/
theorem exec_effect {i : Instr} {s : Cpu z} {u : State} (h : exec i ⟨z, s⟩ = .next u) :
    ∃ t : Cpu z, u = ⟨z, t⟩ ∧ Effect (rowOf i) s t := by
  obtain ⟨m, hm, hexec⟩ := exists_form z i
  obtain ⟨t, ht, rfl⟩ := (State.on_next s).1 ((hexec s).symm.trans h)
  exact ⟨t, rfl, hm.effect ht⟩

/-- Everything a step can do when it answers a next state: nothing, or what its instruction does after the advance. -/
theorem step_effect {s : Cpu z} {u : State} (h : step ⟨z, s⟩ = .next u) :
    ∃ t : Cpu z, u = ⟨z, t⟩ ∧ (t = s ∨ ∃ r, Effect r s.advance t) := by
  obtain ⟨-, rfl⟩ | ⟨-, i, -, hexec⟩ := step_next.1 h
  · exact ⟨s, rfl, .inl rfl⟩
  · obtain ⟨t, rfl, ht⟩ := exec_effect hexec
    exact ⟨t, rfl, .inr ⟨_, ht⟩⟩

end Sys2Proof.Safety
end

section
/-! SUPPORT of 10_state.md. What an effect leaves and what it writes, field by field. -/

namespace Sys2Proof.Safety

open Config Machine

variable {z : WordSize} {r : Row} {s t : Cpu z}

theorem Effect.halt_eq (h : Effect r s t) : t.halt = (r.halts || s.halt) := by
  cases h <;> simp

theorem Effect.numGp_eq (h : Effect r s t) : t.numGp = s.numGp := by
  cases h with
  | write | writeFlag | writeDrawn | pop => exact put_numGp _ _ _
  | store | compare | push | jump | stay | halt => rfl

theorem Effect.refused_eq (h : Effect r s t) : t.refused = s.refused := by
  cases h <;> simp

theorem Effect.cmp_eq (h : Effect r s t) (hw : r.writesCmp = false) : t.cmp = s.cmp := by
  cases h <;> simp at hw ⊢

theorem Effect.cmp_written (h : Effect r s t) (hw : r.writesCmp = true) : t.cmp.written = true := by
  cases h <;> simp at hw ⊢

theorem Effect.overflow_eq (h : Effect r s t) (hw : r.writesOverflow = false) : t.overflow = s.overflow := by
  cases h <;> simp at hw ⊢

theorem Effect.overflow_written (h : Effect r s t) (hw : r.writesOverflow = true) :
    t.overflow.written = true := by
  cases h <;> simp at hw ⊢

/-- Register `k` exists and has been written (R36). -/
def gpWritten (s : Cpu z) (k : Nat) : Prop := ∃ q, s.gp[k]? = some q ∧ q.written = true

/-- Writing a destination takes no register's value away. -/
theorem gpWritten_put (d : WReg) (v : Word z) {k : Nat} (h : gpWritten s k) : gpWritten (put s d v) k := by
  obtain ⟨q, hq, hw⟩ := h
  cases d with
  | sp => exact ⟨q, hq, hw⟩
  | gp j =>
    rw [put_gp]
    by_cases hj : j = k
    · subst hj
      exact ⟨⟨v, true⟩, s.getElem?_setGp_self j v (List.getElem?_eq_some_iff.1 hq).1, rfl⟩
    · exact ⟨q, (s.getElem?_setGp_ne j k v hj).trans hq, hw⟩

theorem Effect.gpWritten (h : Effect r s t) {k : Nat} (hk : gpWritten s k) : gpWritten t k := by
  cases h with
  | write | writeFlag | writeDrawn | pop => exact gpWritten_put _ _ hk
  | store | compare | push | jump | stay | halt => exact hk

/-! ## Canonical memory and the alignment of the stack pointer -/

/-- A stored word keeps the canonical form where its bytes exist (R58, R60). -/
theorem wf_setWord_of_accessible {a : Word z} (v : Word z) (h : accessible s a) (hm : s.mem.wf z = true) :
    (s.mem.setWord a.toNat v).wf z = true :=
  Memory.wf_setWord v hm h.1

theorem Effect.mem_wf (h : Effect r s t) (hm : s.mem.wf z = true) : t.mem.wf z = true := by
  cases h with
  | store ha =>
    rw [Cpu.setMem_mem]
    exact wf_setWord_of_accessible _ ha hm
  | push _ ha =>
    rw [Cpu.setSp_mem, Cpu.setMem_mem]
    exact wf_setWord_of_accessible _ ha hm
  | write | writeFlag | writeDrawn | compare | pop | jump | stay | halt => simpa using hm

/-- `%sp` is a multiple of `WB` (R35). -/
def spAligned (s : Cpu z) : Prop := s.sp.toNat % z.WB = 0

/-- A destination accepts no misaligned `%sp` (R96). -/
theorem spAligned_put {d : WReg} {v : Word z} (h : accepts s d v) (hs : spAligned s) :
    spAligned (put s d v) := by
  cases d with
  | sp => exact h
  | gp k => exact hs

/-- Where `push` does not underflow, the address it stores to is one word below `%sp`. -/
theorem toNat_pushAddress (h : z.WB ≤ s.sp.toNat) : (pushAddress s).toNat = s.sp.toNat - z.WB := by
  have hWB := z.WB_lt_addressSpace
  rw [z.addressSpace_eq] at hWB
  rw [pushAddress, BitVec.toNat_sub_of_le]
  · rw [BitVec.toNat_ofNat, Nat.mod_eq_of_lt hWB]
  · rwa [BitVec.le_def, BitVec.toNat_ofNat, Nat.mod_eq_of_lt hWB]

/-- A sum that stays in the address space does not wrap. -/
theorem toNat_add_of_lt {v : Word z} {k : Nat} (h : v.toNat + k < z.addressSpace) :
    (v + BitVec.ofNat z.W k).toNat = v.toNat + k := by
  rw [z.addressSpace_eq] at h
  rw [BitVec.toNat_add, BitVec.toNat_ofNat, Nat.add_mod_mod, Nat.mod_eq_of_lt h]

/-- What `pop` increments is a multiple of `WB`: the accepted value or the `%sp` that was. -/
theorem popBase_mod {d : WReg} {v : Word z} (h : accepts s d v) (hs : spAligned s) :
    (popBase d v s).toNat % z.WB = 0 := by
  cases d with
  | sp => exact h
  | gp k => exact hs

theorem Effect.spAligned (h : Effect r s t) (hs : spAligned s) : spAligned t := by
  cases h with
  | write ha => exact spAligned_put ha hs
  | writeFlag _ ha => exact spAligned_put ha hs
  | writeDrawn _ ha => exact spAligned_put (s := s.tick) (by cases ‹WReg› <;> exact ha) hs
  | push hsp _ =>
    rw [Safety.spAligned, Cpu.setSp_sp, toNat_pushAddress hsp, ← Nat.mod_eq_sub_mod hsp]
    exact hs
  | pop ha hsp =>
    rw [Safety.spAligned, Cpu.setSp_sp, toNat_add_of_lt hsp, Nat.add_mod_right]
    exact popBase_mod ha hs
  | store | compare | jump | stay | halt => exact hs

theorem Effect.inv (h : Effect r s t) (hs : Inv ⟨z, s⟩) : Inv ⟨z, t⟩ := by
  obtain ⟨hmem, hsp, hgp⟩ := hs
  exact ⟨h.mem_wf hmem, h.spAligned hsp, by rwa [h.numGp_eq]⟩

/-- Settles O18: the advance touches no field that the invariant speaks of, and each effect keeps it. -/
theorem stepKeepsTheInvariant : Obligations.StepKeepsTheInvariant := by
  rintro ⟨z, s⟩ u hs h
  obtain ⟨t, rfl, rfl | ⟨r, ht⟩⟩ := step_effect h
  · exact hs
  · exact ht.inv (s := s.advance) hs

/-- Settles O20: no effect writes a parameter, and the word size is the type's. -/
theorem stepKeepsThePlatform : Obligations.StepKeepsThePlatform := by
  rintro ⟨z, s⟩ u h
  obtain ⟨t, rfl, rfl | ⟨r, ht⟩⟩ := step_effect h
  · exact ⟨rfl, rfl, rfl⟩
  · exact ⟨rfl, ht.numGp_eq, ht.refused_eq⟩

/-- Settles O55: a flag that an effect does not write it leaves, and one that it writes has a value. -/
theorem writtenStaysWritten : Obligations.WrittenStaysWritten := by
  rintro ⟨z, s⟩ u h
  obtain ⟨t, rfl, rfl | ⟨r, ht⟩⟩ := step_effect h
  · exact ⟨fun _ q hq hw => ⟨q, hq, hw⟩, id, id⟩
  · refine ⟨fun k q hq hw => ht.gpWritten (s := s.advance) ⟨q, hq, hw⟩, fun hc => ?_, fun ho => ?_⟩
    · cases hw : r.writesCmp with
      | true => exact ht.cmp_written hw
      | false => exact (congrArg Flag.written (ht.cmp_eq hw)).trans hc
    · cases hw : r.writesOverflow with
      | true => exact ht.overflow_written hw
      | false => exact (congrArg Flag.written (ht.overflow_eq hw)).trans ho

end Sys2Proof.Safety
end

section
/-! SUPPORT of 10_state.md. Two machines that agree but for some values: an instruction whose sources read the same on
both answers the same on both, and next states that agree again. -/

namespace Sys2Proof.Safety

open Config Machine

variable {z : WordSize}

/-! ## Agreement of machines and of outcomes -/

/-- Two machines that agree but for registers, `status.cmp` and `status.overflow`, which are in the relations given. -/
structure AgreeOn (P : GpReg z → GpReg z → Prop) (Q O : Flag → Flag → Prop) (s t : Cpu z) : Prop where
  pc : s.pc = t.pc
  sp : s.sp = t.sp
  gp : List.Forall₂ P s.gp t.gp
  cmp : Q s.cmp t.cmp
  overflow : O s.overflow t.overflow
  halt : s.halt = t.halt
  mem : s.mem = t.mem
  refused : s.refused = t.refused
  draws : s.draws = t.draws

/-- Two outcomes of one kind: the same fault or refusal, or next states in a relation. -/
inductive Related {σ φ ρ : Type} (R : σ → σ → Prop) : Host.Outcome σ φ ρ → Host.Outcome σ φ ρ → Prop where
  | next {s t} (h : R s t) : Related R (.next s) (.next t)
  | fault (e) : Related R (.fault e) (.fault e)
  | refused (r) : Related R (.refused r) (.refused r)

theorem Related.mono {σ φ ρ : Type} {R R' : σ → σ → Prop} {x y : Host.Outcome σ φ ρ} (h : Related R x y)
    (himp : ∀ s t, R s t → R' s t) : Related R' x y := by
  cases h with
  | next h => exact .next (himp _ _ h)
  | fault e => exact .fault e
  | refused r => exact .refused r

theorem Related.withVal {α : Type} {R : Cpu z → Cpu z → Prop} {x y : Except Fault α} {f g : α → CpuResult z}
    (h : x = y) (hgo : ∀ v, Related R (f v) (g v)) : Related R (withVal x f) (withVal y g) := by
  subst h
  cases x with
  | error e => exact .fault e
  | ok v => exact hgo v

/-- A relation of machines, of the states that hold them. -/
def onStates (R : Cpu z → Cpu z → Prop) (u v : State) : Prop := ∃ s t : Cpu z, u = ⟨z, s⟩ ∧ v = ⟨z, t⟩ ∧ R s t

theorem Related.on {R : Cpu z → Cpu z → Prop} {m : Cpu z → CpuResult z} {s t : Cpu z} (h : Related R (m s) (m t)) :
    Related (onStates R) ((State.mk z s).on m) ((State.mk z t).on m) := by
  simp only [State.on]
  generalize m s = x, m t = y at h ⊢
  cases h with
  | next h => exact .next ⟨_, _, rfl, rfl, h⟩
  | fault e => exact .fault e
  | refused r => exact .refused r

/-- Where the next states are related by a function, so are the outcomes. -/
theorem Related.eq_mapNext {g : State → State} {x y : Result} (h : Related (fun u v => v = g u) x y) :
    y = mapNext g x := by
  cases h with
  | next h => exact congrArg _ h
  | fault e => rfl
  | refused r => rfl

theorem Related.liftOutcome {R : State → State → Prop} {x y : Result} (h : Related R x y) :
    Related R (liftOutcome x) (liftOutcome y) := by
  cases h with
  | next h => exact .next h
  | fault e => exact .fault _
  | refused r => exact .refused r

/-! ## What depends on the fields that agree -/

theorem firstRefused_congr {s t : Cpu z} (h : s.refused = t.refused) (a n : Nat) :
    s.firstRefused a n = t.firstRefused a n := by
  induction n generalizing a with
  | zero => rfl
  | succ n ih => simp only [Cpu.firstRefused, mapped_congr h, ih]

theorem accessFault_congr {s t : Cpu z} (h : s.refused = t.refused) (a : Word z) :
    s.accessFault a = t.accessFault a := by
  simp only [Cpu.accessFault, firstRefused_congr h]

theorem memRead_congr {s t : Cpu z} (hr : s.refused = t.refused) (hm : s.mem = t.mem) (a : Word z) :
    memRead s a = memRead t a := by
  simp only [memRead, accessFault_congr hr, hm]

theorem fetchInstr_congr {s t : Cpu z} (hpc : s.pc = t.pc) (hr : s.refused = t.refused) (hm : s.mem = t.mem)
    (hn : s.numGp = t.numGp) : fetchInstr s = fetchInstr t := by
  simp only [fetchInstr, fetchWords, memRead_congr hr hm, hpc, hn]

/-- A source reads the same where the registers that it can name hold the same values. -/
theorem readOperand_congr {s t : Cpu z} {a : Operand} (hpc : s.pc = t.pc) (hsp : s.sp = t.sp)
    (hgp : ∀ k, a = .reg (.gp k) → s.gp[k]?.map GpReg.value = t.gp[k]?.map GpReg.value) :
    readOperand s a = readOperand t a := by
  cases a with
  | imm n => rfl
  | reg r =>
    cases r with
    | pc => exact congrArg _ hpc
    | sp => exact congrArg _ hsp
    | gp k =>
      have hk := hgp k rfl
      simp only [readOperand, readReg]
      cases hs : s.gp[k]? <;> cases ht : t.gp[k]? <;> simp_all

namespace AgreeOn

variable {P : GpReg z → GpReg z → Prop} {Q O : Flag → Flag → Prop} {s t : Cpu z}

theorem numGp (h : AgreeOn P Q O s t) : s.numGp = t.numGp := h.gp.length_eq

theorem advance (h : AgreeOn P Q O s t) : AgreeOn P Q O s.advance t.advance :=
  { h with pc := congrArg (· + BitVec.ofNat z.W z.IB) h.pc }

theorem setPc (h : AgreeOn P Q O s t) (v : Word z) : AgreeOn P Q O (s.setPc v) (t.setPc v) :=
  { h with pc := rfl }

theorem setSp (h : AgreeOn P Q O s t) (v : Word z) : AgreeOn P Q O (s.setSp v) (t.setSp v) :=
  { h with sp := rfl }

theorem setCmp (h : AgreeOn P Q O s t) (b : Bool) : AgreeOn P Eq O (s.setCmp b) (t.setCmp b) :=
  { h with cmp := rfl }

theorem setOverflow (h : AgreeOn P Q O s t) (b : Bool) : AgreeOn P Q Eq (s.setOverflow b) (t.setOverflow b) :=
  { h with overflow := rfl }

theorem setHalt (h : AgreeOn P Q O s t) (b : Bool) : AgreeOn P Q O (s.setHalt b) (t.setHalt b) :=
  { h with halt := rfl }

theorem setMem (h : AgreeOn P Q O s t) (m : Memory) : AgreeOn P Q O (s.setMem m) (t.setMem m) :=
  { h with mem := rfl }

theorem tick (h : AgreeOn P Q O s t) : AgreeOn P Q O s.tick t.tick :=
  { h with draws := congrArg (· + 1) h.draws }

/-- The same value written to the same register. -/
theorem setGp (hP : ∀ q, P q q) (h : AgreeOn P Q O s t) (k : Nat) (v : Word z) :
    AgreeOn P Q O (s.setGp k v) (t.setGp k v) := by
  refine { h with gp := ?_ }
  rw [Cpu.setGp_gp, Cpu.setGp_gp]
  generalize s.gp = l, t.gp = l', h.gp = hl
  induction hl generalizing k with
  | nil => exact .nil
  | cons hq hl ih =>
    cases k with
    | zero => exact .cons (hP _) hl
    | succ k => exact .cons hq (ih k)

/-- A destination is written on both machines or faults alike on both. -/
theorem writeDst (hP : ∀ q, P q q) (h : AgreeOn P Q O s t) (d : WReg) (v : Word z)
    {R : Cpu z → Cpu z → Prop} {f g : Cpu z → CpuResult z}
    (hgo : ∀ s' t', AgreeOn P Q O s' t' → Related R (f s') (g t')) :
    Related R (withVal (writeDst s d v) f) (withVal (writeDst t d v) g) := by
  cases d with
  | sp =>
    simp only [Machine.writeDst]
    split_ifs with hv
    · exact .fault _
    · exact hgo _ _ (h.setSp v)
  | gp k =>
    simp only [Machine.writeDst, h.numGp]
    split_ifs with hk
    · exact hgo _ _ (h.setGp hP k v)
    · exact .fault _

/-- A word is stored on both machines or faults alike on both. -/
theorem memWrite (h : AgreeOn P Q O s t) (a v : Word z) {R : Cpu z → Cpu z → Prop} {f g : Cpu z → CpuResult z}
    (hgo : ∀ s' t', AgreeOn P Q O s' t' → Related R (f s') (g t')) :
    Related R (withVal (memWrite s a v) f) (withVal (memWrite t a v) g) := by
  simp only [Machine.memWrite, accessFault_congr h.refused, h.mem]
  cases t.accessFault a with
  | some e => exact .fault e
  | none => exact hgo _ _ (h.setMem _)

theorem branchBy (h : AgreeOn P Q O s t) (off : Word z) :
    Related (AgreeOn P Q O) (branchBy s off) (branchBy t off) := by
  simp only [Machine.branchBy, h.pc]
  split_ifs
  · exact .fault _
  · exact .next (h.setPc _)

end AgreeOn

/-! ## Every form answers alike -/

/-- An instruction whose sources read the same on two machines that agree, and `status.cmp` where it reads that,
answers alike on them; a flag that it writes it makes equal. -/
theorem Form.related {P : GpReg z → GpReg z → Prop} {Q O : Flag → Flag → Prop} {r : Row}
    {m : Cpu z → CpuResult z} {s t : Cpu z} (hm : Form r m) (hP : ∀ q, P q q) (h : AgreeOn P Q O s t)
    (hsrc : ∀ a ∈ r.sources, readOperand s a = readOperand t a)
    (hcmp : r.readsCmp = true → s.cmp.value = t.cmp.value) :
    Related (AgreeOn P (cond r.writesCmp Eq Q) (cond r.writesOverflow Eq O)) (m s) (m t) := by
  cases hm with
  | binary f d a b =>
    exact .withVal (hsrc a (by simp)) fun x => .withVal (hsrc b (by simp)) fun y =>
      h.writeDst hP d _ fun _ _ h' => .next h'
  | binaryFlag f g d a b =>
    exact .withVal (hsrc a (by simp)) fun x => .withVal (hsrc b (by simp)) fun y =>
      h.writeDst hP d _ fun _ _ h' => .next (h'.setOverflow _)
  | dividing f g d a b =>
    refine .withVal (hsrc a (by simp)) fun x => .withVal (hsrc b (by simp)) fun y => ?_
    split_ifs with hy
    · rw [Cpu.anyW, Cpu.anyW, h.draws]
      exact h.tick.writeDst hP d _ fun _ _ h' => .next (h'.setOverflow _)
    · exact h.writeDst hP d _ fun _ _ h' => .next (h'.setOverflow _)
  | unary f d a =>
    exact .withVal (hsrc a (by simp)) fun x => h.writeDst hP d _ fun _ _ h' => .next h'
  | shifting f d a b =>
    refine .withVal (hsrc a (by simp)) fun x => .withVal (hsrc b (by simp)) fun n => ?_
    split_ifs with hn
    · exact .fault _
    · exact h.writeDst hP d _ fun _ _ h' => .next h'
  | loading d a =>
    exact .withVal (hsrc a (by simp)) fun x => .withVal (memRead_congr h.refused h.mem x) fun v =>
      h.writeDst hP d v fun _ _ h' => .next h'
  | storing a b =>
    exact .withVal (hsrc a (by simp)) fun x => .withVal (hsrc b (by simp)) fun v =>
      h.memWrite x v fun _ _ h' => .next h'
  | comparing p a b =>
    exact .withVal (hsrc a (by simp)) fun x => .withVal (hsrc b (by simp)) fun y => .next (h.setCmp _)
  | pushing a =>
    refine .withVal (hsrc a (by simp)) fun v => ?_
    rw [pushAddress, pushAddress, h.sp]
    split_ifs with hsp
    · exact .fault _
    · exact h.memWrite _ v fun _ _ h' => .next (h'.setSp _)
  | popping d =>
    refine .withVal (h.sp ▸ memRead_congr h.refused h.mem s.sp) fun v => ?_
    have hbase : popBase d v s = popBase d v t := by rw [popBase, popBase, h.sp]
    rw [hbase, h.sp]
    split_ifs with hv hsp
    · exact .fault _
    · exact .fault _
    · exact h.writeDst hP d v fun _ _ h' => .next (h'.setSp _)
  | jumping a => exact .withVal (hsrc a (by simp)) fun v => .next (h.setPc v)
  | branching a => exact .withVal (hsrc a (by simp)) fun off => h.branchBy off
  | branchingIf a =>
    refine .withVal (hsrc a (by simp)) fun off => ?_
    rw [hcmp rfl]
    split_ifs with hc
    · exact h.branchBy off
    · exact .next h
  | halting => exact .next (h.setHalt true)

/-- The same of `exec`. -/
theorem exec_related {P : GpReg z → GpReg z → Prop} {Q O : Flag → Flag → Prop} {i : Instr} {s t : Cpu z}
    (hP : ∀ q, P q q) (h : AgreeOn P Q O s t) (hsrc : ∀ a ∈ sources i, readOperand s a = readOperand t a)
    (hcmp : readsCmp i = true → s.cmp.value = t.cmp.value) :
    Related (onStates (AgreeOn P (cond (writesCmp i) Eq Q) (cond (writesOverflow i) Eq O)))
      (exec i ⟨z, s⟩) (exec i ⟨z, t⟩) := by
  obtain ⟨m, hm, hexec⟩ := exists_form z i
  rw [hexec, hexec]
  exact (hm.related hP h hsrc hcmp).on

end Sys2Proof.Safety
end

section
/-! PROOFS of 10_state.md. `status.cmp` (R24), `status.overflow` (R25), and the strict machine of R36. -/

namespace Sys2Proof.Safety

open Config Machine

variable {z : WordSize}

/-! ## Who reads the flags -/

/-- Machines that agree on the registers read every source alike. -/
theorem AgreeOn.readOperand_eq {Q O : Flag → Flag → Prop} {s t : Cpu z} (h : AgreeOn Eq Q O s t) (a : Operand) :
    readOperand s a = readOperand t a := by
  have hgp : s.gp = t.gp := List.forall₂_eq_eq_eq ▸ h.gp
  exact readOperand_congr h.pc h.sp fun _ _ => by rw [hgp]

/-- Machines that agree on everything but the flags are the same with the flags of one of them. -/
theorem AgreeOn.eq_with_flags {Q O : Flag → Flag → Prop} {s t : Cpu z} (h : AgreeOn Eq Q O s t) :
    t = { s with cmp := t.cmp, overflow := t.overflow } := by
  obtain ⟨hpc, hsp, hgp, -, -, hhalt, hmem, hrefused, hdraws⟩ := h
  rw [List.forall₂_eq_eq_eq] at hgp
  rw [hpc, hsp, hgp, hhalt, hmem, hrefused, hdraws]

theorem AgreeOn.eq_withCmp {w : Bool} {f : Flag} {s t : Cpu z}
    (h : AgreeOn Eq (cond w Eq fun _ g => g = f) Eq s t) :
    State.mk z t = if w then ⟨z, s⟩ else withCmp f ⟨z, s⟩ := by
  cases w with
  | true =>
    have hc : s.cmp = t.cmp := h.cmp
    rw [h.eq_with_flags, ← hc, ← h.overflow]
    rfl
  | false =>
    have hc : t.cmp = f := h.cmp
    rw [h.eq_with_flags, hc, ← h.overflow]
    rfl

theorem AgreeOn.eq_withOverflow {w : Bool} {f : Flag} {s t : Cpu z}
    (h : AgreeOn Eq Eq (cond w Eq fun _ g => g = f) s t) :
    State.mk z t = if w then ⟨z, s⟩ else withOverflow f ⟨z, s⟩ := by
  cases w with
  | true =>
    have ho : s.overflow = t.overflow := h.overflow
    rw [h.eq_with_flags, ← ho, ← h.cmp]
    rfl
  | false =>
    have ho : t.overflow = f := h.overflow
    rw [h.eq_with_flags, ho, ← h.cmp]
    rfl

theorem agreeOn_withCmp (s : Cpu z) (f : Flag) : AgreeOn Eq (fun _ g => g = f) Eq s { s with cmp := f } :=
  ⟨rfl, rfl, List.forall₂_refl _, rfl, rfl, rfl, rfl, rfl, rfl⟩

theorem agreeOn_withOverflow (s : Cpu z) (f : Flag) :
    AgreeOn Eq Eq (fun _ g => g = f) s { s with overflow := f } :=
  ⟨rfl, rfl, List.forall₂_refl _, rfl, rfl, rfl, rfl, rfl, rfl⟩

/-- An instruction that does not read `status.cmp` does the same whatever that holds, and leaves it so unless it writes
it. -/
theorem exec_withCmp {i : Instr} (hread : readsCmp i = false) (s : State) (f : Flag) :
    exec i (withCmp f s) = mapNext (fun t => if writesCmp i then t else withCmp f t) (exec i s) := by
  obtain ⟨z, s⟩ := s
  have hagree := agreeOn_withCmp s f
  have hrel := exec_related (i := i) (fun _ => rfl) hagree (fun a _ => hagree.readOperand_eq a)
    (fun hc => absurd (hread.symm.trans hc) Bool.false_ne_true)
  refine (hrel.mono ?_).eq_mapNext
  rintro _ _ ⟨s', t', rfl, rfl, h⟩
  rw [Bool.cond_self] at h
  exact h.eq_withCmp

/-- No instruction reads `status.overflow`. -/
theorem exec_withOverflow (i : Instr) (s : State) (f : Flag) :
    exec i (withOverflow f s) =
      mapNext (fun t => if writesOverflow i then t else withOverflow f t) (exec i s) := by
  obtain ⟨z, s⟩ := s
  have hagree := agreeOn_withOverflow s f
  have hrel := exec_related (i := i) (fun _ => rfl) hagree (fun a _ => hagree.readOperand_eq a) (fun _ => rfl)
  refine (hrel.mono ?_).eq_mapNext
  rintro _ _ ⟨s', t', rfl, rfl, h⟩
  rw [Bool.cond_self] at h
  exact h.eq_withOverflow

/-- Settles O50: the effects say who writes the flag, `exec_withCmp` who reads it. -/
theorem cmpIsReadByBrcondOnly : Obligations.CmpIsReadByBrcondOnly := by
  refine ⟨?_, fun i s f hread => exec_withCmp hread s f⟩
  rintro i ⟨z, s⟩ u h
  obtain ⟨t, rfl, ht⟩ := exec_effect h
  exact ⟨ht.cmp_eq, ht.cmp_written⟩

/-- Settles O51: the effects say who writes the flag, `exec_withOverflow` that nothing reads it. -/
theorem overflowIsReadByNothing : Obligations.OverflowIsReadByNothing := by
  refine ⟨?_, exec_withOverflow⟩
  rintro i ⟨z, s⟩ u h
  obtain ⟨t, rfl, ht⟩ := exec_effect h
  exact ⟨ht.overflow_eq, ht.overflow_written⟩

/-! ## The strict machine -/

theorem unwrittenOperand_eq_some {s : Cpu z} {a : Operand} {u : Unwritten} :
    unwrittenOperand s a = some u ↔
      ∃ k q, a = .reg (.gp k) ∧ s.gp[k]? = some q ∧ q.written = false ∧ u = .gp k := by
  cases a with
  | imm n => simp [unwrittenOperand]
  | reg r =>
    cases r with
    | pc => simp [unwrittenOperand]
    | sp => simp [unwrittenOperand]
    | gp k =>
      simp only [unwrittenOperand]
      cases hk : s.gp[k]? with
      | none => simp [hk]
      | some q =>
        cases hw : q.written with
        | true => simp [hk, hw]
        | false => simpa [hk, hw] using eq_comm

/-- No source is a register without a value. -/
theorem findSome?_unwritten_eq_none {s : Cpu z} {i : Instr} :
    (sources i).findSome? (unwrittenOperand s) = none ↔
      ∀ k q, .reg (.gp k) ∈ sources i → s.gp[k]? = some q → q.written = true := by
  rw [List.findSome?_eq_none_iff]
  constructor
  · intro h k q hmem hq
    by_contra hw
    have hsome : unwrittenOperand s (.reg (.gp k)) = some (.gp k) :=
      unwrittenOperand_eq_some.2 ⟨k, q, rfl, hq, Bool.eq_false_iff.2 hw, rfl⟩
    exact absurd ((h _ hmem).symm.trans hsome) nofun
  · intro h a hmem
    by_contra hne
    obtain ⟨u, hu⟩ := Option.ne_none_iff_exists'.1 hne
    obtain ⟨k, q, rfl, hq, hw, -⟩ := unwrittenOperand_eq_some.1 hu
    exact absurd (hw.symm.trans (h k q hmem hq)) Bool.false_ne_true

/-- An instruction reads nothing without a value exactly where all its register sources have one, and `status.cmp`
where it reads that. -/
theorem unwrittenRead_eq_none {s : Cpu z} {i : Instr} :
    unwrittenRead s i = none ↔
      (∀ k q, .reg (.gp k) ∈ sources i → s.gp[k]? = some q → q.written = true) ∧
        (readsCmp i = true → s.cmp.written = true) := by
  rw [← findSome?_unwritten_eq_none, unwrittenRead]
  cases (sources i).findSome? (unwrittenOperand s) with
  | some u => simp
  | none => cases readsCmp i <;> cases s.cmp.written <;> simp

theorem strictExec_of_none {s : State} {i : Instr} (h : unwrittenRead s.cpu i = none) :
    strictExec i s = liftOutcome (exec i s) := by
  rw [strictExec, h]

theorem strictExec_of_some {s : State} {i : Instr} {u : Unwritten} (h : unwrittenRead s.cpu i = some u) :
    strictExec i s = .fault (.uninitialisedRead u) := by
  rw [strictExec, h]

theorem exists_strictExec_fault {s : State} {i : Instr} (h : unwrittenRead s.cpu i ≠ none) :
    ∃ u, strictExec i s = .fault (.uninitialisedRead u) := by
  obtain ⟨u, hu⟩ := Option.ne_none_iff_exists'.1 h
  exact ⟨u, strictExec_of_some hu⟩

/-- Settles O53, by `unwrittenRead_eq_none` both ways. -/
theorem unwrittenReadIsReported : Obligations.UnwrittenReadIsReported := by
  refine fun i s => ⟨fun k q hmem hq hw => ?_, fun hr hw => ?_, fun hgp hcmp => ?_⟩
  · refine exists_strictExec_fault fun hnone => ?_
    exact absurd (hw.symm.trans ((unwrittenRead_eq_none.1 hnone).1 k q hmem hq)) Bool.false_ne_true
  · refine exists_strictExec_fault fun hnone => ?_
    exact absurd (hw.symm.trans ((unwrittenRead_eq_none.1 hnone).2 hr)) Bool.false_ne_true
  · exact strictExec_of_none (unwrittenRead_eq_none.2 ⟨hgp, hcmp⟩)

theorem liftOutcome_next {x : Result} {t : State} : liftOutcome x = .next t ↔ x = .next t := by
  cases x <;> simp [liftOutcome]

theorem liftOutcome_fault {x : Result} {f : Fault} : liftOutcome x = .fault (.fault f) ↔ x = .fault f := by
  cases x <;> simp [liftOutcome]

theorem liftOutcome_ne_uninitialisedRead (x : Result) (u : Unwritten) :
    liftOutcome x ≠ .fault (.uninitialisedRead u) := by
  cases x <;> simp [liftOutcome]

/-- A strict step is the step of the model, or reports what the fetched instruction reads unwritten. -/
theorem strictStep_cases (s : State) :
    strictStep s = liftOutcome (step s) ∨
      (s.cpu.halt = false ∧ ∃ i u, fetchInstr s.cpu = .ok i ∧ unwrittenRead s.advance.cpu i = some u ∧
        strictStep s = .fault (.uninitialisedRead u)) := by
  unfold strictStep step
  cases s.cpu.halt with
  | true => exact .inl rfl
  | false =>
    cases fetchInstr s.cpu with
    | error e => exact .inl rfl
    | ok i =>
      cases hu : unwrittenRead s.advance.cpu i with
      | none => exact .inl (strictExec_of_none hu)
      | some u => exact .inr ⟨rfl, i, u, rfl, hu, strictExec_of_some hu⟩

/-- Settles O52: the two cases of a strict step. -/
theorem strictStepAgreesWithStep : Obligations.StrictStepAgreesWithStep := by
  intro s
  obtain h | ⟨hrun, i, u, hi, hu, h⟩ := strictStep_cases s
  · rw [h]
    exact ⟨fun _ => liftOutcome_next.1, fun _ => liftOutcome_fault.1,
      fun u hu => absurd hu (liftOutcome_ne_uninitialisedRead _ u)⟩
  · rw [h]
    refine ⟨nofun, nofun, fun u' hu' => ⟨hrun, i, hi, ?_⟩⟩
    cases hu'
    exact hu

/-! ## The strict machine cannot see unwritten values -/

theorem sameWritten_iff {s t : Cpu z} : sameWritten s t ↔ AgreeOn sameReg sameFlag sameFlag s t := by
  constructor
  · rintro ⟨hpc, hsp, hgp, hcmp, hov, hhalt, hmem, href, hdraws⟩
    exact ⟨hpc, hsp, hgp, hcmp, hov, hhalt, hmem, href, hdraws⟩
  · rintro ⟨hpc, hsp, hgp, hcmp, hov, hhalt, hmem, href, hdraws⟩
    exact ⟨hpc, hsp, hgp, hcmp, hov, hhalt, hmem, href, hdraws⟩

theorem sameFlag_of_eq {f g : Flag} (h : f = g) : sameFlag f g := h ▸ ⟨rfl, fun _ => rfl⟩

/-- A flag that an instruction made equal, or left as it was, is the same where it has a value. -/
theorem sameFlag_of_cond {w : Bool} {f g : Flag} (h : cond w Eq sameFlag f g) : sameFlag f g := by
  cases w with
  | true => exact sameFlag_of_eq h
  | false => exact h

/-- Register `k` exists on both machines or on neither, and is the same where it has a value. -/
theorem sameReg_getElem? {l l' : List (GpReg z)} (h : List.Forall₂ sameReg l l') (k : Nat) :
    Option.Rel sameReg l[k]? l'[k]? := by
  induction h generalizing k with
  | nil => exact .none
  | cons hq _ ih =>
    cases k with
    | zero => exact .some hq
    | succ k => exact ih k

theorem unwrittenOperand_congr {s t : Cpu z} (h : sameWritten s t) (a : Operand) :
    unwrittenOperand s a = unwrittenOperand t a := by
  cases a with
  | imm n => rfl
  | reg r =>
    cases r with
    | pc => rfl
    | sp => rfl
    | gp k =>
      have hrel := sameReg_getElem? (sameWritten_iff.1 h).gp k
      simp only [unwrittenOperand]
      generalize s.gp[k]? = x, t.gp[k]? = y at hrel
      cases hrel with
      | none => rfl
      | some hq => simp only [hq.1]

theorem unwrittenRead_congr {s t : Cpu z} (h : sameWritten s t) (i : Instr) :
    unwrittenRead s i = unwrittenRead t i := by
  simp only [unwrittenRead, funext (unwrittenOperand_congr h), (sameWritten_iff.1 h).cmp.1]

/-- A source that is no register without a value reads the same. -/
theorem readOperand_of_sameWritten {s t : Cpu z} (h : sameWritten s t) {a : Operand}
    (ha : ∀ k q, a = .reg (.gp k) → s.gp[k]? = some q → q.written = true) :
    readOperand s a = readOperand t a := by
  have h' := sameWritten_iff.1 h
  refine readOperand_congr h'.pc h'.sp fun k hk => ?_
  have hw := fun q => ha k q hk
  have hrel := sameReg_getElem? h'.gp k
  generalize s.gp[k]? = x, t.gp[k]? = y at hw hrel
  cases hrel with
  | none => rfl
  | some hq => exact congrArg some (hq.2 (hw _ rfl))

/-- On machines that are the same where written, the strict machine executes an instruction alike. -/
theorem strictExec_sameWritten {s t : Cpu z} (h : sameWritten s t) (i : Instr) :
    Related (onStates (z := z) sameWritten) (strictExec i ⟨z, s⟩) (strictExec i ⟨z, t⟩) := by
  have hu := unwrittenRead_congr h i
  cases hs : unwrittenRead s i with
  | some u =>
    rw [strictExec_of_some hs, strictExec_of_some (hu.symm.trans hs)]
    exact .fault _
  | none =>
    obtain ⟨hgp, hcmp⟩ := unwrittenRead_eq_none.1 hs
    have h' := sameWritten_iff.1 h
    have hrel := exec_related (i := i) (fun _ => ⟨rfl, fun _ => rfl⟩) h'
      (fun a ha => readOperand_of_sameWritten h fun k q hk => hgp k q (hk ▸ ha)) (fun hr => h'.cmp.2 (hcmp hr))
    rw [strictExec_of_none hs, strictExec_of_none (hu.symm.trans hs)]
    refine (hrel.mono ?_).liftOutcome
    rintro _ _ ⟨s', t', rfl, rfl, ht⟩
    refine ⟨s', t', rfl, rfl, sameWritten_iff.2 ?_⟩
    exact { ht with cmp := sameFlag_of_cond ht.cmp, overflow := sameFlag_of_cond ht.overflow }

/-- The same of a step: the fetch sees nothing that can differ. -/
theorem strictStep_sameWritten {s t : Cpu z} (h : sameWritten s t) :
    Related (onStates (z := z) sameWritten) (strictStep ⟨z, s⟩) (strictStep ⟨z, t⟩) := by
  have h' := sameWritten_iff.1 h
  simp only [strictStep, h'.halt, fetchInstr_congr h'.pc h'.refused h'.mem h'.numGp, State.advance_mk]
  cases t.halt with
  | true => exact .next ⟨s, t, rfl, rfl, h⟩
  | false =>
    cases fetchInstr t with
    | error e => exact .fault _
    | ok i => exact strictExec_sameWritten (sameWritten_iff.2 h'.advance) i

/-- Settles O54: two strict steps side by side have outcomes of one kind. -/
theorem strictMachineIgnoresUnwrittenValues : Obligations.StrictMachineIgnoresUnwrittenValues := by
  intro z s t h
  have hrel := strictStep_sameWritten h
  generalize strictStep ⟨z, s⟩ = x, strictStep ⟨z, t⟩ = y at hrel ⊢
  cases hrel with
  | next hst =>
    obtain ⟨s', t', rfl, rfl, h'⟩ := hst
    exact ⟨fun u hu => ⟨s', t', (Host.Outcome.next.inj hu).symm, rfl, h'⟩, nofun⟩
  | fault e => exact ⟨nofun, fun _ => id⟩
  | refused r => exact ⟨nofun, nofun⟩

end Sys2Proof.Safety
end

section
/-! PROOFS of 10_state.md. The step (R31, R32), `%status.halt` (R26), the host's `%status` word (R27), and the state
after start-up (R41). -/

namespace Sys2Proof.Machine

open Config Safety

variable {z : WordSize}

/-! ## The bytes of a fetch -/

theorem Memory.bytesAt_add (m : Memory) (a n k : Nat) :
    m.bytesAt a (n + k) = m.bytesAt a n ++ m.bytesAt (a + n) k := by
  induction n generalizing a with
  | zero => simp [Memory.bytesAt]
  | succ n ih =>
    rw [Nat.succ_add, Memory.bytesAt, ih, Memory.bytesAt, List.cons_append, Nat.succ_add_eq_add_succ]

/-- A piece of the bytes from `a` up is the bytes from where it begins. -/
theorem Memory.take_drop_bytesAt (m : Memory) (a : Nat) {n j k : Nat} (h : j + k ≤ n) :
    ((m.bytesAt a n).drop j).take k = m.bytesAt (a + j) k := by
  obtain ⟨l, rfl⟩ := Nat.exists_eq_add_of_le h
  rw [Nat.add_assoc, Memory.bytesAt_add, List.drop_left' (m.length_bytesAt a j), Memory.bytesAt_add,
    List.take_left' (m.length_bytesAt _ k)]

/-- A word inside a range of bytes that are all `ram` reads as those bytes say. -/
theorem memRead_of_allRam {s : Cpu z} {a : Word z} {n k : Nat} (hram : allRam s a.toNat n) (hk : k + z.WB ≤ n)
    (hn : a.toNat + n < z.addressSpace) :
    memRead s (a + BitVec.ofNat z.W k) = .ok (s.mem.wordAt z (a.toNat + k)) := by
  have hsum : (a + BitVec.ofNat z.W k).toNat = a.toNat + k := toNat_add_of_lt (by omega)
  refine memRead_ok.2 ⟨⟨by omega, fun i hi => ?_⟩, by rw [hsum]⟩
  rw [hsum, Nat.add_assoc]
  exact hram (k + i) (by omega)

/-- The four words that a fetch reads are those of the `IB` bytes (R61, R80). -/
theorem fetchWords_of_allRam {s : Cpu z} {a : Word z} (hram : allRam s a.toNat z.IB)
    (h : a.toNat + z.IB < z.addressSpace) :
    fetchWords s a = .ok (wordsOfBytes z (s.mem.bytesAt a.toNat z.IB)) := by
  have hIB := z.IB_eq
  have h0 := memRead_of_allRam (k := 0) hram (by omega) h
  have h1 := memRead_of_allRam (k := z.WB) hram (by omega) h
  have h2 := memRead_of_allRam (k := 2 * z.WB) hram (by omega) h
  have h3 := memRead_of_allRam (k := 3 * z.WB) hram (by omega) h
  rw [BitVec.add_zero, Nat.add_zero] at h0
  have piece := fun j (hj : j + z.WB ≤ z.IB) => Memory.take_drop_bytesAt s.mem a.toNat hj
  have piece0 : (s.mem.bytesAt a.toNat z.IB).take z.WB = s.mem.bytesAt a.toNat z.WB := piece 0 (by omega)
  simp only [fetchWords, h0, h1, h2, h3, wordsOfBytes, Memory.wordAt, piece0, piece z.WB (by omega),
    piece (2 * z.WB) (by omega), piece (3 * z.WB) (by omega)]

/-- What the byte decoder accepts, the word decoder accepts on the first four words. -/
theorem decode_of_decodeBytes {n : Nat} {bs rest : List Byte} {i : Instr}
    (h : decodeBytes z n bs = .ok (i, rest)) : decode n (wordsOfBytes z bs) = .ok i := by
  unfold decodeBytes at h
  split_ifs at h
  cases hd : decode n (wordsOfBytes z bs) with
  | error e => rw [hd] at h; cases h
  | ok j => rw [hd] at h; cases h; rfl

/-- A running machine executes what it fetches. -/
theorem step_of_fetchInstr {s : Cpu z} {i : Instr} (hrun : s.halt = false) (hi : fetchInstr s = .ok i) :
    step ⟨z, s⟩ = exec i ⟨z, s.advance⟩ := by
  simp only [step, hrun, hi, Bool.false_eq_true, if_false, State.advance_mk]

/-- A running machine faults as its fetch does. -/
theorem step_of_fetchInstr_error {s : Cpu z} {e : Fault} (hrun : s.halt = false) (he : fetchInstr s = .error e) :
    step ⟨z, s⟩ = .fault e := by
  simp only [step, hrun, he, Bool.false_eq_true, if_false]

/-- Settles O9: the words fetched are those of the bytes decoded. -/
theorem stepRunsTheDecodedInstruction : Obligations.StepRunsTheDecodedInstruction :=
  fun _ _ _ hrun htop hram hdec =>
    step_of_fetchInstr hrun
      (fetchInstr_ok.2 ⟨htop, _, fetchWords_of_allRam hram htop, decode_of_decodeBytes hdec⟩)

/-- Settles O11: the first test of a fetch. -/
theorem stepPastTheTopFaults : Obligations.StepPastTheTopFaults := fun _ _ hrun htop =>
  step_of_fetchInstr_error hrun (if_pos htop)

/-! ## The halt flag -/

/-- The host acts before `Start` only (R256). -/
theorem Session.exists_loading_of_host {c d : Session} {a : HostAction} (h : c.host a = some d) :
    ∃ s, c = .loading s := by
  cases c with
  | loading s => exact ⟨s, rfl⟩
  | running | halted | faulted | refused => cases h

theorem step_of_halted {s : State} (h : s.cpu.halt = true) : step s = .next s := if_pos h

/-- Whenever an instruction answers a next state, `halt` has set the flag and every other one has left it. -/
theorem halt_of_exec {i : Instr} {s t : State} (h : exec i s = .next t) :
    (i = .halt ∧ t.cpu.halt = true) ∨ (i ≠ .halt ∧ t.cpu.halt = s.cpu.halt) := by
  obtain ⟨z, s⟩ := s
  obtain ⟨t, rfl, ht⟩ := exec_effect h
  have hflag : t.halt = (decide (i = .halt) || s.halt) := ht.halt_eq
  by_cases hi : i = .halt
  · exact .inl ⟨hi, by rw [hflag, decide_eq_true hi, Bool.true_or]⟩
  · exact .inr ⟨hi, by rw [hflag, decide_eq_false hi, Bool.false_or]⟩

/-- Settles O13: `halt_of_exec` for the machine, the cases of `Session.host` for the host. -/
theorem haltIsWrittenByHaltOnly : Obligations.HaltIsWrittenByHaltOnly := by
  refine ⟨rfl, fun _ _ _ => halt_of_exec, fun _ => step_of_halted, fun _ _ _ => Session.exists_loading_of_host,
    fun _ _ => rfl, fun z s x b hm => ⟨fun hx => ⟨s.mem.setByte x b, ?_, ?_⟩, fun hx => ?_⟩⟩
  · rw [Session.host, if_pos hx, Cpu.placeByte, if_pos hx]
    rfl
  · exact fun y => Memory.byteAt_setByte x y b hm
  · rw [Session.host, if_neg (not_lt.2 hx)]

/-! ## The host's status word -/

/-- Setting or clearing a bit changes that bit and no other. -/
theorem getLsbD_withBit {w : Word z} {i j : Nat} (b : Bool) (hj : j < z.W) :
    (withBit w i b).getLsbD j = if j = i then b else w.getLsbD j := by
  have hone : ((1 : Word z) <<< i).getLsbD j = decide (j = i) := by
    rw [show (1 : Word z) <<< i = BitVec.twoPow z.W i from (BitVec.twoPow_eq z.W i).symm, BitVec.getLsbD_twoPow]
    by_cases h : j = i
    · simp [← h, hj]
    · simp [h, Ne.symm h]
  unfold withBit
  cases b with
  | true =>
    rw [if_pos rfl, BitVec.getLsbD_or, hone]
    by_cases h : j = i <;> simp [h]
  | false =>
    rw [if_neg Bool.false_ne_true, BitVec.getLsbD_and, BitVec.getLsbD_not, hone, decide_eq_true hj]
    by_cases h : j = i <;> simp [h]

/-- Every bit of the host's word: a flag's view at its place, the filler elsewhere. -/
theorem getLsbD_statusWord {l : StatusLayout} {f : Word z} {s : Cpu z} {j : Nat} (hj : j < z.W) :
    (statusWord l f s).getLsbD j =
      if j = l.halt then s.halt
      else if j = l.overflow then s.overflow.view (f.getLsbD l.overflow)
      else if j = l.cmp then s.cmp.view (f.getLsbD l.cmp)
      else f.getLsbD j := by
  rw [statusWord, getLsbD_withBit _ hj, getLsbD_withBit _ hj, getLsbD_withBit _ hj]

theorem Flag.view_of_written {f : Flag} (h : f.written = true) (b : Bool) : f.view b = f.value := if_pos h

theorem Flag.view_of_unwritten {f : Flag} (h : f.written = false) (b : Bool) : f.view b = b := by
  rw [Flag.view, h, if_neg Bool.false_ne_true]

/-- Settles O56: the three positions are distinct, so `getLsbD_statusWord` gives each flag at its own. -/
theorem statusWordBits : Obligations.StatusWordBits := by
  intro z l f s hl
  obtain ⟨hc, ho, hh, hco, hch, hoh⟩ := of_decide_eq_true hl
  have hcmp : (statusWord l f s).getLsbD l.cmp = s.cmp.view (f.getLsbD l.cmp) := by
    rw [getLsbD_statusWord hc, if_neg hch, if_neg hco, if_pos rfl]
  have hov : (statusWord l f s).getLsbD l.overflow = s.overflow.view (f.getLsbD l.overflow) := by
    rw [getLsbD_statusWord ho, if_neg hoh, if_pos rfl]
  refine ⟨by rw [getLsbD_statusWord hh, if_pos rfl], fun hw => ?_, fun hw => ?_, fun hw => ?_, fun hw => ?_,
    fun j hj h1 h2 h3 => ?_⟩
  · rw [hcmp, Flag.view_of_written hw]
  · rw [hov, Flag.view_of_written hw]
  · rw [hcmp, Flag.view_of_unwritten hw]
  · rw [hov, Flag.view_of_unwritten hw]
  · rw [getLsbD_statusWord hj, if_neg h3, if_neg h2, if_neg h1]

/-! ## Start-up and what the host may do before `Start` -/

/-- A machine after start-up meets the invariant: its `%sp` is zero (R35, R41). -/
theorem inv_start {n : Nat} (r : List Region) (hn : legalNumGp z n) : Inv ⟨z, Cpu.start z n r⟩ :=
  ⟨wf_start n r, Nat.zero_mod _, by rwa [Cpu.numGp_start]⟩

theorem Session.inv_host {c d : Session} {a : HostAction} (h : c.host a = some d) (hc : Inv c.state) :
    Inv d.state := by
  obtain ⟨⟨z, s⟩, rfl⟩ := exists_loading_of_host h
  obtain ⟨hmem, hsp, hgp⟩ := hc
  cases a with
  | writeByte x b =>
    rw [host, Option.ite_none_right_eq_some, Option.some.injEq] at h
    obtain ⟨-, rfl⟩ := h
    rw [Cpu.placeByte_eq]
    exact ⟨wf_placeByte x b hmem, hsp, hgp⟩
  | start =>
    cases h
    exact ⟨hmem, hsp, hgp⟩

theorem Session.inv_hostAll {c d : Session} {as : List HostAction} (h : c.hostAll as = some d)
    (hc : Inv c.state) : Inv d.state := by
  induction as generalizing c with
  | nil =>
    cases h
    exact hc
  | cons a as ih =>
    rw [hostAll] at h
    cases hd : c.host a with
    | none => rw [hd] at h; cases h
    | some e => rw [hd] at h; exact ih h (inv_host hd hc)

/-- Settles O19: `inv_start`, and each action of the host keeps the invariant. -/
theorem resetMeetsTheInvariant : Obligations.ResetMeetsTheInvariant := by
  refine ⟨inv_start [] (by decide), fun w n r c d as hbegin has => ?_⟩
  obtain ⟨s, hs, rfl⟩ := Option.map_eq_some_iff.1 hbegin
  obtain ⟨z, -, hn, rfl⟩ := startUp_eq_some_iff.1 hs
  exact ⟨inv_start r hn, Session.inv_hostAll has (inv_start r hn)⟩

/-- Settles O22: the fields of `Cpu.start` at the reference configuration. -/
theorem resetState : Obligations.ResetState := by
  refine ⟨rfl, rfl, rfl, rfl, rfl, fun q hq => ?_, rfl, Cpu.numGp_start .., fun _ => rfl, fun _ => rfl⟩
  rw [List.eq_of_mem_replicate hq]
  rfl

end Sys2Proof.Machine
end

section
/-! PROOFS of 30_encoding.md and 70_reset_and_hazards.md. What the decoder answers on the words and the bytes of an
encoded instruction (R94, R107), and on a program loaded at address 0. -/

namespace Sys2Proof

open Config Machine

variable {z : WordSize} {n : Nat}

/-! ## The fields of an encoded operation word (R81) -/

section Fields

variable {op k1 k2 k3 : Nat} (h : op < 256) (h1 : k1 < 4) (h2 : k2 < 4) (h3 : k3 < 4)
include h h1 h2 h3

theorem opcodeOf_opWord : opcodeOf (opWord z op k1 k2 k3) = op := by
  rw [opcodeOf_eq, toNat_opWord h h1 h2 h3]; omega

theorem rsvdOf_opWord : rsvdOf (opWord z op k1 k2 k3) = 0 := by
  rw [rsvdOf_eq_zero, toNat_opWord h h1 h2 h3]; omega

theorem k1Of_opWord : k1Of (opWord z op k1 k2 k3) = kindOf (BitVec.ofNat 2 k1) := by
  refine congrArg kindOf (BitVec.eq_of_toNat_eq ?_)
  rw [toNat_extract_two, toNat_opWord h h1 h2 h3, BitVec.toNat_ofNat]; omega

theorem k2Of_opWord : k2Of (opWord z op k1 k2 k3) = kindOf (BitVec.ofNat 2 k2) := by
  refine congrArg kindOf (BitVec.eq_of_toNat_eq ?_)
  rw [toNat_extract_two, toNat_opWord h h1 h2 h3, BitVec.toNat_ofNat]; omega

theorem k3Of_opWord : k3Of (opWord z op k1 k2 k3) = kindOf (BitVec.ofNat 2 k3) := by
  refine congrArg kindOf (BitVec.eq_of_toNat_eq ?_)
  rw [toNat_extract_two, toNat_opWord h h1 h2 h3, BitVec.toNat_ofNat]; omega

end Fields

/-! ## Register codes (R29) -/

/-- Every operand-code of a machine with a legal number of registers fits a word (R5). -/
theorem toNat_gpCode (hn : legalNumGp z n) {k : Nat} (hk : k < n) :
    (BitVec.ofNat z.W (256 + k)).toNat = 256 + k := by
  have hle := hn.2
  rw [z.addressSpace_eq] at hle
  rw [BitVec.toNat_ofNat, Nat.mod_eq_of_lt (by omega)]

theorem toNat_of_lt_four {k : Nat} (hk : k < 4) : (BitVec.ofNat z.W k).toNat = k := by
  have hz := z.le_addressSpace
  rw [z.addressSpace_eq] at hz
  rw [BitVec.toNat_ofNat, Nat.mod_eq_of_lt (by omega)]

theorem toNat_WReg_code (hn : legalNumGp z n) {d : WReg} (hd : d.wf n = true) :
    (d = .sp ∧ (d.code z).toNat = 2) ∨ ∃ k, k < n ∧ d = .gp k ∧ (d.code z).toNat = 256 + k := by
  cases d with
  | sp => exact .inl ⟨rfl, toNat_of_lt_four (by decide)⟩
  | gp k =>
    have hk := of_decide_eq_true hd
    exact .inr ⟨k, hk, rfl, toNat_gpCode hn hk⟩

theorem toNat_RReg_code (hn : legalNumGp z n) {r : RReg} (hr : r.wf n = true) :
    (r = .pc ∧ (r.code z).toNat = 1) ∨ (r = .sp ∧ (r.code z).toNat = 2) ∨
      ∃ k, k < n ∧ r = .gp k ∧ (r.code z).toNat = 256 + k := by
  cases r with
  | pc => exact .inl ⟨rfl, toNat_of_lt_four (by decide)⟩
  | sp => exact .inr (.inl ⟨rfl, toNat_of_lt_four (by decide)⟩)
  | gp k =>
    have hk := of_decide_eq_true hr
    exact .inr (.inr ⟨k, hk, rfl, toNat_gpCode hn hk⟩)

theorem dstOf_code (hn : legalNumGp z n) {d : WReg} (hd : d.wf n = true) : dstOf (d.code z) = d := by
  obtain ⟨rfl, hc⟩ | ⟨k, -, rfl, hc⟩ := toNat_WReg_code hn hd
  · rw [dstOf, if_pos hc]
  · rw [dstOf, if_neg (by omega), hc, Nat.add_sub_cancel_left]

theorem rregOf_code (hn : legalNumGp z n) {r : RReg} (hr : r.wf n = true) : rregOf (r.code z) = r := by
  obtain ⟨rfl, hc⟩ | ⟨rfl, hc⟩ | ⟨k, -, rfl, hc⟩ := toNat_RReg_code hn hr
  · rw [rregOf, if_pos hc]
  · rw [rregOf, if_neg (by omega), if_pos hc]
  · rw [rregOf, if_neg (by omega), if_neg (by omega), hc, Nat.add_sub_cancel_left]

theorem srcOf_slot (hn : legalNumGp z n) {a : Operand} (ha : a.wf z n = true) :
    srcOf (kindOf (BitVec.ofNat 2 a.kind)) (a.slot z) = a := by
  cases a with
  | imm v =>
    have hv : v < 2 ^ z.W := of_decide_eq_true ha
    exact congrArg Operand.imm ((BitVec.toNat_ofNat ..).trans (Nat.mod_eq_of_lt hv))
  | reg r => exact congrArg Operand.reg (rregOf_code hn ha)

/-! ## Valid slots (R88) -/

/-- V3 to V8 on one slot of an instruction. -/
structure SlotValid (n : Nat) (sl : Slot) (k : Kind) (w : Word z) : Prop where
  fits : sl.fits k = true
  zero : slotZero k w = true
  exist : slotExists n k w = true
  readable : slotReadable sl k w = true
  writable : slotWritable sl w = true

theorem SlotValid.kind_ne_reserved {sl : Slot} {k : Kind} {w : Word z} (h : SlotValid n sl k w) : k ≠ .reserved := by
  rintro rfl
  cases sl <;> exact absurd h.fits Bool.false_ne_true

theorem slotValid_unused : SlotValid n .none .none (0 : Word z) :=
  ⟨rfl, by simp [slotZero], rfl, rfl, rfl⟩

theorem slotValid_dst (hn : legalNumGp z n) {d : WReg} (hd : d.wf n = true) :
    SlotValid n .dst .reg (d.code z) := by
  obtain ⟨-, hc⟩ | ⟨k, hk, -, hc⟩ := toNat_WReg_code hn hd
  · exact ⟨rfl, rfl, by simp [slotExists, registerExists, hc], rfl, by simp [slotWritable, hc]⟩
  · exact ⟨rfl, rfl, by simp [slotExists, registerExists, hc, hk], rfl, by simp [slotWritable, hc]; omega⟩

theorem slotValid_src (hn : legalNumGp z n) {a : Operand} (ha : a.wf z n = true) :
    SlotValid n .src (kindOf (BitVec.ofNat 2 a.kind)) (a.slot z) := by
  cases a with
  | imm v => exact ⟨rfl, rfl, rfl, rfl, rfl⟩
  | reg r =>
    have hkind : kindOf (BitVec.ofNat 2 (Operand.reg r).kind) = .reg := rfl
    rw [hkind, Operand.slot]
    obtain ⟨-, hc⟩ | ⟨-, hc⟩ | ⟨k, hk, -, hc⟩ := toNat_RReg_code hn ha
    · exact ⟨rfl, rfl, by simp [slotExists, registerExists, hc], by simp [slotReadable, hc], rfl⟩
    · exact ⟨rfl, rfl, by simp [slotExists, registerExists, hc], by simp [slotReadable, hc], rfl⟩
    · exact ⟨rfl, rfl, by simp [slotExists, registerExists, hc, hk], by simp [slotReadable, hc]; omega, rfl⟩

/-- Words whose opcode has a shape, with no reserved bit and three valid slots, meet V1 to V8. -/
theorem firstInvalid_eq_none {ws : Words z} {sh : Shape} (hsh : shapeOf (opcodeOf ws.w0) = some sh)
    (hrsvd : rsvdOf ws.w0 = 0) (h1 : SlotValid n sh.s1 (k1Of ws.w0) ws.w1)
    (h2 : SlotValid n sh.s2 (k2Of ws.w0) ws.w2) (h3 : SlotValid n sh.s3 (k3Of ws.w0) ws.w3) :
    firstInvalid n ws = none := by
  simp [firstInvalid, hsh, hrsvd, h1.kind_ne_reserved, h2.kind_ne_reserved, h3.kind_ne_reserved, h1.fits, h2.fits,
    h3.fits, h1.zero, h2.zero, h3.zero, h1.exist, h2.exist, h3.exist, h1.readable, h2.readable, h3.readable,
    h1.writable, h2.writable, h3.writable]

/-! ## Decoding an encoded instruction, shape by shape (R87) -/

/-- An encoded operation word with a known opcode and valid slots decodes to what the opcode builds. -/
theorem decode_opWord {op k1 k2 k3 : Nat} {w1 w2 w3 : Word z} {sh : Shape} {i : Instr} (hop : op < 256)
    (hk1 : k1 < 4) (hk2 : k2 < 4) (hk3 : k3 < 4) (hsh : shapeOf op = some sh)
    (h1 : SlotValid n sh.s1 (kindOf (BitVec.ofNat 2 k1)) w1) (h2 : SlotValid n sh.s2 (kindOf (BitVec.ofNat 2 k2)) w2)
    (h3 : SlotValid n sh.s3 (kindOf (BitVec.ofNat 2 k3)) w3)
    (hbuild : ∀ w0 : Word z, opcodeOf w0 = op → k1Of w0 = kindOf (BitVec.ofNat 2 k1) →
      k2Of w0 = kindOf (BitVec.ofNat 2 k2) → k3Of w0 = kindOf (BitVec.ofNat 2 k3) → build ⟨w0, w1, w2, w3⟩ = .ok i) :
    decode n ⟨opWord z op k1 k2 k3, w1, w2, w3⟩ = .ok i := by
  have fop := opcodeOf_opWord (z := z) hop hk1 hk2 hk3
  have f1 := k1Of_opWord (z := z) hop hk1 hk2 hk3
  have f2 := k2Of_opWord (z := z) hop hk1 hk2 hk3
  have f3 := k3Of_opWord (z := z) hop hk1 hk2 hk3
  have hnone : firstInvalid n ⟨opWord z op k1 k2 k3, w1, w2, w3⟩ = none :=
    firstInvalid_eq_none ((congrArg shapeOf fop).trans hsh) (rsvdOf_opWord hop hk1 hk2 hk3) (f1 ▸ h1) (f2 ▸ h2)
      (f3 ▸ h3)
  rw [decode, hnone]
  exact hbuild _ fop f1 f2 f3

section Shapes

variable {op : Nat} {d : WReg} {a b : Operand} (hn : legalNumGp z n) (hop : op < 256)
include hn hop

theorem decode_encDSS (con : WReg → Operand → Operand → Instr) (hsh : shapeOf op = some ⟨.dst, .src, .src⟩)
    (hwf : (d.wf n && a.wf z n && b.wf z n) = true)
    (hbuild : ∀ ws : Words z, opcodeOf ws.w0 = op →
      build ws = .ok (con (dstOf ws.w1) (srcOf (k2Of ws.w0) ws.w2) (srcOf (k3Of ws.w0) ws.w3))) :
    decode n (encDSS z op d a b) = .ok (con d a b) := by
  simp only [Bool.and_eq_true] at hwf
  obtain ⟨⟨hd, ha⟩, hb⟩ := hwf
  refine decode_opWord hop (by decide) a.kind_lt b.kind_lt hsh (slotValid_dst hn hd) (slotValid_src hn ha)
    (slotValid_src hn hb) fun w0 hw _ h2 h3 => ?_
  rw [hbuild ⟨w0, _, _, _⟩ hw, h2, h3, dstOf_code hn hd, srcOf_slot hn ha, srcOf_slot hn hb]

theorem decode_encDS (con : WReg → Operand → Instr) (hsh : shapeOf op = some ⟨.dst, .src, .none⟩)
    (hwf : (d.wf n && a.wf z n) = true)
    (hbuild : ∀ ws : Words z, opcodeOf ws.w0 = op → build ws = .ok (con (dstOf ws.w1) (srcOf (k2Of ws.w0) ws.w2))) :
    decode n (encDS z op d a) = .ok (con d a) := by
  simp only [Bool.and_eq_true] at hwf
  obtain ⟨hd, ha⟩ := hwf
  refine decode_opWord hop (by decide) a.kind_lt (by decide) hsh (slotValid_dst hn hd) (slotValid_src hn ha)
    slotValid_unused fun w0 hw _ h2 _ => ?_
  rw [hbuild ⟨w0, _, _, _⟩ hw, h2, dstOf_code hn hd, srcOf_slot hn ha]

theorem decode_encSS (con : Operand → Operand → Instr) (hsh : shapeOf op = some ⟨.src, .src, .none⟩)
    (hwf : (a.wf z n && b.wf z n) = true)
    (hbuild : ∀ ws : Words z, opcodeOf ws.w0 = op →
      build ws = .ok (con (srcOf (k1Of ws.w0) ws.w1) (srcOf (k2Of ws.w0) ws.w2))) :
    decode n (encSS z op a b) = .ok (con a b) := by
  simp only [Bool.and_eq_true] at hwf
  obtain ⟨ha, hb⟩ := hwf
  refine decode_opWord hop a.kind_lt b.kind_lt (by decide) hsh (slotValid_src hn ha) (slotValid_src hn hb)
    slotValid_unused fun w0 hw h1 h2 _ => ?_
  rw [hbuild ⟨w0, _, _, _⟩ hw, h1, h2, srcOf_slot hn ha, srcOf_slot hn hb]

theorem decode_encS (con : Operand → Instr) (hsh : shapeOf op = some ⟨.src, .none, .none⟩) (ha : a.wf z n = true)
    (hbuild : ∀ ws : Words z, opcodeOf ws.w0 = op → build ws = .ok (con (srcOf (k1Of ws.w0) ws.w1))) :
    decode n (encS z op a) = .ok (con a) := by
  refine decode_opWord hop a.kind_lt (by decide) (by decide) hsh (slotValid_src hn ha) slotValid_unused
    slotValid_unused fun w0 hw h1 _ _ => ?_
  rw [hbuild ⟨w0, _, _, _⟩ hw, h1, srcOf_slot hn ha]

end Shapes

theorem decode_encode_pop (hn : legalNumGp z n) {d : WReg} (hd : d.wf n = true) :
    decode n (encode z (.pop d)) = .ok (.pop d) := by
  refine decode_opWord (op := 24) (by decide) (by decide) (by decide) (by decide) rfl (slotValid_dst hn hd)
    slotValid_unused slotValid_unused fun w0 hw _ _ _ => ?_
  simp only [build, hw, dstOf_code hn hd]

theorem decode_encode_halt : decode n (encode z .halt) = .ok .halt :=
  decode_opWord (op := 28) (by decide) (by decide) (by decide) (by decide) rfl slotValid_unused slotValid_unused
    slotValid_unused fun w0 hw _ _ _ => by simp only [build, hw]

/-- Decoding an encoded instruction gives it back (R94). -/
theorem decode_encode (hn : legalNumGp z n) {i : Instr} (hi : i.wf z n = true) : decode n (encode z i) = .ok i := by
  cases i with
  | add => exact decode_encDSS hn (by decide) .add rfl hi fun ws h => by simp only [build, h]
  | sub => exact decode_encDSS hn (by decide) .sub rfl hi fun ws h => by simp only [build, h]
  | mul => exact decode_encDSS hn (by decide) .mul rfl hi fun ws h => by simp only [build, h]
  | mulhss => exact decode_encDSS hn (by decide) .mulhss rfl hi fun ws h => by simp only [build, h]
  | mulhsu => exact decode_encDSS hn (by decide) .mulhsu rfl hi fun ws h => by simp only [build, h]
  | mulhuu => exact decode_encDSS hn (by decide) .mulhuu rfl hi fun ws h => by simp only [build, h]
  | divss => exact decode_encDSS hn (by decide) .divss rfl hi fun ws h => by simp only [build, h]
  | divuu => exact decode_encDSS hn (by decide) .divuu rfl hi fun ws h => by simp only [build, h]
  | remss => exact decode_encDSS hn (by decide) .remss rfl hi fun ws h => by simp only [build, h]
  | remuu => exact decode_encDSS hn (by decide) .remuu rfl hi fun ws h => by simp only [build, h]
  | and => exact decode_encDSS hn (by decide) .and rfl hi fun ws h => by simp only [build, h]
  | or => exact decode_encDSS hn (by decide) .or rfl hi fun ws h => by simp only [build, h]
  | xor => exact decode_encDSS hn (by decide) .xor rfl hi fun ws h => by simp only [build, h]
  | not => exact decode_encDS hn (by decide) .not rfl hi fun ws h => by simp only [build, h]
  | lsl => exact decode_encDSS hn (by decide) .lsl rfl hi fun ws h => by simp only [build, h]
  | rsl => exact decode_encDSS hn (by decide) .rsl rfl hi fun ws h => by simp only [build, h]
  | mov => exact decode_encDS hn (by decide) .mov rfl hi fun ws h => by simp only [build, h]
  | load => exact decode_encDS hn (by decide) .load rfl hi fun ws h => by simp only [build, h]
  | store => exact decode_encSS hn (by decide) .store rfl hi fun ws h => by simp only [build, h]
  | cmpeq => exact decode_encSS hn (by decide) .cmpeq rfl hi fun ws h => by simp only [build, h]
  | cmpltu => exact decode_encSS hn (by decide) .cmpltu rfl hi fun ws h => by simp only [build, h]
  | cmplts => exact decode_encSS hn (by decide) .cmplts rfl hi fun ws h => by simp only [build, h]
  | push => exact decode_encS hn (by decide) .push rfl hi fun ws h => by simp only [build, h]
  | pop => exact decode_encode_pop hn hi
  | jmp => exact decode_encS hn (by decide) .jmp rfl hi fun ws h => by simp only [build, h]
  | br => exact decode_encS hn (by decide) .br rfl hi fun ws h => by simp only [build, h]
  | brcond => exact decode_encS hn (by decide) .brcond rfl hi fun ws h => by simp only [build, h]
  | halt => exact decode_encode_halt

/-! ## The bytes of an instruction (R61, R80) -/

theorem length_wordsBytes (ws : Words z) : ws.bytes.length = z.IB := by
  simp only [Words.bytes, List.length_append, length_wordBytes, z.IB_eq]
  omega

@[simp] theorem length_encodeBytes (i : Instr) : (encodeBytes z i).length = z.IB := length_wordsBytes _

/-- A word's bytes after `k` others are read back as the word. -/
theorem wordOfBytes_piece {k : Nat} (pre post : List Byte) (w : Word z) (hk : pre.length = k) :
    wordOfBytes z (((pre ++ (wordBytes w ++ post)).drop k).take z.WB) = w := by
  rw [List.drop_left' hk, List.take_left' (length_wordBytes w), wordOfBytes_wordBytes]

theorem wordsOfBytes_bytes (ws : Words z) (rest : List Byte) : wordsOfBytes z (ws.bytes ++ rest) = ws := by
  obtain ⟨w0, w1, w2, w3⟩ := ws
  have h0 := wordOfBytes_piece (k := 0) [] (wordBytes w1 ++ (wordBytes w2 ++ (wordBytes w3 ++ rest))) w0 rfl
  have h1 := wordOfBytes_piece (wordBytes w0) (wordBytes w2 ++ (wordBytes w3 ++ rest)) w1 (length_wordBytes w0)
  have h2 := wordOfBytes_piece (k := 2 * z.WB) (wordBytes w0 ++ wordBytes w1) (wordBytes w3 ++ rest) w2
    (by rw [List.length_append, length_wordBytes, length_wordBytes]; omega)
  have h3 := wordOfBytes_piece (k := 3 * z.WB) (wordBytes w0 ++ (wordBytes w1 ++ wordBytes w2)) rest w3
    (by simp only [List.length_append, length_wordBytes]; omega)
  simp only [List.nil_append, List.drop_zero, List.append_assoc] at h0 h1 h2 h3
  simp only [wordsOfBytes, Words.bytes, List.append_assoc, h0, h1, h2, h3]

/-- The byte decoder reads an encoded instruction and leaves the bytes after it (R90). -/
theorem decodeBytes_encodeBytes (hn : legalNumGp z n) {i : Instr} (hi : i.wf z n = true) (rest : List Byte) :
    decodeBytes z n (encodeBytes z i ++ rest) = .ok (i, rest) := by
  rw [decodeBytes, if_neg (by rw [List.length_append, length_encodeBytes]; omega), encodeBytes, wordsOfBytes_bytes,
    decode_encode hn hi, List.drop_left' (length_wordsBytes _)]

/-! ## A program loaded at address 0 -/

namespace Machine

/-- Placing bytes that all exist stores them. -/
theorem Cpu.place_eq_setBytes (bs : List Byte) (s : Cpu z) {a : Nat} (h : a + bs.length ≤ z.addressSpace) :
    s.place a bs = s.setMem (s.mem.setBytes a bs) := by
  induction bs generalizing s a with
  | nil => rfl
  | cons b bs ih =>
    rw [List.length_cons] at h
    rw [place, ih _ (by omega), placeByte, if_pos (by omega)]
    rfl

/-- Bytes stored read back (R71). -/
theorem Memory.bytesAt_setBytes {m : Memory} (bs : List Byte) {a : Nat} (hm : m.wf z = true)
    (h : a + bs.length ≤ z.addressSpace) : (m.setBytes a bs).bytesAt a bs.length = bs := by
  refine List.ext_getElem? fun j => ?_
  by_cases hj : j < bs.length
  · rw [Memory.getElem?_bytesAt _ _ _ _ hj, Memory.byteAt_setBytes bs (a + j) hm h, if_pos (by omega),
      Nat.add_sub_cancel_left, List.getD_eq_getElem?_getD, List.getElem?_eq_getElem hj, Option.getD_some]
  · rw [List.getElem?_eq_none (by rw [Memory.length_bytesAt]; omega), List.getElem?_eq_none (by omega)]

/-- The head of the bytes stored reads back. -/
theorem Memory.bytesAt_setBytes_append {m : Memory} (bs rest : List Byte) {a : Nat} (hm : m.wf z = true)
    (h : a + (bs ++ rest).length ≤ z.addressSpace) : (m.setBytes a (bs ++ rest)).bytesAt a bs.length = bs := by
  have hall := Memory.bytesAt_setBytes (bs ++ rest) hm h
  rw [List.length_append, Memory.bytesAt_add] at hall
  exact List.append_inj_left hall (Memory.length_bytesAt ..)

/-- Settles O23: the host's load stores the program, and its first `IB` bytes decode to its first instruction. -/
theorem programAtZeroRunsFirst : Obligations.ProgramAtZeroRunsFirst := by
  intro z n i rest hn hi hlen
  have hfit : 0 + (encodeBytes z i ++ rest).length ≤ z.addressSpace := by omega
  refine ⟨Memory.setBytes [] 0 (encodeBytes z i ++ rest), ?_, ?_⟩
  · rw [Session.hostAll_append, Session.hostAll_loadActions _ _ _ hfit, Cpu.place_eq_setBytes _ _ hfit]
    rfl
  · have hbytes := Memory.bytesAt_setBytes_append (encodeBytes z i) rest (wf_start (z := z) n []) hfit
    rw [length_encodeBytes] at hbytes
    have hdec := decodeBytes_encodeBytes hn hi []
    rw [List.append_nil, ← hbytes] at hdec
    have hstep := stepRunsTheDecodedInstruction z
      { Cpu.start z n [] with halt := false, mem := Memory.setBytes [] 0 (encodeBytes z i ++ rest) } i rfl
      (by simpa [Cpu.start] using z.IB_lt_addressSpace) (fun _ _ => rfl)
      (by simpa [Cpu.numGp, Cpu.start] using hdec)
    rw [hstep]
    simp [Cpu.start]

end Machine

end Sys2Proof
end

section
/-! PROOFS of 20_memory.md. The faults of a word access (R53, R57, R58, R60), the bytes of a word in memory (R56, R65,
R71), a fetch that a refused address stops (R62), and canonical memory (R51). -/

namespace Sys2Proof.Machine

open Config Safety

variable {z : WordSize} {s : Cpu z} {a v : Word z} {m : Memory} {f : Fault} {x : Nat}

/-! ## The faults of an access -/

theorem not_lowestRefused_zero {b : Nat} : ¬ lowestRefused s b 0 x := fun ⟨hlo, hhi, _⟩ => by omega

/-- The first address is the one, or it is `ram` and the one is the lowest of the others. -/
theorem lowestRefused_succ {b n : Nat} :
    lowestRefused s b (n + 1) x ↔
      (s.mapped b = .refused ∧ b = x) ∨ (s.mapped b = .ram ∧ lowestRefused s (b + 1) n x) := by
  constructor
  · rintro ⟨hlo, hhi, hx, hbelow⟩
    obtain rfl | hlt := Nat.eq_or_lt_of_le hlo
    · exact .inl ⟨hx, rfl⟩
    · exact .inr ⟨hbelow b le_rfl hlt, hlt, by omega, hx, fun y hy => hbelow y (by omega)⟩
  · rintro (⟨hb, rfl⟩ | ⟨hb, hlo, hhi, hx, hbelow⟩)
    · exact ⟨le_rfl, by omega, hb, fun y hlo hhi => by omega⟩
    · refine ⟨by omega, by omega, hx, fun y hy hyx => ?_⟩
      obtain rfl | hlt := Nat.eq_or_lt_of_le hy
      · exact hb
      · exact hbelow y hlt hyx

/-- The search finds the lowest refused address (R226 point 5). -/
theorem firstRefused_eq_some {b n : Nat} : s.firstRefused b n = some x ↔ lowestRefused s b n x := by
  induction n generalizing b with
  | zero => exact iff_of_false nofun not_lowestRefused_zero
  | succ n ih =>
    rw [Cpu.firstRefused, lowestRefused_succ]
    cases s.mapped b with
    | ram => simp [ih]
    | refused => simp

/-- The two faults of an access, each with its condition (R57, R58, R226 point 5). -/
theorem accessFault_eq_some :
    s.accessFault a = some f ↔
      (z.addressSpace < a.toNat + z.WB ∧ f = .addressWrap a.toNat) ∨
        (a.toNat + z.WB ≤ z.addressSpace ∧ ∃ x, lowestRefused s a.toNat z.WB x ∧ f = .accessRefused x) := by
  unfold Cpu.accessFault
  by_cases h : z.addressSpace < a.toNat + z.WB
  · simp [h, not_le.2 h, eq_comm]
  · simp only [h, not_lt.1 h, ← firstRefused_eq_some, if_false, false_and, false_or, true_and]
    cases s.firstRefused a.toNat z.WB <;> simp [eq_comm]

theorem accessFault_of_wrap (h : z.addressSpace < a.toNat + z.WB) :
    s.accessFault a = some (.addressWrap a.toNat) :=
  accessFault_eq_some.2 (.inl ⟨h, rfl⟩)

theorem accessFault_of_lowestRefused (htop : a.toNat + z.WB ≤ z.addressSpace)
    (hx : lowestRefused s a.toNat z.WB x) : s.accessFault a = some (.accessRefused x) :=
  accessFault_eq_some.2 (.inr ⟨htop, x, hx, rfl⟩)

/-- A read faults as the access does (R57). -/
theorem memRead_error : memRead s a = .error f ↔ s.accessFault a = some f := by
  unfold memRead
  cases s.accessFault a <;> simp

/-- A write faults as the access does (R58). -/
theorem memWrite_error : memWrite s a v = .error f ↔ s.accessFault a = some f := by
  unfold memWrite
  cases s.accessFault a <;> simp

/-! ## The bytes of a word in memory -/

/-- A byte of the word that bytes make is the byte of that number (R56). -/
theorem wordByte_wordOfBytes (bs : List Byte) {i : Nat} (hi : i < z.WB) :
    wordByte (wordOfBytes z bs) i = bs.getD i 0 := by
  apply BitVec.eq_of_getLsbD_eq
  intro j hj
  have hW := z.W_eq
  rw [wordByte, BitVec.getLsbD_extractLsb', decide_eq_true hj, Bool.true_and,
    getLsbD_wordOfBytes _ _ (by omega), show (8 * i + j) / 8 = i by omega, show (8 * i + j) % 8 = j by omega]

/-- The word read at an address stands there (R56, R57). -/
theorem wordStands_wordAt (s : Cpu z) (b : Nat) : wordStands s b (s.mem.wordAt z b) := by
  intro i hi
  change wordByte (wordOfBytes z (s.mem.bytesAt b z.WB)) i = _
  rw [wordByte_wordOfBytes _ hi, List.getD_eq_getElem?_getD, Memory.getElem?_bytesAt _ _ _ _ hi, Option.getD_some]

/-- Storing a word writes its bytes and nothing else (R56, R58). -/
theorem storedWord_setWord (hm : s.mem.wf z = true) (v : Word z) {b : Nat} (h : b + z.WB ≤ z.addressSpace) :
    storedWord s (s.setMem (s.mem.setWord b v)) b v :=
  ⟨rfl, fun c => Memory.byteAt_setWord v c hm h⟩

/-- A stored word reads back (R65, R71). -/
theorem Memory.wordAt_setWord (hm : m.wf z = true) (v : Word z) {b : Nat} (h : b + z.WB ≤ z.addressSpace) :
    (m.setWord b v).wordAt z b = v := by
  have hbytes := bytesAt_setBytes (wordBytes v) hm (by rwa [length_wordBytes])
  rw [length_wordBytes] at hbytes
  rw [wordAt, setWord, hbytes, wordOfBytes_wordBytes]

/-- Which accesses fault does not depend on what memory holds (R53). -/
theorem accessible_setMem : accessible (s.setMem m) a ↔ accessible s a := Iff.rfl

/-- Settles O14: the two faults of an access, and the word that stands where it is read. -/
theorem wordReadIsLittleEndian : Obligations.WordReadIsLittleEndian := fun _ s a =>
  ⟨fun hwrap => memRead_error.2 (accessFault_of_wrap hwrap),
    fun _ htop hx => memRead_error.2 (accessFault_of_lowestRefused htop hx),
    fun hok => ⟨_, memRead_ok.2 ⟨hok, rfl⟩, wordStands_wordAt s a.toNat⟩⟩

/-- Settles O15: the same faults, and the bytes that a stored word changes. -/
theorem wordWriteIsLittleEndian : Obligations.WordWriteIsLittleEndian := fun _ _ _ v hm =>
  ⟨fun hwrap => memWrite_error.2 (accessFault_of_wrap hwrap),
    fun _ htop hx => memWrite_error.2 (accessFault_of_lowestRefused htop hx),
    fun hok => ⟨_, memWrite_ok.2 ⟨hok, rfl⟩, storedWord_setWord hm v hok.1⟩⟩

/-- Settles O16: the store leaves the address accessible, and its word reads back. -/
theorem storedWordReadsBack : Obligations.StoredWordReadsBack := by
  intro z s t a v hm hw
  obtain ⟨hok, rfl⟩ := memWrite_ok.1 hw
  exact memRead_ok.2 ⟨accessible_setMem.2 hok, (Memory.wordAt_setWord hm v hok.1).symm⟩

/-! ## A fetch that touches a refused address -/

section Fetch

variable {n k : Nat}

/-- A word of the range that ends at or below the lowest refused address reads. -/
theorem memRead_below_lowestRefused (hx : lowestRefused s a.toNat n x) (hn : a.toNat + n < z.addressSpace)
    (hk : a.toNat + (k + z.WB) ≤ x) :
    memRead s (a + BitVec.ofNat z.W k) = .ok (s.mem.wordAt z (a.toNat + k)) := by
  obtain ⟨-, hhi, -, hbelow⟩ := hx
  exact memRead_of_allRam (n := k + z.WB) (fun i hi => hbelow _ (by omega) (by omega)) le_rfl (by omega)

/-- The word of the range that holds the lowest refused address faults at it. -/
theorem memRead_at_lowestRefused (hx : lowestRefused s a.toNat n x) (hn : a.toNat + n < z.addressSpace)
    (hkn : k + z.WB ≤ n) (hlo : a.toNat + k ≤ x) (hhi : x < a.toNat + (k + z.WB)) :
    memRead s (a + BitVec.ofNat z.W k) = .error (.accessRefused x) := by
  obtain ⟨-, -, href, hbelow⟩ := hx
  have hsum : (a + BitVec.ofNat z.W k).toNat = a.toNat + k := toNat_add_of_lt (by omega)
  refine memRead_error.2 (accessFault_of_lowestRefused (by omega) ?_)
  rw [hsum]
  exact ⟨hlo, by omega, href, fun y hy => hbelow y (by omega)⟩

/-- A fetch faults at the lowest refused byte of the instruction: the words below the one that holds it read, and that
one faults (R62). -/
theorem fetchWords_of_lowestRefused (hx : lowestRefused s a.toNat z.IB x)
    (h : a.toNat + z.IB < z.addressSpace) : fetchWords s a = .error (.accessRefused x) := by
  have hIB := z.IB_eq
  have hrange := hx
  obtain ⟨hlo, hhi, -⟩ := hrange
  have reads := fun {k} hk => memRead_below_lowestRefused (k := k) hx h hk
  have faults := fun {k} hkn hlo hhi => memRead_at_lowestRefused (k := k) hx h hkn hlo hhi
  have reads0 := memRead_below_lowestRefused (k := 0) hx h
  have faults0 := memRead_at_lowestRefused (k := 0) hx h
  rw [BitVec.add_zero] at reads0 faults0
  unfold fetchWords
  by_cases h0 : x < a.toNat + (0 + z.WB)
  · rw [faults0 (by omega) hlo h0]
  rw [reads0 (not_lt.1 h0)]
  by_cases h1 : x < a.toNat + (z.WB + z.WB)
  · simp only [faults (k := z.WB) (by omega) (by omega) h1]
  simp only [reads (not_lt.1 h1)]
  by_cases h2 : x < a.toNat + (2 * z.WB + z.WB)
  · simp only [faults (k := 2 * z.WB) (by omega) (by omega) h2]
  simp only [reads (not_lt.1 h2), faults (k := 3 * z.WB) (by omega) (by omega) (by omega)]

/-- Words that cannot be fetched are not decoded (R226 point 2). -/
theorem fetchInstr_of_fetchWords_error (htop : s.pc.toNat + z.IB < z.addressSpace)
    (h : fetchWords s s.pc = .error f) : fetchInstr s = .error f := by
  rw [fetchInstr, if_neg (not_le.2 htop), h]

/-- Settles O12: the step faults as its fetch does. -/
theorem refusedFetchFaults : Obligations.RefusedFetchFaults := fun _ _ hrun htop _ hx =>
  step_of_fetchInstr_error hrun (fetchInstr_of_fetchWords_error htop (fetchWords_of_lowestRefused hx htop))

end Fetch

/-! ## Canonical memory -/

section Canonical

variable {low k k' : Nat} {b : Byte} {m' : Memory}

/-- Everything that reads otherwise than an unlisted address does lies at or above the lower bound. -/
theorem Memory.le_of_byteAt_ne {c : Nat} (hm : wfFrom z low m = true) (hc : m.byteAt c ≠ unlistedByte) :
    low ≤ c :=
  not_lt.1 fun hlt => hc (byteAt_of_lt hm hlt)

theorem Memory.byteAt_cons_self : byteAt ((k, b) :: m) k = b := if_pos rfl

theorem Memory.byteAt_cons_ne {c : Nat} (h : k ≠ c) : byteAt ((k, b) :: m) c = m.byteAt c := if_neg h

/-- The first address that a memory lists is a lower bound of it. -/
theorem Memory.wfFrom_head (hm : wfFrom z low ((k, b) :: m) = true) : wfFrom z k ((k, b) :: m) = true :=
  (wfFrom_cons ..).2 ⟨le_rfl, ((wfFrom_cons ..).1 hm).2⟩

theorem Memory.wfFrom_tail (hm : wfFrom z low ((k, b) :: m) = true) : wfFrom z (k + 1) m = true :=
  have ⟨_, _, _, htail⟩ := (wfFrom_cons ..).1 hm
  htail

/-- The first listed byte is not what an unlisted address reads as. -/
theorem Memory.byteAt_head_ne (hm : wfFrom z low ((k, b) :: m) = true) :
    byteAt ((k, b) :: m) k ≠ unlistedByte := by
  obtain ⟨-, -, hb, -⟩ := (wfFrom_cons ..).1 hm
  rwa [byteAt_cons_self]

/-- The bytes from the first address up, but for the first, are those of the tail; the tail lists nothing else. -/
theorem Memory.byteAt_tail (hm : wfFrom z low ((k, b) :: m) = true) (c : Nat) :
    m.byteAt c = if k < c then byteAt ((k, b) :: m) c else unlistedByte := by
  split_ifs with hc
  · rw [byteAt_cons_ne hc.ne]
  · exact byteAt_of_lt (wfFrom_tail hm) (by omega)

/-- Equal bytes have equal lists: each list's first address is the lowest one that reads otherwise than an unlisted
address does, and the tails have equal bytes again. -/
theorem Memory.eq_of_byteAt_eq {low' : Nat} (hm : wfFrom z low m = true) (hm' : wfFrom z low' m' = true)
    (h : ∀ c, m.byteAt c = m'.byteAt c) : m = m' := by
  induction m generalizing low low' m' with
  | nil =>
    cases m' with
    | nil => rfl
    | cons p m' => exact absurd (h p.1).symm (byteAt_head_ne hm')
  | cons p m ih =>
    obtain ⟨k, b⟩ := p
    cases m' with
    | nil => exact absurd (h k) (byteAt_head_ne hm)
    | cons q m' =>
      obtain ⟨k', b'⟩ := q
      have hle : k ≤ k' := le_of_byteAt_ne (wfFrom_head hm) (by rw [h]; exact byteAt_head_ne hm')
      have hge : k' ≤ k := le_of_byteAt_ne (wfFrom_head hm') (by rw [← h]; exact byteAt_head_ne hm)
      obtain rfl := le_antisymm hle hge
      have hb : b = b' := by simpa only [byteAt_cons_self] using h k
      have htails : m = m' := ih (wfFrom_tail hm) (wfFrom_tail hm') fun c => by
        rw [byteAt_tail hm, byteAt_tail hm', h]
      rw [hb, htails]

/-- Settles O17: `Memory.eq_of_byteAt_eq` from the lower bound 0. -/
theorem equalBytesAreEqualMemories : Obligations.EqualBytesAreEqualMemories :=
  fun _ _ _ => Memory.eq_of_byteAt_eq

end Canonical

end Sys2Proof.Machine
end

section
/-! SUPPORT of 30_encoding.md. The words that the decoder accepts, slot by slot (R88) and shape by shape (R87), and the
instruction it makes of them. -/

namespace Sys2Proof

open Config Machine Safety

variable {z : WordSize} {n : Nat}

/-! ## One valid slot -/

theorem kindOf_eq_none : ∀ {b : BitVec 2}, kindOf b = .none ↔ b.toNat = 0 := by decide
theorem kindOf_eq_imm : ∀ {b : BitVec 2}, kindOf b = .imm ↔ b.toNat = 1 := by decide
theorem kindOf_eq_reg : ∀ {b : BitVec 2}, kindOf b = .reg ↔ b.toNat = 2 := by decide

/-- An unused slot holds zero (V4, V5). -/
theorem slotValid_none_iff {k : Kind} {w : Word z} : SlotValid n .none k w ↔ k = .none ∧ w.toNat = 0 := by
  constructor
  · rintro ⟨hfits, hzero, -, -, -⟩
    cases k with
    | none =>
      have hw : w = 0 := by simpa [slotZero] using hzero
      exact ⟨rfl, by rw [hw, BitVec.ofNat_eq_ofNat, BitVec.toNat_zero]⟩
    | imm | reg | reserved => exact absurd hfits Bool.false_ne_true
  · rintro ⟨rfl, hw⟩
    obtain rfl : w = 0 := BitVec.eq_of_toNat_eq hw
    exact slotValid_unused

/-- A destination slot names `%sp` or a register that exists (V4, V6, V8). -/
theorem slotValid_dst_iff {k : Kind} {w : Word z} : SlotValid n .dst k w ↔ k = .reg ∧ dstSlotValid n w.toNat := by
  constructor
  · rintro ⟨hfits, -, hexist, -, hwritable⟩
    cases k with
    | reg =>
      have hex := of_decide_eq_true hexist
      have hwr := of_decide_eq_true hwritable
      exact ⟨rfl, by unfold dstSlotValid; omega⟩
    | none | imm | reserved => exact absurd hfits Bool.false_ne_true
  · rintro ⟨rfl, hw⟩
    unfold dstSlotValid at hw
    exact ⟨rfl, rfl, decide_eq_true (by omega), rfl, decide_eq_true (by omega)⟩

/-- A source slot holds any pattern, or the code of `%pc`, `%sp` or a register that exists (V4, V6, V7). -/
theorem slotValid_src_iff {k : Kind} {w : Word z} :
    SlotValid n .src k w ↔
      k = .imm ∨ k = .reg ∧ (w.toNat = 1 ∨ w.toNat = 2 ∨ 256 ≤ w.toNat ∧ w.toNat < 256 + n) := by
  constructor
  · rintro ⟨hfits, -, hexist, hreadable, -⟩
    cases k with
    | imm => exact .inl rfl
    | reg =>
      have hex := of_decide_eq_true hexist
      have hrd := of_decide_eq_true hreadable
      exact .inr ⟨rfl, by omega⟩
    | none | reserved => exact absurd hfits Bool.false_ne_true
  · rintro (rfl | ⟨rfl, hw⟩)
    · exact ⟨rfl, rfl, rfl, rfl, rfl⟩
    · exact ⟨rfl, rfl, decide_eq_true (by omega), decide_eq_true (by omega), rfl⟩

/-! ## Four valid words -/

/-- V1 to V8 of R88 on four words whose opcode has the shape `sh`. -/
structure WordsValid (n : Nat) (sh : Shape) (ws : Words z) : Prop where
  shape : shapeOf (opcodeOf ws.w0) = some sh
  rsvd : rsvdOf ws.w0 = 0
  slot1 : SlotValid n sh.s1 (k1Of ws.w0) ws.w1
  slot2 : SlotValid n sh.s2 (k2Of ws.w0) ws.w2
  slot3 : SlotValid n sh.s3 (k3Of ws.w0) ws.w3

theorem firstInvalid_eq_none_iff {ws : Words z} : firstInvalid n ws = none ↔ ∃ sh, WordsValid n sh ws := by
  constructor
  · intro h
    unfold firstInvalid at h
    cases hsh : shapeOf (opcodeOf ws.w0) with
    | none => simp [hsh] at h
    | some sh =>
      simp only [hsh] at h
      split_ifs at h with hrsvd hkind hfits hzero hexist hreadable hwritable
      simp only [Bool.not_eq_true', Bool.not_eq_false, Bool.and_eq_true] at hfits hzero hexist hreadable hwritable
      obtain ⟨⟨f1, f2⟩, f3⟩ := hfits
      obtain ⟨⟨z1, z2⟩, z3⟩ := hzero
      obtain ⟨⟨e1, e2⟩, e3⟩ := hexist
      obtain ⟨⟨r1, r2⟩, r3⟩ := hreadable
      obtain ⟨⟨w1, w2⟩, w3⟩ := hwritable
      exact ⟨sh, hsh, not_not.1 hrsvd, ⟨f1, z1, e1, r1, w1⟩, ⟨f2, z2, e2, r2, w2⟩, ⟨f3, z3, e3, r3, w3⟩⟩
  · rintro ⟨sh, h⟩
    exact firstInvalid_eq_none h.shape h.rsvd h.slot1 h.slot2 h.slot3

theorem decode_eq_ok_iff {ws : Words z} {i : Instr} :
    decode n ws = .ok i ↔ (∃ sh, WordsValid n sh ws) ∧ build ws = .ok i := by
  rw [← firstInvalid_eq_none_iff, decode]
  cases firstInvalid n ws <;> simp

/-- Every opcode that has a shape builds an instruction (R86, R87). -/
theorem exists_build {ws : Words z} {sh : Shape} (h : shapeOf (opcodeOf ws.w0) = some sh) :
    ∃ i, build ws = .ok i := by
  unfold shapeOf at h
  split at h
  case h_29 => cases h
  all_goals
    rename_i hop
    simp only [build, hop, Except.ok.injEq, exists_eq']

theorem exists_decode_iff {ws : Words z} : (∃ i, decode n ws = .ok i) ↔ ∃ sh, WordsValid n sh ws := by
  simp only [decode_eq_ok_iff, exists_and_left, and_iff_left_iff_imp]
  rintro ⟨sh, h⟩
  exact exists_build h.shape

/-! ## Encoding what was decoded (R94) -/

/-- An operation word without reserved bits is made of its fields (R81). -/
theorem opWord_fields {w : Word z} (h : rsvdOf w = 0) :
    opWord z (opcodeOf w) (w.toNat / 16 % 4) (w.toNat / 4 % 4) (w.toNat % 4) = w := by
  rw [rsvdOf_eq_zero] at h
  refine BitVec.eq_of_toNat_eq ?_
  rw [opWord, opWord_number (by omega) (by omega) (by omega), opcodeOf_eq, BitVec.toNat_ofNat]
  have hw := w.isLt
  rw [Nat.mod_eq_of_lt (by omega)]
  omega

theorem SlotValid.unused_eq {b : BitVec 2} {w : Word z} (h : SlotValid n .none (kindOf b) w) :
    b.toNat = 0 ∧ w = 0 := by
  obtain ⟨hk, hw⟩ := slotValid_none_iff.1 h
  exact ⟨kindOf_eq_none.1 hk, BitVec.eq_of_toNat_eq hw⟩

theorem ofNat_gp_code {w : Word z} (h : 256 ≤ w.toNat) : BitVec.ofNat z.W (256 + (w.toNat - 256)) = w := by
  rw [Nat.add_sub_cancel' h, BitVec.ofNat_toNat, BitVec.setWidth_eq]

theorem ofNat_of_toNat_eq {w : Word z} {k : Nat} (h : w.toNat = k) : BitVec.ofNat z.W k = w := by
  rw [← h, BitVec.ofNat_toNat, BitVec.setWidth_eq]

/-- The register that a valid destination slot names exists and has the slot's code. -/
theorem SlotValid.dst_eq {b : BitVec 2} {w : Word z} (h : SlotValid n .dst (kindOf b) w) :
    b.toNat = 2 ∧ (dstOf w).code z = w ∧ (dstOf w).wf n = true := by
  obtain ⟨hk, hw⟩ := slotValid_dst_iff.1 h
  refine ⟨kindOf_eq_reg.1 hk, ?_⟩
  unfold dstOf
  split_ifs with h2
  · exact ⟨ofNat_of_toNat_eq h2, rfl⟩
  · obtain ⟨hlo, hhi⟩ := hw.resolve_left h2
    exact ⟨ofNat_gp_code hlo, decide_eq_true (by omega)⟩

/-- The operand that a valid source slot holds is well-formed and has the slot's kind and word. -/
theorem SlotValid.src_eq {b : BitVec 2} {w : Word z} (h : SlotValid n .src (kindOf b) w) :
    (srcOf (kindOf b) w).kind = b.toNat ∧ (srcOf (kindOf b) w).slot z = w ∧
      (srcOf (kindOf b) w).wf z n = true := by
  obtain hk | ⟨hk, hw⟩ := slotValid_src_iff.1 h
  · rw [hk, srcOf, if_pos rfl]
    exact ⟨(kindOf_eq_imm.1 hk).symm, ofNat_of_toNat_eq rfl, decide_eq_true w.isLt⟩
  · rw [hk, srcOf, if_neg (by decide)]
    refine ⟨(kindOf_eq_reg.1 hk).symm, ?_⟩
    unfold rregOf
    split_ifs with h1 h2
    · exact ⟨ofNat_of_toNat_eq h1, rfl⟩
    · exact ⟨ofNat_of_toNat_eq h2, rfl⟩
    · obtain ⟨hlo, hhi⟩ := (hw.resolve_left h1).resolve_left h2
      exact ⟨ofNat_gp_code hlo, decide_eq_true (by omega)⟩

section Shapes

variable {ws : Words z} {sh : Shape} {op : Nat} (hv : WordsValid n sh ws) (hop : opcodeOf ws.w0 = op)
include hv hop

/-- Valid words are made of their opcode, the kind fields of their three slots and the slots themselves. -/
theorem WordsValid.words_eq {k1 k2 k3 : Nat} {w1 w2 w3 : Word z}
    (h1 : k1 = (ws.w0.extractLsb' 4 2).toNat ∧ w1 = ws.w1) (h2 : k2 = (ws.w0.extractLsb' 2 2).toNat ∧ w2 = ws.w2)
    (h3 : k3 = (ws.w0.extractLsb' 0 2).toNat ∧ w3 = ws.w3) : ⟨opWord z op k1 k2 k3, w1, w2, w3⟩ = ws := by
  obtain ⟨rfl, rfl⟩ := h1
  obtain ⟨rfl, rfl⟩ := h2
  obtain ⟨rfl, rfl⟩ := h3
  have hw := opWord_fields hv.rsvd
  simp only [toNat_extract_two, Nat.reducePow, Nat.div_one, ← hop, hw]

theorem WordsValid.encDSS_eq (hsh : shapeOf op = some ⟨.dst, .src, .src⟩) :
    encDSS z op (dstOf ws.w1) (srcOf (k2Of ws.w0) ws.w2) (srcOf (k3Of ws.w0) ws.w3) = ws ∧
      ((dstOf ws.w1).wf n && (srcOf (k2Of ws.w0) ws.w2).wf z n && (srcOf (k3Of ws.w0) ws.w3).wf z n) = true := by
  obtain rfl : sh = _ := Option.some.inj ((hop ▸ hv.shape).symm.trans hsh)
  obtain ⟨hk1, hw1, hd⟩ := hv.slot1.dst_eq
  obtain ⟨hk2, hw2, ha⟩ := hv.slot2.src_eq
  obtain ⟨hk3, hw3, hb⟩ := hv.slot3.src_eq
  exact ⟨hv.words_eq hop ⟨hk1.symm, hw1⟩ ⟨hk2, hw2⟩ ⟨hk3, hw3⟩, by simp [hd, k2Of, ha, k3Of, hb]⟩

theorem WordsValid.encDS_eq (hsh : shapeOf op = some ⟨.dst, .src, .none⟩) :
    encDS z op (dstOf ws.w1) (srcOf (k2Of ws.w0) ws.w2) = ws ∧
      ((dstOf ws.w1).wf n && (srcOf (k2Of ws.w0) ws.w2).wf z n) = true := by
  obtain rfl : sh = _ := Option.some.inj ((hop ▸ hv.shape).symm.trans hsh)
  obtain ⟨hk1, hw1, hd⟩ := hv.slot1.dst_eq
  obtain ⟨hk2, hw2, ha⟩ := hv.slot2.src_eq
  obtain ⟨hk3, hw3⟩ := hv.slot3.unused_eq
  exact ⟨hv.words_eq hop ⟨hk1.symm, hw1⟩ ⟨hk2, hw2⟩ ⟨hk3.symm, hw3.symm⟩, by simp [hd, k2Of, ha]⟩

theorem WordsValid.encSS_eq (hsh : shapeOf op = some ⟨.src, .src, .none⟩) :
    encSS z op (srcOf (k1Of ws.w0) ws.w1) (srcOf (k2Of ws.w0) ws.w2) = ws ∧
      ((srcOf (k1Of ws.w0) ws.w1).wf z n && (srcOf (k2Of ws.w0) ws.w2).wf z n) = true := by
  obtain rfl : sh = _ := Option.some.inj ((hop ▸ hv.shape).symm.trans hsh)
  obtain ⟨hk1, hw1, ha⟩ := hv.slot1.src_eq
  obtain ⟨hk2, hw2, hb⟩ := hv.slot2.src_eq
  obtain ⟨hk3, hw3⟩ := hv.slot3.unused_eq
  exact ⟨hv.words_eq hop ⟨hk1, hw1⟩ ⟨hk2, hw2⟩ ⟨hk3.symm, hw3.symm⟩, by simp [k1Of, ha, k2Of, hb]⟩

theorem WordsValid.encS_eq (hsh : shapeOf op = some ⟨.src, .none, .none⟩) :
    encS z op (srcOf (k1Of ws.w0) ws.w1) = ws ∧ (srcOf (k1Of ws.w0) ws.w1).wf z n = true := by
  obtain rfl : sh = _ := Option.some.inj ((hop ▸ hv.shape).symm.trans hsh)
  obtain ⟨hk1, hw1, ha⟩ := hv.slot1.src_eq
  obtain ⟨hk2, hw2⟩ := hv.slot2.unused_eq
  obtain ⟨hk3, hw3⟩ := hv.slot3.unused_eq
  exact ⟨hv.words_eq hop ⟨hk1, hw1⟩ ⟨hk2.symm, hw2.symm⟩ ⟨hk3.symm, hw3.symm⟩, ha⟩

theorem WordsValid.encD_eq (hsh : shapeOf op = some ⟨.dst, .none, .none⟩) :
    encD z op (dstOf ws.w1) = ws ∧ (dstOf ws.w1).wf n = true := by
  obtain rfl : sh = _ := Option.some.inj ((hop ▸ hv.shape).symm.trans hsh)
  obtain ⟨hk1, hw1, hd⟩ := hv.slot1.dst_eq
  obtain ⟨hk2, hw2⟩ := hv.slot2.unused_eq
  obtain ⟨hk3, hw3⟩ := hv.slot3.unused_eq
  exact ⟨hv.words_eq hop ⟨hk1.symm, hw1⟩ ⟨hk2.symm, hw2.symm⟩ ⟨hk3.symm, hw3.symm⟩, hd⟩

theorem WordsValid.encode_halt_eq (hsh : shapeOf op = some ⟨.none, .none, .none⟩) :
    (⟨opWord z op 0 0 0, 0, 0, 0⟩ : Words z) = ws := by
  obtain rfl : sh = _ := Option.some.inj ((hop ▸ hv.shape).symm.trans hsh)
  obtain ⟨hk1, hw1⟩ := hv.slot1.unused_eq
  obtain ⟨hk2, hw2⟩ := hv.slot2.unused_eq
  obtain ⟨hk3, hw3⟩ := hv.slot3.unused_eq
  exact hv.words_eq hop ⟨hk1.symm, hw1.symm⟩ ⟨hk2.symm, hw2.symm⟩ ⟨hk3.symm, hw3.symm⟩

end Shapes

/-- The instruction that valid words build is well-formed and is encoded by the words, opcode by opcode (R86). -/
theorem WordsValid.encode_build {ws : Words z} {sh : Shape} {i : Instr} (hv : WordsValid n sh ws)
    (hb : build ws = .ok i) : encode z i = ws ∧ i.wf z n = true := by
  unfold build at hb
  split at hb
  case h_1 hop | h_2 hop | h_3 hop | h_4 hop | h_5 hop | h_6 hop | h_7 hop | h_8 hop | h_9 hop | h_10 hop | h_11 hop
      | h_12 hop | h_13 hop | h_15 hop | h_16 hop =>
    obtain rfl := Except.ok.inj hb
    exact hv.encDSS_eq hop rfl
  case h_14 hop | h_17 hop | h_18 hop =>
    obtain rfl := Except.ok.inj hb
    exact hv.encDS_eq hop rfl
  case h_19 hop | h_20 hop | h_21 hop | h_22 hop =>
    obtain rfl := Except.ok.inj hb
    exact hv.encSS_eq hop rfl
  case h_23 hop | h_25 hop | h_26 hop | h_27 hop =>
    obtain rfl := Except.ok.inj hb
    exact hv.encS_eq hop rfl
  case h_24 hop =>
    obtain rfl := Except.ok.inj hb
    exact hv.encD_eq hop rfl
  case h_28 hop =>
    obtain rfl := Except.ok.inj hb
    exact ⟨hv.encode_halt_eq hop rfl, rfl⟩
  case h_29 => cases hb

/-! ## Validity from the tables alone (R87, R29) -/

/-- The kind fields that a slot may carry, as numbers (R82, R87). -/
def Slot.kindFields : Slot → List Nat
  | .none => [0]
  | .dst => [2]
  | .src => [1, 2]

/-- The low bytes of an operation word of a shape: no reserved bit, and kinds that fit. -/
def Shape.lowBytes (sh : Shape) : List Nat :=
  sh.s1.kindFields.flatMap fun k1 => sh.s2.kindFields.flatMap fun k2 => sh.s3.kindFields.map fun k3 =>
    k1 * 16 + k2 * 4 + k3

theorem Slot.lt_of_mem_kindFields {sl : Slot} {k : Nat} (h : k ∈ sl.kindFields) : k < 4 := by
  cases sl <;> simp [kindFields] at h <;> omega

theorem Shape.mem_lowBytes {sh : Shape} {low : Nat} :
    low ∈ sh.lowBytes ↔ low / 64 = 0 ∧ low / 16 % 4 ∈ sh.s1.kindFields ∧ low / 4 % 4 ∈ sh.s2.kindFields ∧
      low % 4 ∈ sh.s3.kindFields := by
  simp only [lowBytes, List.mem_flatMap, List.mem_map]
  constructor
  · rintro ⟨k1, h1, k2, h2, k3, h3, rfl⟩
    have l1 := Slot.lt_of_mem_kindFields h1
    have l2 := Slot.lt_of_mem_kindFields h2
    have l3 := Slot.lt_of_mem_kindFields h3
    have e1 : (k1 * 16 + k2 * 4 + k3) / 16 % 4 = k1 := by omega
    have e2 : (k1 * 16 + k2 * 4 + k3) / 4 % 4 = k2 := by omega
    have e3 : (k1 * 16 + k2 * 4 + k3) % 4 = k3 := by omega
    exact ⟨by omega, e1.symm ▸ h1, e2.symm ▸ h2, e3.symm ▸ h3⟩
  · rintro ⟨h0, h1, h2, h3⟩
    exact ⟨_, h1, _, h2, _, h3, by omega⟩

/-- A valid slot, from the number of its kind field and the number that its word is. -/
theorem slotValid_iff {sl : Slot} {b : BitVec 2} {w : Word z} :
    SlotValid n sl (kindOf b) w ↔
      b.toNat ∈ sl.kindFields ∧
        (if sl = .dst then dstSlotValid n w.toNat else sourceSlotValid n b.toNat w.toNat) := by
  cases sl with
  | none =>
    rw [slotValid_none_iff, kindOf_eq_none]
    simp [Slot.kindFields, sourceSlotValid]; omega
  | dst =>
    rw [slotValid_dst_iff, kindOf_eq_reg]
    simp [Slot.kindFields]
  | src =>
    rw [slotValid_src_iff, kindOf_eq_imm, kindOf_eq_reg]
    simp [Slot.kindFields, sourceSlotValid]; omega


/-- What the tables of Safety.lean say of an opcode is what its shape says. -/
def opcodeAgrees (op : Nat) : Bool :=
  match shapeOf op with
  | some sh =>
    legalLowBytes op == sh.lowBytes && firstIsDst op == decide (sh.s1 = .dst) && sh.s2 != .dst && sh.s3 != .dst
  | none => legalLowBytes op == []

theorem opcodeAgrees_of_le : ∀ op ≤ 28, opcodeAgrees op = true := by decide

theorem legalLowBytes_of_shape {op : Nat} {sh : Shape} (h : shapeOf op = some sh) :
    legalLowBytes op = sh.lowBytes ∧ firstIsDst op = decide (sh.s1 = .dst) ∧ sh.s2 ≠ .dst ∧ sh.s3 ≠ .dst := by
  have hop : op ≤ 28 := by
    by_contra hop
    unfold shapeOf at h
    split at h <;> simp at h hop
  simpa [opcodeAgrees, h, and_assoc] using opcodeAgrees_of_le op hop

theorem legalLowBytes_of_no_shape {op : Nat} (h : shapeOf op = none) : legalLowBytes op = [] := by
  by_cases hop : op ≤ 28
  · simpa [opcodeAgrees, h] using opcodeAgrees_of_le op hop
  · simp only [legalLowBytes, List.mem_cons, List.not_mem_nil, or_false]
    rw [if_neg, if_neg, if_neg, if_neg, if_neg, if_neg] <;> omega

theorem validWords_iff_of_shape {ws : Words z} {sh : Shape} (hsh : shapeOf (opcodeOf ws.w0) = some sh) :
    validWords n ws ↔ WordsValid n sh ws := by
  obtain ⟨hlow, hfirst, h2, h3⟩ := legalLowBytes_of_shape hsh
  have hvalid : WordsValid n sh ws ↔ rsvdOf ws.w0 = 0 ∧ SlotValid n sh.s1 (k1Of ws.w0) ws.w1 ∧
      SlotValid n sh.s2 (k2Of ws.w0) ws.w2 ∧ SlotValid n sh.s3 (k3Of ws.w0) ws.w3 :=
    ⟨fun ⟨_, hr, s1, s2, s3⟩ => ⟨hr, s1, s2, s3⟩, fun ⟨hr, s1, s2, s3⟩ => ⟨hsh, hr, s1, s2, s3⟩⟩
  have low64 : ws.w0.toNat % 256 / 64 = ws.w0.toNat / 64 % 4 := by omega
  have low16 : ws.w0.toNat % 256 / 16 % 4 = ws.w0.toNat / 16 % 4 := by omega
  have low4 : ws.w0.toNat % 256 / 4 % 4 = ws.w0.toNat / 4 % 4 := by omega
  have low1 : ws.w0.toNat % 256 % 4 = ws.w0.toNat % 4 := by omega
  rw [hvalid, rsvdOf_eq_zero, k1Of, k2Of, k3Of, slotValid_iff, slotValid_iff, slotValid_iff, if_neg h2, if_neg h3]
  simp only [validWords, ← opcodeOf_eq, hlow, hfirst, Shape.mem_lowBytes, decide_eq_true_eq, toNat_extract_two,
    low64, low16, low4, low1, Nat.reducePow, Nat.div_one]
  by_cases h0 : ws.w0.toNat / 64 % 4 = 0
  · rw [show ws.w0.toNat % 256 / 16 = ws.w0.toNat / 16 % 4 by omega]
    tauto
  · tauto

/-- V1 to V8 said with the tables of R87 and R29 are V1 to V8 slot by slot. -/
theorem validWords_iff {ws : Words z} : validWords n ws ↔ ∃ sh, WordsValid n sh ws := by
  cases hsh : shapeOf (opcodeOf ws.w0) with
  | some sh =>
    rw [validWords_iff_of_shape hsh]
    refine ⟨fun h => ⟨sh, h⟩, fun ⟨sh', h⟩ => ?_⟩
    obtain rfl := Option.some.inj (hsh.symm.trans h.shape)
    exact h
  | none =>
    have hlow := legalLowBytes_of_no_shape hsh
    constructor
    · rintro ⟨hmem, -⟩
      rw [← opcodeOf_eq, hlow] at hmem
      cases hmem
    · rintro ⟨sh, h⟩
      exact absurd (hsh.symm.trans h.shape) nofun

end Sys2Proof
end

section
/-! PROOFS of 30_encoding.md. The decoder and the encoder (R80 to R94, R107), an invalid instruction (R89), the operands
(R95, R96), the placing of an instruction in the reset state (log entry 9), and the frame of every instruction (R86). -/

namespace Sys2Proof.Machine

open Config Safety

variable {z : WordSize} {n : Nat}

/-! ## The round trip (R94, R107) -/

/-- Settles O1: shape by shape, each slot is read back as the operand that it encodes. -/
theorem decodeOfEncodeIsTheInstruction : Obligations.DecodeOfEncodeIsTheInstruction := fun _ _ _ hn hi =>
  decode_encode hn hi

/-- Valid words are the encoding of what they decode to, and it is well-formed (R88, R94). -/
theorem encode_of_decode {ws : Words z} {i : Instr} (h : decode n ws = .ok i) :
    encode z i = ws ∧ i.wf z n = true := by
  obtain ⟨⟨sh, hv⟩, hb⟩ := decode_eq_ok_iff.1 h
  exact hv.encode_build hb

/-- Settles O2: opcode by opcode, each slot is rebuilt from the operand read from it. -/
theorem encodeOfDecodeIsTheWords : Obligations.EncodeOfDecodeIsTheWords := fun _ _ _ _ h => encode_of_decode h

/-- Settles O3, from the two directions of the round trip. -/
theorem eachInstructionHasExactlyOneEncoding : Obligations.EachInstructionHasExactlyOneEncoding := by
  intro z n hn
  refine ⟨fun ws => ?_, fun ws ws' i h h' => ?_, fun i hi => ⟨encode z i, decode_encode hn hi, fun ws h => ?_⟩⟩
  · cases h : decode n ws with
    | error e => exact .inl ⟨e, rfl⟩
    | ok i => exact .inr ⟨i, (encode_of_decode h).2, rfl⟩
  · exact (encode_of_decode h).1.symm.trans (encode_of_decode h').1
  · exact (encode_of_decode h).1.symm

/-! ## Valid words and opcodes (R86, R88) -/

/-- Settles O4: both sides are V1 to V8 slot by slot. -/
theorem decodeAcceptsExactlyValidWords : Obligations.DecodeAcceptsExactlyValidWords := fun _ _ _ =>
  exists_decode_iff.trans validWords_iff.symm

/-- The operation word of every instruction is made of its opcode in the table and three kind fields (R81, R86). -/
theorem encode_w0 (z : WordSize) (i : Instr) : ∃ k1 < 4, ∃ k2 < 4, ∃ k3 < 4,
    (encode z i).w0 = opWord z (opcodeNumber i) k1 k2 k3 := by
  cases i with
  | add d a b | sub d a b | mul d a b | mulhss d a b | mulhsu d a b | mulhuu d a b | divss d a b | divuu d a b
  | remss d a b | remuu d a b | and d a b | or d a b | xor d a b | lsl d a b | rsl d a b =>
    exact ⟨2, by decide, _, a.kind_lt, _, b.kind_lt, rfl⟩
  | not d a | mov d a | load d a => exact ⟨2, by decide, _, a.kind_lt, 0, by decide, rfl⟩
  | store a b | cmpeq a b | cmpltu a b | cmplts a b => exact ⟨_, a.kind_lt, _, b.kind_lt, 0, by decide, rfl⟩
  | push a | jmp a | br a | brcond a => exact ⟨_, a.kind_lt, 0, by decide, 0, by decide, rfl⟩
  | pop d => exact ⟨2, by decide, 0, by decide, 0, by decide, rfl⟩
  | halt => exact ⟨0, by decide, 0, by decide, 0, by decide, rfl⟩

theorem opcodeNumber_bounds (i : Instr) : 1 ≤ opcodeNumber i ∧ opcodeNumber i ≤ 28 := by
  cases i <;> simp [opcodeNumber]

/-- Settles O6: the fields of the operation word do not overlap. -/
theorem opcodesFollowTheTable : Obligations.OpcodesFollowTheTable := by
  intro z i
  obtain ⟨hlo, hhi⟩ := opcodeNumber_bounds i
  obtain ⟨k1, h1, k2, h2, k3, h3, hw⟩ := encode_w0 z i
  rw [hw, toNat_opWord (by omega) h1 h2 h3]
  exact ⟨by omega, by omega, hlo, hhi⟩

/-- Settles O8: the words of the bytes are the encoding, which decodes. -/
theorem bytesOfAnInstructionDecode : Obligations.BytesOfAnInstructionDecode := fun _ _ _ rest hn hi =>
  decodeBytes_encodeBytes hn hi rest

/-- A fetch of words that do not decode reports why (R89). -/
theorem fetchInstr_of_decode_error {s : Cpu z} {ws : Words z} {e : Invalid}
    (htop : s.pc.toNat + z.IB < z.addressSpace) (hws : fetchWords s s.pc = .ok ws)
    (he : decode s.numGp ws = .error e) : fetchInstr s = .error (.invalidInstruction e) := by
  simp only [fetchInstr, if_neg (Nat.not_le.2 htop), hws, he]

/-- Settles O10: words that are not valid do not decode. -/
theorem invalidInstructionFaults : Obligations.InvalidInstructionFaults := by
  intro z s ws hrun htop hws hinvalid
  cases hd : decode s.numGp ws with
  | ok i => exact absurd ((decodeAcceptsExactlyValidWords z s.numGp ws).1 ⟨i, hd⟩) hinvalid
  | error e => exact ⟨e, step_of_fetchInstr_error hrun (fetchInstr_of_decode_error htop hws hd)⟩

/-- Settles O7: the decoder runs on each of the eight. -/
theorem writtenOutWordsDecode : Obligations.WrittenOutWordsDecode := by
  unfold Obligations.WrittenOutWordsDecode
  decide

/-! ## Operands (R95, R96) -/

/-- Settles O25: R95 and R96, case by case of the operand's class. -/
theorem operandResolution : Obligations.OperandResolution := by
  intro z s
  refine ⟨fun v => ?_, rfl, rfl, fun k r hr => ?_, fun v hv => if_pos hv, fun v hv => ?_, fun k v hk => ?_⟩
  · exact readOperand_ok.2 (.inl ⟨v.toNat, rfl, by simp⟩)
  · exact readOperand_ok.2 (.inr (.inr (.inr ⟨k, r, rfl, hr, rfl⟩)))
  · exact writeDst_ok.2 ⟨hv, rfl⟩
  · exact writeDst_ok.2 ⟨hk, rfl⟩

/-! ## The placing of an instruction (log entry 9) -/

theorem length_tableBytes (z : WordSize) (nbits w : Nat) : (tableBytes z nbits w).length = z.IB := by
  simp [tableBytes, natBytes]

theorem decodeBytes_of_decodeTableWord {nbits w : Nat} {i : Instr} (h : decodeTableWord nbits w = some i) :
    ∃ rest, decodeBytes resetSize resetNumGp (tableBytes resetSize nbits w) = .ok (i, rest) := by
  unfold decodeTableWord at h
  split at h
  case h_1 j rest hd => exact ⟨rest, hd.trans (by rw [Option.some.inj h])⟩
  case h_2 => cases h

/-- A machine with bytes stored where it fetches, running. -/
def startedWith (s : Cpu z) (bs : List Byte) : Cpu z := (s.setMem (s.mem.setBytes s.pc.toNat bs)).setHalt false

theorem withFetchWord_eq {s : Cpu z} (nbits w : Nat) (htop : s.pc.toNat + z.IB < z.addressSpace) :
    (State.mk z s).withFetchWord nbits w = ⟨z, startedWith s (tableBytes z nbits w)⟩ := by
  have hfit : s.pc.toNat + (tableBytes z nbits w).length ≤ z.addressSpace := by
    rw [length_tableBytes]; omega
  simp only [State.withFetchWord, if_pos htop, Cpu.place_eq_setBytes _ s hfit, startedWith]

/-- Instruction bytes stored where a machine fetches are what it fetches (R61, R71). -/
theorem fetchInstr_startedWith {s : Cpu z} {bs rest : List Byte} {i : Instr} (hm : s.mem.wf z = true)
    (hram : allRam s s.pc.toNat z.IB) (htop : s.pc.toNat + z.IB < z.addressSpace) (hlen : bs.length = z.IB)
    (h : decodeBytes z s.numGp bs = .ok (i, rest)) : fetchInstr (startedWith s bs) = .ok i := by
  have hbytes : (startedWith s bs).mem.bytesAt s.pc.toNat z.IB = bs :=
    hlen ▸ Memory.bytesAt_setBytes bs hm (by omega)
  have hwords : fetchWords (startedWith s bs) s.pc = .ok (wordsOfBytes z bs) :=
    (fetchWords_of_allRam (s := startedWith s bs) hram htop).trans (congrArg (Except.ok ∘ wordsOfBytes z) hbytes)
  exact fetchInstr_ok.2 ⟨htop, _, hwords, decode_of_decodeBytes h⟩

/-- Settles O24: the reset state fetches at address 0, where the bytes of the table's number stand. -/
theorem fetchWordRunsFirst : Obligations.FetchWordRunsFirst := by
  intro nbits w i h
  obtain ⟨rest, hdec⟩ := decodeBytes_of_decodeTableWord h
  have htop : (Cpu.start resetSize resetNumGp []).pc.toNat + resetSize.IB < resetSize.addressSpace := by decide
  have hfetch := fetchInstr_startedWith (s := Cpu.start resetSize resetNumGp []) (wf_start _ _) (fun _ _ => rfl) htop
    (length_tableBytes resetSize nbits w) hdec
  have hstate : State.reset.withFetchWord nbits w = _ := withFetchWord_eq nbits w htop
  rw [hstate]
  exact step_of_fetchInstr rfl hfetch

end Sys2Proof.Machine

namespace Sys2Proof.Safety

open Machine

variable {z : WordSize} {r : Row} {s t : Cpu z}

/-! ## The frame of an effect (R86) -/

theorem put_gp_of_ne {d : WReg} {k : Nat} (h : d ≠ .gp k) (s : Cpu z) (v : Word z) :
    (put s d v).gp[k]? = s.gp[k]? := by
  cases d with
  | sp => rfl
  | gp j => exact s.getElem?_setGp_ne j k v fun hj => h (congrArg WReg.gp hj)

theorem put_sp_of_ne {d : WReg} (h : d ≠ .sp) (s : Cpu z) (v : Word z) : (put s d v).sp = s.sp := by
  cases d with
  | sp => exact absurd rfl h
  | gp j => rfl

theorem Effect.gp_eq (h : Effect r s t) {k : Nat} (hk : r.destination ≠ some (.gp k)) : t.gp[k]? = s.gp[k]? := by
  cases h with
  | write | writeFlag | writeDrawn | pop => exact put_gp_of_ne (fun hd => hk (congrArg some hd)) _ _
  | store | compare | push | jump | stay | halt => rfl

theorem Effect.sp_eq (h : Effect r s t) (hd : r.destination ≠ some .sp) (hw : r.writesSp = false) : t.sp = s.sp := by
  cases h with
  | write | writeFlag | writeDrawn => exact put_sp_of_ne (fun h => hd (congrArg some h)) _ _
  | push | pop => cases hw
  | store | compare | jump | stay | halt => rfl

theorem Effect.pc_eq (h : Effect r s t) (hw : r.writesPc = false) : t.pc = s.pc := by
  cases h <;> simp at hw ⊢

theorem Effect.mem_eq (h : Effect r s t) (hw : r.writesMem = false) : t.mem = s.mem := by
  cases h <;> simp at hw ⊢

/-- A value is drawn by a division only, which writes `status.overflow` too (R137 to R140). -/
theorem Effect.draws_eq (h : Effect r s t) (hw : r.writesOverflow = false) : t.draws = s.draws := by
  cases h <;> simp at hw ⊢

/-- Settles O48: an instruction's effect leaves each field that its row of the table does not name. -/
theorem frameOfEveryInstruction : Obligations.FrameOfEveryInstruction := by
  intro z i s u h
  obtain ⟨t, rfl, ht⟩ := exec_effect h
  refine ⟨t, rfl, fun k hk => ht.gp_eq hk, ht.sp_eq, ht.pc_eq, ht.cmp_eq, ht.overflow_eq, fun hi => ?_,
    fun hw c => by rw [ht.mem_eq hw], ht.refused_eq, ht.draws_eq⟩
  rw [ht.halt_eq, rowOf, decide_eq_false hi, Bool.false_or]

end Sys2Proof.Safety
end

section
/-! SUPPORT of 30_encoding.md. The literals of the assembly language and their normal forms (R100 to R104): what a
normal form reads back as. -/

namespace Sys2Proof.Assembly

open Config

variable {z : WordSize} {n : Nat}

/-! ## Digits -/

theorem isDecDigit_eq_isDigit (c : Char) : isDecDigit c = c.isDigit := by
  simp [isDecDigit, Char.isDigit, UInt32.le_iff_toNat_le]

/-- Reading digits is the library's reading of digits. -/
theorem decFrom_eq_ofDigitChars {cs : List Char} (h : ∀ c ∈ cs, c.isDigit = true) (acc : Nat) :
    decFrom acc cs = some (Nat.ofDigitChars 10 cs acc) := by
  induction cs generalizing acc with
  | nil => rfl
  | cons c cs ih =>
    obtain ⟨hc, hcs⟩ := List.forall_mem_cons.1 h
    rw [decFrom, isDecDigit_eq_isDigit, if_pos hc, ih hcs, Nat.ofDigitChars_cons]
    rfl

theorem isDigit_of_mem_toDigits {k : Nat} {c : Char} (h : c ∈ Nat.toDigits 10 k) : c.isDigit = true :=
  Nat.isDigit_of_mem_toDigits (by decide) (by decide) h

theorem exists_toDigits_eq_cons (k : Nat) : ∃ c cs, Nat.toDigits 10 k = c :: cs ∧ c.isDigit = true := by
  obtain ⟨c, cs, h⟩ := List.exists_cons_of_ne_nil (Nat.toDigits_ne_nil (n := k) (b := 10))
  exact ⟨c, cs, h, isDigit_of_mem_toDigits (h ▸ List.mem_cons_self)⟩

theorem decNat_toDigits (k : Nat) : decNat (Nat.toDigits 10 k) = some k := by
  obtain ⟨c, cs, h, -⟩ := exists_toDigits_eq_cons k
  have hread := decFrom_eq_ofDigitChars (fun _ hc => isDigit_of_mem_toDigits (k := k) hc) 0
  rw [Nat.ofDigitChars_ten_toDigits] at hread
  rw [h] at hread ⊢
  exact hread

/-- No leading zeros (R104, R105). -/
theorem head?_toDigits_ne_zero {k : Nat} (hk : 0 < k) : (Nat.toDigits 10 k).head? ≠ some '0' := by
  induction k using Nat.strong_induction_on with
  | _ k ih =>
    by_cases h : k < 10
    · rw [Nat.toDigits_of_lt_base h, List.head?_cons, ne_eq, Option.some.injEq, Nat.digitChar_eq_zero]
      omega
    · rw [Nat.toDigits_of_base_le (by decide) (by omega), List.head?_append_of_ne_nil _ Nat.toDigits_ne_nil]
      exact ih (k / 10) (by omega) (by omega)

/-! ## Decimal literals (R101, R102) -/

theorem unsignedLiteral_unsignedNormal (k : Nat) : unsignedLiteral (unsignedNormal k) = some k := by
  rw [unsignedLiteral, unsignedNormal, List.getLast?_concat, if_pos rfl, List.dropLast_concat, decNat_toDigits]

/-- An unsigned literal does not end as a signed one does (R103). -/
theorem signedLiteral_unsignedNormal (k : Nat) : signedLiteral (unsignedNormal k) = none := by
  rw [signedLiteral, unsignedNormal, List.getLast?_concat, if_neg (by decide)]

theorem signedBody_minus (cs : List Char) :
    signedBody ('-' :: cs) = (decNat cs).map fun k : Nat => -(k : Int) := by
  rw [signedBody]
  cases decNat cs <;> rfl

theorem signedBody_plus (cs : List Char) : signedBody ('+' :: cs) = (decNat cs).map fun k : Nat => (k : Int) := by
  rw [signedBody]
  cases decNat cs <;> rfl

theorem signedBody_sign_toDigits (i : Int) :
    signedBody ((if i < 0 then '-' else '+') :: Nat.toDigits 10 i.natAbs) = some i := by
  split_ifs with h
  · rw [signedBody_minus, decNat_toDigits, Option.map_some, Int.ofNat_natAbs_of_nonpos h.le, Int.neg_neg]
  · rw [signedBody_plus, decNat_toDigits, Option.map_some, Int.natAbs_of_nonneg (Int.not_lt.1 h)]

theorem signedLiteral_signedNormal (i : Int) : signedLiteral (signedNormal i) = some i := by
  rw [signedLiteral, signedNormal, ← List.cons_append, List.getLast?_concat, if_pos rfl, List.dropLast_concat,
    signedBody_sign_toDigits]

theorem unsignedWord_unsignedNormal (w : Word z) : unsignedWord z (unsignedNormal w.toNat) = some w := by
  have hw : w.toNat < z.addressSpace := w.isLt
  simp only [unsignedWord, unsignedLiteral_unsignedNormal, if_pos hw, BitVec.ofNat_toNat, BitVec.setWidth_eq]

theorem signedWord_unsignedNormal (k : Nat) : signedWord z (unsignedNormal k) = none := by
  simp only [signedWord, signedLiteral_unsignedNormal]

theorem signedWord_signedNormal (w : Word z) : signedWord z (signedNormal w.toInt) = some w := by
  simp only [signedWord, signedLiteral_signedNormal, if_pos (And.intro w.le_toInt w.toInt_lt), BitVec.ofInt_toInt]

/-! ## Hexadecimal literals (R100) -/

theorem hexDigitValue_digitChar : ∀ d < 16, hexDigitValue (Nat.digitChar d) = some d := by decide

/-- The `k` low hexadecimal digits of a number, the highest first, read on from a value. -/
theorem hexFrom_digits (v k acc : Nat) :
    hexFrom acc ((List.range k).reverse.map fun i => Nat.digitChar (v / 16 ^ i % 16)) =
      some (16 ^ k * acc + v % 16 ^ k) := by
  induction k generalizing acc with
  | zero => simp [hexFrom, Nat.mod_one]
  | succ k ih =>
    have hd := hexDigitValue_digitChar (v / 16 ^ k % 16) (Nat.mod_lt _ (by decide))
    rw [List.range_succ, List.reverse_append, List.reverse_singleton, List.singleton_append, List.map_cons, hexFrom, hd]
    simp only [ih, Nat.mod_pow_succ, Option.some.injEq]
    ring

theorem hexLiteral_of_ne_nil {ds : List Char} (h : ds ≠ []) : hexLiteral ('0' :: 'x' :: ds) = hexFrom 0 ds := by
  obtain ⟨c, cs, rfl⟩ := List.exists_cons_of_ne_nil h
  rfl

/-- A word's hexadecimal digits are enough for it (C13). -/
theorem toNat_lt_pow_hexDigits (w : Word z) : w.toNat < 16 ^ hexDigits z := by
  have hW : z.W ≤ 4 * hexDigits z := by unfold hexDigits; omega
  calc w.toNat < 2 ^ z.W := w.isLt
    _ ≤ 2 ^ (4 * hexDigits z) := Nat.pow_le_pow_right (by decide) hW
    _ = 16 ^ hexDigits z := Nat.pow_mul 2 4 _

theorem hexLiteral_hexNormal (w : Word z) : hexLiteral (hexNormal w) = some w.toNat := by
  have hpos : hexDigits z ≠ 0 := by have := z.sixteen_le_W; unfold hexDigits; omega
  rw [hexNormal, hexLiteral_of_ne_nil (by simpa using hpos), hexFrom_digits, Nat.mul_zero, Nat.zero_add,
    Nat.mod_eq_of_lt (toNat_lt_pow_hexDigits w)]

theorem hexWord_hexNormal (w : Word z) : hexWord z (hexNormal w) = some w := by
  have hw : w.toNat < z.addressSpace := w.isLt
  simp only [hexWord, hexLiteral_hexNormal, if_pos hw, BitVec.ofNat_toNat, BitVec.setWidth_eq]

/-- Settles O57: each normal form reads back as its number, which is in the range of its literal. -/
theorem normalFormsReadBack : Obligations.NormalFormsReadBack := fun _ w =>
  ⟨unsignedWord_unsignedNormal w, signedWord_signedNormal w, hexWord_hexNormal w⟩

end Sys2Proof.Assembly
end

section
/-! PROOFS of 30_encoding.md. The assembler (R103, R105, R107): what it accepts has a valid encoding, and it reads an
instruction's disassembly (R108) as the instruction's encoding. -/

namespace Sys2Proof.Assembly

open Config

variable {z : WordSize} {n : Nat}

/-! ## Register names (R105) -/

theorem gpNumber_eq_some {ds : List Char} {k : Nat} (h : gpNumber n ds = some k) : k < n := by
  unfold gpNumber at h
  split at h
  case h_1 j _ =>
    split_ifs at h with hj
    obtain rfl := Option.some.inj h
    exact hj.1
  case h_2 => cases h

/-- A register name gives the code of a register that exists (R29). -/
theorem regCode_eq_some {cs : List Char} {r : Nat} (h : regCode n cs = some r) :
    r = 1 ∨ r = 2 ∨ r = 3 ∨ 256 ≤ r ∧ r < 256 + n := by
  unfold regCode at h
  split at h
  case h_1 => exact .inl (Option.some.inj h).symm
  case h_2 => exact .inr (.inl (Option.some.inj h).symm)
  case h_3 => exact .inr (.inr (.inl (Option.some.inj h).symm))
  case h_4 ds =>
    obtain ⟨k, hk, rfl⟩ := Option.map_eq_some_iff.1 h
    have hlt := gpNumber_eq_some hk
    exact .inr (.inr (.inr ⟨by omega, by omega⟩))
  case h_5 => cases h

/-- A text that does not begin with `%` names no register. -/
theorem regCode_of_head_ne {c : Char} {cs : List Char} (h : c ≠ '%') : regCode n (c :: cs) = none := by
  unfold regCode
  split <;> simp_all

theorem gpNumber_toDigits {k : Nat} (hk : k < n) : gpNumber n (Nat.toDigits 10 k) = some k := by
  have hzeros : (Nat.toDigits 10 k).head? ≠ some '0' ∨ Nat.toDigits 10 k = ['0'] := by
    rcases Nat.eq_zero_or_pos k with rfl | hpos
    · exact .inr (Nat.toDigits_zero 10)
    · exact .inl (head?_toDigits_ne_zero hpos)
  simp only [gpNumber, decNat_toDigits, if_pos (And.intro hk hzeros)]

theorem regCode_gpText {k : Nat} (hk : k < n) : regCode n (gpText k) = some (256 + k) := by
  simp [regCode, gpText, gpNumber_toDigits hk]

/-! ## Operands (R103, R107) -/

/-- What a slot of an operand class may hold (R86, R87). -/
def OpClass.slot : OpClass → Slot
  | .wreg => .dst
  | .src _ => .src

/-- The code that a register name gives fits a word (R5). -/
theorem toNat_regCode (hn : legalNumGp z n) {cs : List Char} {r : Nat} (h : regCode n cs = some r) :
    (BitVec.ofNat z.W r).toNat = r := by
  obtain rfl | rfl | rfl | ⟨hlo, hhi⟩ := regCode_eq_some h
  · exact toNat_of_lt_four (by decide)
  · exact toNat_of_lt_four (by decide)
  · exact toNat_of_lt_four (by decide)
  · obtain ⟨k, rfl⟩ := Nat.exists_eq_add_of_le hlo
    exact toNat_gpCode hn (by omega)

/-- An operand that the assembler accepts gives a valid slot. -/
theorem operandOf_valid (hn : legalNumGp z n) {c : OpClass} {cs : List Char} {k : Nat} {w : Word z}
    (h : operandOf z n c cs = some (k, w)) : k < 4 ∧ SlotValid n c.slot (kindOf (BitVec.ofNat 2 k)) w := by
  unfold operandOf at h
  split at h
  case h_1 r hr =>
    split_ifs at h with hdst
    obtain ⟨rfl, rfl⟩ := Prod.mk.inj (Option.some.inj h)
    refine ⟨by decide, slotValid_dst_iff.2 ⟨rfl, ?_⟩⟩
    have hcode := regCode_eq_some hr
    rw [toNat_regCode hn hr, Safety.dstSlotValid]
    omega
  case h_2 r i hr =>
    split_ifs at h with hsrc
    obtain ⟨rfl, rfl⟩ := Prod.mk.inj (Option.some.inj h)
    refine ⟨by decide, slotValid_src_iff.2 (.inr ⟨rfl, ?_⟩)⟩
    have hcode := regCode_eq_some hr
    rw [toNat_regCode hn hr]
    omega
  case h_3 => cases h
  case h_4 i hr =>
    obtain ⟨w', -, hw⟩ := Option.map_eq_some_iff.1 h
    obtain ⟨rfl, rfl⟩ := Prod.mk.inj hw
    exact ⟨by decide, slotValid_src_iff.2 (.inl rfl)⟩

/-- An operand of a list, or what an absent one gives: kind 00b and a zero word (R107). -/
def operandAt (os : List (Nat × Word z)) (i : Nat) : Nat × Word z := os.getD i (0, 0)

/-- The slot of the operand class at a place, unused where there is none. -/
def slotAt (cs : List OpClass) (i : Nat) : Slot := (cs.map OpClass.slot).getD i .none

/-- Every slot of accepted operands is valid, the absent ones too. -/
theorem operandsOf_valid (hn : legalNumGp z n) {cs : List OpClass} {ts : List (List Char)} {os : List (Nat × Word z)}
    (h : operandsOf z n cs ts = some os) (i : Nat) :
    (operandAt os i).1 < 4 ∧
      SlotValid n (slotAt cs i) (kindOf (BitVec.ofNat 2 (operandAt os i).1)) (operandAt os i).2 := by
  induction cs generalizing ts os i with
  | nil =>
    cases ts with
    | nil =>
      obtain rfl := Option.some.inj h
      exact ⟨Nat.succ_pos 3, slotValid_unused⟩
    | cons t ts => cases h
  | cons c cs ih =>
    cases ts with
    | nil => cases h
    | cons t ts =>
      unfold operandsOf at h
      split at h
      case h_1 o os' ho hos =>
        obtain rfl := Option.some.inj h
        cases i with
        | zero => exact operandOf_valid hn ho
        | succ i => exact ih hos i
      case h_2 => cases h

/-! ## Statements (R86, R107) -/

/-- Every row of the instruction table has an opcode of the shape that its operand classes say (R86, R87). -/
theorem shapeOf_table : ∀ row ∈ table,
    row.2.1 < 256 ∧ shapeOf row.2.1 = some ⟨slotAt row.2.2 0, slotAt row.2.2 1, slotAt row.2.2 2⟩ := by decide

theorem mem_table_of_rowOf {m : List Char} {op : Nat} {cs : List OpClass} (h : rowOf m = some (op, cs)) :
    ∃ name, (name, op, cs) ∈ table := by
  obtain ⟨⟨name, row⟩, hfind, rfl⟩ := Option.map_eq_some_iff.1 h
  exact ⟨name, List.mem_of_find?_eq_some hfind⟩

/-- Settles O58: an accepted statement has an opcode of the table and a valid slot for each operand class of its row. -/
theorem assemblerGivesValidEncodings : Obligations.AssemblerGivesValidEncodings := by
  intro z n m ts ws hn h
  unfold assemble at h
  split at h
  case h_1 op cs hrow =>
    obtain ⟨os, hos, rfl⟩ := Option.map_eq_some_iff.1 h
    obtain ⟨name, hmem⟩ := mem_table_of_rowOf hrow
    obtain ⟨hop, hsh⟩ := shapeOf_table _ hmem
    obtain ⟨hk1, hv1⟩ := operandsOf_valid hn hos 0
    obtain ⟨hk2, hv2⟩ := operandsOf_valid hn hos 1
    obtain ⟨hk3, hv3⟩ := operandsOf_valid hn hos 2
    exact exists_decode_iff.2 ⟨_, (congrArg shapeOf (opcodeOf_opWord hop hk1 hk2 hk3)).trans hsh,
      rsvdOf_opWord hop hk1 hk2 hk3, k1Of_opWord (z := z) hop hk1 hk2 hk3 ▸ hv1,
      k2Of_opWord (z := z) hop hk1 hk2 hk3 ▸ hv2, k3Of_opWord (z := z) hop hk1 hk2 hk3 ▸ hv3⟩
  case h_2 => cases h

/-! ## Disassembly (R108) -/

theorem operandOf_wregText {d : WReg} (hd : d.wf n = true) :
    operandOf z n .wreg (wregText d) = some (2, d.code z) := by
  cases d with
  | sp => rfl
  | gp k =>
    have hcode := regCode_gpText (of_decide_eq_true hd)
    simp only [operandOf, wregText, hcode]
    rw [if_pos (by omega)]
    rfl

theorem operandOf_rregText (c : ImmClass) {r : RReg} (hr : r.wf n = true) :
    operandOf z n (.src c) (rregText r) = some (2, r.code z) := by
  cases r with
  | pc | sp => rfl
  | gp k =>
    have hcode := regCode_gpText (of_decide_eq_true hr)
    simp only [operandOf, rregText, hcode]
    rw [if_pos (by omega)]
    rfl

/-- The text of an immediate begins with a digit or a sign. -/
theorem regCode_operandText_imm (z : WordSize) (c : ImmClass) (v : Nat) :
    regCode n (operandText z c (.imm v)) = none := by
  have unsigned (k : Nat) : regCode n (unsignedNormal k) = none := by
    obtain ⟨d, ds, h, hd⟩ := exists_toDigits_eq_cons k
    rw [unsignedNormal, h, List.cons_append]
    exact regCode_of_head_ne (by rintro rfl; exact absurd hd (by decide))
  cases c with
  | any | unsigned => exact unsigned _
  | signed =>
    rw [operandText, signedNormal]
    split_ifs <;> exact regCode_of_head_ne (by decide)

theorem immWord_operandText (c : ImmClass) (v : Nat) :
    immWord z c (operandText z c (.imm v)) = some (BitVec.ofNat z.W v) := by
  cases c with
  | signed => exact signedWord_signedNormal _
  | unsigned => exact unsignedWord_unsignedNormal _
  | any => simp only [immWord, operandText, signedWord_unsignedNormal, unsignedWord_unsignedNormal]

/-- A source operand's text is read as its kind and its slot. -/
theorem operandOf_operandText (c : ImmClass) {a : Operand} (ha : a.wf z n = true) :
    operandOf z n (.src c) (operandText z c a) = some (a.kind, a.slot z) := by
  cases a with
  | reg r => exact operandOf_rregText c ha
  | imm v => simp only [operandOf, regCode_operandText_imm, immWord_operandText]; rfl

/-- Every mnemonic of the table is found in its own row. -/
theorem rowOf_table : ∀ row ∈ table, rowOf row.1.toList = some row.2 := by decide

/-- A statement whose operands are accepted is made of its opcode and them. -/
theorem assemble_eq {m : String} {op : Nat} {cs : List OpClass} {ts : List (List Char)} {os : List (Nat × Word z)}
    (hrow : (m, op, cs) ∈ table) (hos : operandsOf z n cs ts = some os) :
    assemble z n m.toList ts = some (wordsOf op os) := by
  simp only [assemble, rowOf_table _ hrow, hos, Option.map_some]

section Shapes

variable {m : String} {op : Nat} {c1 c2 : ImmClass} {d : WReg} {a b : Operand}

theorem assemble_DSS (hrow : (m, op, [.wreg, .src c1, .src c2]) ∈ table)
    (hwf : (d.wf n && a.wf z n && b.wf z n) = true) :
    assemble z n m.toList [wregText d, operandText z c1 a, operandText z c2 b] = some (encDSS z op d a b) := by
  simp only [Bool.and_eq_true] at hwf
  obtain ⟨⟨hd, ha⟩, hb⟩ := hwf
  refine assemble_eq hrow (os := [(2, d.code z), (a.kind, a.slot z), (b.kind, b.slot z)]) ?_
  simp only [operandsOf, operandOf_wregText hd, operandOf_operandText _ ha, operandOf_operandText _ hb]

theorem assemble_DS (hrow : (m, op, [.wreg, .src c1]) ∈ table) (hwf : (d.wf n && a.wf z n) = true) :
    assemble z n m.toList [wregText d, operandText z c1 a] = some (encDS z op d a) := by
  simp only [Bool.and_eq_true] at hwf
  obtain ⟨hd, ha⟩ := hwf
  refine assemble_eq hrow (os := [(2, d.code z), (a.kind, a.slot z)]) ?_
  simp only [operandsOf, operandOf_wregText hd, operandOf_operandText _ ha]

theorem assemble_SS (hrow : (m, op, [.src c1, .src c2]) ∈ table) (hwf : (a.wf z n && b.wf z n) = true) :
    assemble z n m.toList [operandText z c1 a, operandText z c2 b] = some (encSS z op a b) := by
  simp only [Bool.and_eq_true] at hwf
  obtain ⟨ha, hb⟩ := hwf
  refine assemble_eq hrow (os := [(a.kind, a.slot z), (b.kind, b.slot z)]) ?_
  simp only [operandsOf, operandOf_operandText _ ha, operandOf_operandText _ hb]

theorem assemble_S (hrow : (m, op, [.src c1]) ∈ table) (ha : a.wf z n = true) :
    assemble z n m.toList [operandText z c1 a] = some (encS z op a) := by
  refine assemble_eq hrow (os := [(a.kind, a.slot z)]) ?_
  simp only [operandsOf, operandOf_operandText _ ha]

theorem assemble_D (hrow : (m, op, [.wreg]) ∈ table) (hd : d.wf n = true) :
    assemble z n m.toList [wregText d] = some (encD z op d) := by
  refine assemble_eq hrow (os := [(2, d.code z)]) ?_
  simp only [operandsOf, operandOf_wregText hd]

end Shapes

/-- Settles O59: each mnemonic has its row of the table (R86), and each operand is read by the class it is printed by. -/
theorem disassemblyAssembles : Obligations.DisassemblyAssembles := by
  intro z n i _ hi
  cases i with
  | add | sub | mul | mulhss | mulhsu | mulhuu | divss | divuu | remss | remuu | and | or | xor | lsl | rsl =>
    exact assemble_DSS (by decide) hi
  | not | mov | load => exact assemble_DS (by decide) hi
  | store | cmpeq | cmpltu | cmplts => exact assemble_SS (by decide) hi
  | push | jmp | br | brcond => exact assemble_S (by decide) hi
  | pop => exact assemble_D (by decide) hi
  | halt => exact assemble_eq (cs := []) (os := []) (by decide) rfl

end Sys2Proof.Assembly
end

section
/-! SUPPORT of 40_arithmetic.md. The results of the arithmetic instructions as integers (R131 to R141): the halves of a
double word, and the signed quotient and remainder. -/

namespace Sys2Proof.Machine

variable {w : Nat}

/-! ## Sums and differences (R131, R132) -/

theorem addResult_eq (x y : BitVec w) : addResult x y = BitVec.ofNat w ((x.toNat + y.toNat) % 2 ^ w) := by
  apply BitVec.eq_of_toNat_eq
  simp [addResult]

theorem subResult_eq (x y : BitVec w) : subResult x y = x - y := by
  rw [subResult, sub_eq_add_neg, BitVec.ofInt_add, BitVec.ofInt_neg, BitVec.sub_eq_add_neg]
  simp only [BitVec.ofInt_natCast, BitVec.ofNat_toNat, BitVec.setWidth_eq]

/-! ## Products (R133 to R136) -/

/-- The double word of a zero-extended word is its unsigned value (R13). -/
theorem zxdw_eq_ofInt (x : BitVec w) : zxdw x = BitVec.ofInt (2 * w) x.toNat := by
  rw [BitVec.ofInt_natCast, BitVec.ofNat_toNat, zxdw]

/-- The double word of a sign-extended word is its signed value (R13). -/
theorem sxdw_eq_ofInt (x : BitVec w) : sxdw x = BitVec.ofInt (2 * w) x.toInt := rfl

theorem lowHalf_eq_setWidth (p : BitVec (2 * w)) : lowHalf p = p.setWidth w :=
  (BitVec.setWidth_eq_extractLsb' (by omega)).symm

/-- The high half of an integer's double word is the floor of the integer divided by `2^w`, also where it is
negative: reducing by a multiple of `2^(2w)` reduces the floor by a multiple of `2^w`. -/
theorem highHalf_ofInt (n : Int) : highHalf (BitVec.ofInt (2 * w) n) = BitVec.ofInt w (n / 2 ^ w) := by
  have hpos : (0 : Int) < 2 ^ w := by positivity
  have hsq : (2 : Int) ^ (2 * w) = 2 ^ w * 2 ^ w := by rw [two_mul, pow_add]
  have hfloor : n % 2 ^ (2 * w) / 2 ^ w = n / 2 ^ w + 2 ^ w * -(n / 2 ^ (2 * w)) := by
    rw [← Int.add_mul_ediv_left n _ hpos.ne', Int.emod_def, hsq]
    congr 1
    ring
  have hmod : 0 ≤ n % 2 ^ (2 * w) := Int.emod_nonneg n (by positivity)
  apply BitVec.eq_of_toNat_eq
  rw [highHalf, BitVec.extractLsb'_toNat, Nat.shiftRight_eq_div_pow, BitVec.toNat_ofInt, BitVec.toNat_ofInt]
  zify
  rw [Int.toNat_of_nonneg hmod, Int.toNat_of_nonneg (Int.emod_nonneg _ hpos.ne'), hfloor, Int.add_mul_emod_self_left]

theorem mulLow_eq (x y : BitVec w) : mulLow x y = BitVec.ofNat w (x.toNat * y.toNat % 2 ^ w) := by
  have hw : w ≤ 2 * w := by omega
  apply BitVec.eq_of_toNat_eq
  rw [mulLow, lowHalf_eq_setWidth, BitVec.setWidth_mul _ _ hw, zxdw, zxdw, BitVec.setWidth_setWidth_of_le _ hw,
    BitVec.setWidth_setWidth_of_le _ hw]
  simp

theorem mulHighSS_eq (x y : BitVec w) : mulHighSS x y = BitVec.ofInt w (x.toInt * y.toInt / 2 ^ w) := by
  rw [mulHighSS, sxdw_eq_ofInt, sxdw_eq_ofInt, ← BitVec.ofInt_mul, highHalf_ofInt]

theorem mulHighSU_eq (x y : BitVec w) : mulHighSU x y = BitVec.ofInt w (x.toInt * y.toNat / 2 ^ w) := by
  rw [mulHighSU, sxdw_eq_ofInt, zxdw_eq_ofInt, ← BitVec.ofInt_mul, highHalf_ofInt]

theorem mulHighUU_eq (x y : BitVec w) : mulHighUU x y = BitVec.ofNat w (x.toNat * y.toNat / 2 ^ w) := by
  rw [mulHighUU, zxdw_eq_ofInt, zxdw_eq_ofInt, ← BitVec.ofInt_mul, highHalf_ofInt, ← BitVec.ofInt_natCast]
  push_cast
  rfl

/-! ## Quotients and remainders (R137 to R141) -/

theorem divUnsigned_eq (x y : BitVec w) : divUnsigned x y = x / y := BitVec.udiv_def.symm

theorem remUnsigned_eq (x y : BitVec w) : remUnsigned x y = x % y := BitVec.umod_def.symm

/-- The model's remainder of the truncated quotient is the truncated remainder (R139). -/
theorem remSigned_eq (x y : BitVec w) : remSigned x y = BitVec.ofInt w (x.toInt.tmod y.toInt) := by
  rw [remSigned, Int.tmod_def, mul_comm]

/-- The signed remainder always fits a word. -/
theorem toInt_remSigned (x y : BitVec w) : (remSigned x y).toInt = x.toInt.tmod y.toInt := by
  rw [remSigned_eq, ← BitVec.toInt_srem, BitVec.ofInt_toInt]

theorem divSigned_eq_sdiv (x y : BitVec w) : divSigned x y = x.sdiv y := by
  apply BitVec.eq_of_toInt_eq
  rw [divSigned, BitVec.toInt_ofInt, BitVec.toInt_sdiv]

theorem divSigned_mul_add_remSigned (x y : BitVec w) : divSigned x y * y + remSigned x y = x := by
  calc divSigned x y * y + remSigned x y
      = BitVec.ofInt w (x.toInt.tdiv y.toInt) * BitVec.ofInt w y.toInt + BitVec.ofInt w (x.toInt.tmod y.toInt) := by
        rw [divSigned, remSigned_eq, BitVec.ofInt_toInt]
    _ = BitVec.ofInt w (x.toInt.tdiv y.toInt * y.toInt + x.toInt.tmod y.toInt) := by
        rw [BitVec.ofInt_add, BitVec.ofInt_mul]
    _ = x := by rw [Int.tdiv_mul_add_tmod, BitVec.ofInt_toInt]

theorem natAbs_remSigned_lt (x : BitVec w) {y : BitVec w} (hy : y ≠ 0) :
    (remSigned x y).toInt.natAbs < y.toInt.natAbs := by
  have hne : y.toInt ≠ 0 := BitVec.toInt_zero ▸ BitVec.toInt_ne.2 hy
  rw [toInt_remSigned, Int.natAbs_tmod]
  exact Nat.mod_lt _ (Int.natAbs_pos.2 hne)

/-- A remainder other than 0 has the sign of the dividend (R139). -/
theorem remSigned_sign (x y : BitVec w) :
    (remSigned x y).toInt = 0 ∨ ((remSigned x y).toInt < 0 ↔ x.toInt < 0) := by
  rw [toInt_remSigned]
  rcases le_or_gt 0 x.toInt with hx | hx
  · have := Int.tmod_nonneg y.toInt hx
    omega
  · have := Int.tmod_nonneg y.toInt (a := -x.toInt) (by omega)
    rw [Int.neg_tmod] at this
    omega

/-- The least integer that a word of positive width holds is that of the bit pattern `intMin`. -/
theorem toInt_eq_neg_pow_iff (hw : 0 < w) {x : BitVec w} : x.toInt = -2 ^ (w - 1) ↔ x = BitVec.intMin w := by
  rw [← BitVec.toInt_inj, BitVec.toInt_intMin_of_pos hw]

theorem toInt_eq_neg_one_iff (hw : 0 < w) {y : BitVec w} : y.toInt = -1 ↔ y = -1#w := by
  rw [← BitVec.toInt_inj, BitVec.neg_one_eq_allOnes, BitVec.toInt_allOnes, if_pos hw]

/-- The one quotient that does not fit a word gives the dividend back, with no remainder (R137, R141). -/
theorem divSigned_intMin_neg_one {x y : BitVec w} (hx : x = BitVec.intMin w) (hy : y.toInt = -1) :
    divSigned x y = x ∧ remSigned x y = 0 := by
  constructor
  · rw [divSigned, hy, Int.tdiv_neg, Int.tdiv_one, BitVec.ofInt_neg, BitVec.ofInt_toInt, hx, BitVec.neg_intMin]
  · rw [remSigned_eq, hy, Int.tmod_neg, Int.tmod_one]
    rfl

end Sys2Proof.Machine
end

section
/-! SUPPORT of 40_arithmetic.md. What the forms of shape `D,S,S` answer on operands that read (R130). -/

namespace Sys2Proof.Safety

open Config Machine

variable {z : WordSize} {s : Cpu z} {d : WReg} {a b : Operand} {x y v : Word z}

/-! ## Writing the destination -/

theorem withSrc_of_ok {go : Word z → CpuResult z} (hx : readOperand s a = .ok x) : withSrc s a go = go x := by
  rw [withSrc, hx, withVal]

theorem withVal_writeDst_misaligned {go : Cpu z → CpuResult z} (h : misaligned d v) :
    withVal (writeDst s d v) go = .fault (.spMisaligned v.toNat) := by
  obtain ⟨rfl, hv⟩ := h
  rw [writeDst, if_pos hv, withVal]

/-- A destination that exists takes every value but a misaligned one (R96, R35). -/
theorem accepts_of_wf (hd : d.wf s.numGp = true) (h : ¬ misaligned d v) : accepts s d v := by
  cases d with
  | sp => exact not_not.1 fun hv => h ⟨rfl, hv⟩
  | gp k => exact of_decide_eq_true (p := k < s.numGp) hd

theorem put_tick_setOverflow (s : Cpu z) (d : WReg) (v : Word z) (f : Bool) :
    (put s.tick d v).setOverflow f = { put s d v with overflow := ⟨f, true⟩, draws := s.draws + 1 } := by
  cases d <;> rfl

/-- An answer `u` that goes on in the machine `t` where `d` takes `r`, and faults where `r` is misaligned for `%sp`. -/
def AnswersWrite (u : Result) (s : Cpu z) (d : WReg) (r : Word z) (t : Cpu z) : Prop :=
  (accepts s d r → u = .next ⟨z, t⟩) ∧ (misaligned d r → u = .fault (.spMisaligned r.toNat))

/-! ## The forms -/

/-- Shape `D,S,S` without a flag, on operands that read. -/
theorem binary_answersWrite {f : Word z → Word z → Word z} {r : Word z} (hx : readOperand s a = .ok x)
    (hy : readOperand s b = .ok y) (hr : f x y = r) :
    AnswersWrite ((State.mk z s).on (binary f d a b)) s d r (put s d r) := by
  subst hr
  refine ⟨fun h => ?_, fun h => ?_⟩
  · exact (State.on_next s).2 ⟨_, binary_next.2 ⟨x, y, hx, hy, h, rfl⟩, rfl⟩
  · rw [State.on_fault, binary, withSrc_of_ok hx, withSrc_of_ok hy, withVal_writeDst_misaligned h]

/-- Shape `D,S,S` that also writes `status.overflow`, on operands that read. -/
theorem binaryFlag_answersWrite {f : Word z → Word z → Word z} {g : Word z → Word z → Bool} {r : Word z}
    (hx : readOperand s a = .ok x) (hy : readOperand s b = .ok y) (hr : f x y = r) :
    AnswersWrite ((State.mk z s).on (binaryFlag f g d a b)) s d r ((put s d r).setOverflow (g x y)) := by
  subst hr
  refine ⟨fun h => ?_, fun h => ?_⟩
  · exact (State.on_next s).2 ⟨_, binaryFlag_next.2 ⟨x, y, hx, hy, h, rfl⟩, rfl⟩
  · rw [State.on_fault, binaryFlag, withSrc_of_ok hx, withSrc_of_ok hy, withVal_writeDst_misaligned h]

theorem divisorNonzero_zero : divisorNonzero (0 : Word z) = false := by
  simp [divisorNonzero]

theorem divisorNonzero_of_ne (h : y ≠ 0) : divisorNonzero y = true :=
  decide_eq_true (BitVec.toNat_pos_of_ne_zero h).ne'

/-- A division or remainder by zero takes the next drawn value, whose alignment decides whether `%sp` takes it. -/
theorem dividing_by_zero {f : Word z → Word z → Word z} (hx : readOperand s a = .ok x)
    (hy : readOperand s b = .ok 0) (hd : d.wf s.numGp = true) :
    (State.mk z s).on (dividing f divisorNonzero d a b) =
      if d = .sp ∧ s.anyW.toNat % z.WB ≠ 0 then .fault (.spMisaligned s.anyW.toNat)
      else .next ⟨z, { put s d s.anyW with overflow := ⟨false, true⟩, draws := s.draws + 1 }⟩ := by
  have h0 : (0 : Word z).toNat = 0 := BitVec.toNat_zero
  split_ifs with h
  · rw [State.on_fault, dividing, withSrc_of_ok hx, withSrc_of_ok hy, if_pos h0, withVal_writeDst_misaligned h]
  · rw [← put_tick_setOverflow, ← divisorNonzero_zero (z := z)]
    exact (State.on_next s).2
      ⟨_, dividing_next.2 ⟨x, 0, hx, hy, .inl ⟨h0, accepts_of_wf hd h, rfl⟩⟩, rfl⟩

/-- A division or remainder by another divisor writes its result, and 1 to `status.overflow`. -/
theorem dividing_answersWrite {f : Word z → Word z → Word z} {r : Word z} (hx : readOperand s a = .ok x)
    (hy : readOperand s b = .ok y) (h0 : y ≠ 0) (hr : f x y = r) :
    AnswersWrite ((State.mk z s).on (dividing f divisorNonzero d a b)) s d r ((put s d r).setOverflow true) := by
  subst hr
  have hne : y.toNat ≠ 0 := (BitVec.toNat_pos_of_ne_zero h0).ne'
  refine ⟨fun h => ?_, fun h => ?_⟩
  · rw [← divisorNonzero_of_ne h0]
    exact (State.on_next s).2 ⟨_, dividing_next.2 ⟨x, y, hx, hy, .inr ⟨hne, h, rfl⟩⟩, rfl⟩
  · rw [State.on_fault, dividing, withSrc_of_ok hx, withSrc_of_ok hy, if_neg hne, withVal_writeDst_misaligned h]

end Sys2Proof.Safety
end

section
/-! PROOFS of 40_arithmetic.md. The results of each instruction (R131 to R140), and the laws of the signed division
(R137, R139, R141). In a namespace of their own, for the model has an `addResult` and a `subResult`. -/

namespace Sys2Proof.Arithmetic

open Config Machine Safety

/-- Settles O26, by the form of `add`. -/
theorem addResult : Obligations.AddResult := fun _ _ _ _ _ x y hx hy =>
  binaryFlag_answersWrite hx hy (addResult_eq x y)

/-- Settles O27, by the form of `sub`. -/
theorem subResult : Obligations.SubResult := fun _ _ _ _ _ x y hx hy =>
  binaryFlag_answersWrite hx hy (subResult_eq x y)

/-- Settles O28, by the form of the four multiplications and the half of the double word that each takes. -/
theorem multiplyResults : Obligations.MultiplyResults := fun _ _ _ _ _ x y hx hy =>
  ⟨binary_answersWrite hx hy (mulLow_eq x y), binary_answersWrite hx hy (mulHighSS_eq x y),
    binary_answersWrite hx hy (mulHighSU_eq x y), binary_answersWrite hx hy (mulHighUU_eq x y)⟩

/-- Settles O29, by the form of the divisions: the divisor decides between a drawn value and the quotient. -/
theorem divssResult : Obligations.DivssResult := fun _ _ _ _ _ _ _ hx hy =>
  ⟨fun h0 hd => dividing_by_zero hx (h0 ▸ hy) hd, fun h0 => dividing_answersWrite hx hy h0 rfl⟩

/-- Settles O30, as O29. -/
theorem divuuResult : Obligations.DivuuResult := fun _ _ _ _ _ x y hx hy =>
  ⟨fun h0 hd => dividing_by_zero hx (h0 ▸ hy) hd, fun h0 => dividing_answersWrite hx hy h0 (divUnsigned_eq x y)⟩

/-- Settles O31, as O29: the model's remainder is the truncated one by `remSigned_eq`. -/
theorem remssResult : Obligations.RemssResult := fun _ _ _ _ _ x y hx hy =>
  ⟨fun h0 hd => dividing_by_zero hx (h0 ▸ hy) hd, fun h0 => dividing_answersWrite hx hy h0 (remSigned_eq x y)⟩

/-- Settles O32, as O29. -/
theorem remuuResult : Obligations.RemuuResult := fun _ _ _ _ _ x y hx hy =>
  ⟨fun h0 hd => dividing_by_zero hx (h0 ▸ hy) hd, fun h0 => dividing_answersWrite hx hy h0 (remUnsigned_eq x y)⟩

/-- Settles O33: the corner is `-2^(W-1)` by `-1`, the one pair of which the quotient does not fit a word. -/
theorem signedDivisionLaws : Obligations.SignedDivisionLaws := by
  intro z x y hy
  have hW : 0 < z.W := by have := z.sixteen_le_W; omega
  refine ⟨(divSigned_mul_add_remSigned x y).symm, natAbs_remSigned_lt x hy, remSigned_sign x y, fun hx h1 => ?_,
    fun hcorner => ?_⟩
  · exact divSigned_intMin_neg_one ((toInt_eq_neg_pow_iff hW).1 hx) h1
  · rw [toInt_eq_neg_pow_iff hW, toInt_eq_neg_one_iff hW, not_and_or] at hcorner
    rw [divSigned_eq_sdiv, BitVec.toInt_sdiv_of_ne_or_ne x y hcorner]

end Sys2Proof.Arithmetic
end

section
/-! SUPPORT of 41_logic_shift.md. The results of the bitwise and shift instructions (R151 to R156): the bitwise ones bit
by bit, the inversion and the shifts as numbers. -/

namespace Sys2Proof.Machine

variable {w : Nat}

/-! ## Bit by bit (R151 to R153) -/

theorem andResult_eq {x y r : BitVec w} (h : ∀ j, j < w → r.getLsbD j = (x.getLsbD j && y.getLsbD j)) :
    andResult x y = r :=
  BitVec.eq_of_getLsbD_eq fun j hj => by rw [andResult, BitVec.getLsbD_and, h j hj]

theorem orResult_eq {x y r : BitVec w} (h : ∀ j, j < w → r.getLsbD j = (x.getLsbD j || y.getLsbD j)) :
    orResult x y = r :=
  BitVec.eq_of_getLsbD_eq fun j hj => by rw [orResult, BitVec.getLsbD_or, h j hj]

theorem xorResult_eq {x y r : BitVec w} (h : ∀ j, j < w → r.getLsbD j = (x.getLsbD j != y.getLsbD j)) :
    xorResult x y = r :=
  BitVec.eq_of_getLsbD_eq fun j hj => by rw [xorResult, BitVec.getLsbD_xor, h j hj]

/-! ## As numbers (R154 to R156) -/

theorem notResult_eq (x : BitVec w) : notResult x = BitVec.ofNat w (2 ^ w - 1 - x.toNat) := by
  rw [notResult, ← BitVec.toNat_not, BitVec.ofNat_toNat, BitVec.setWidth_eq]

theorem shiftLeft_eq (x : BitVec w) (n : Nat) : shiftLeft x n = BitVec.ofNat w (x.toNat * 2 ^ n % 2 ^ w) := by
  rw [shiftLeft, ← Nat.shiftLeft_eq, ← BitVec.toNat_shiftLeft, BitVec.ofNat_toNat, BitVec.setWidth_eq]

theorem shiftRight_eq (x : BitVec w) (n : Nat) : shiftRight x n = BitVec.ofNat w (x.toNat / 2 ^ n) := by
  rw [shiftRight, ← Nat.shiftRight_eq_div_pow, ← BitVec.toNat_ushiftRight, BitVec.ofNat_toNat, BitVec.setWidth_eq]

end Sys2Proof.Machine
end

section
/-! SUPPORT of 41_logic_shift.md. What the form of shape `D,S` and the shifts answer on operands that read (R150). -/

namespace Sys2Proof.Safety

open Config Machine

variable {z : WordSize} {s : Cpu z} {d : WReg} {a b : Operand} {x y : Word z}

/-- Shape `D,S`, on an operand that reads. -/
theorem unary_answersWrite {f : Word z → Word z} {r : Word z} (hx : readOperand s a = .ok x) (hr : f x = r) :
    AnswersWrite ((State.mk z s).on (unary f d a)) s d r (put s d r) := by
  subst hr
  refine ⟨fun h => ?_, fun h => ?_⟩
  · exact (State.on_next s).2 ⟨_, unary_next.2 ⟨x, hx, h, rfl⟩, rfl⟩
  · rw [State.on_fault, unary, withSrc_of_ok hx, withVal_writeDst_misaligned h]

/-- A shift by at most `W`, an amount of exactly `W` included, writes its result. -/
theorem shifting_answersWrite {f : Word z → Nat → Word z} {r : Word z} (hx : readOperand s a = .ok x)
    (hy : readOperand s b = .ok y) (hn : y.toNat ≤ z.W) (hr : f x y.toNat = r) :
    AnswersWrite ((State.mk z s).on (shifting f d a b)) s d r (put s d r) := by
  subst hr
  refine ⟨fun h => ?_, fun h => ?_⟩
  · exact (State.on_next s).2 ⟨_, shifting_next.2 ⟨x, y, hx, hy, hn, h, rfl⟩, rfl⟩
  · rw [State.on_fault, shifting, withSrc_of_ok hx, withSrc_of_ok hy, if_neg (not_lt.2 hn),
      withVal_writeDst_misaligned h]

/-- A shift by more than `W` is illegal, whatever the destination would take. -/
theorem shifting_illegal {f : Word z → Nat → Word z} (hx : readOperand s a = .ok x)
    (hy : readOperand s b = .ok y) (hn : z.W < y.toNat) :
    (State.mk z s).on (shifting f d a b) = .fault (.illegalShift y.toNat) := by
  rw [State.on_fault, shifting, withSrc_of_ok hx, withSrc_of_ok hy, if_pos hn]

end Sys2Proof.Safety
end

section
/-! PROOFS of 41_logic_shift.md. The results of each instruction (R151 to R156). In a namespace of their own, for the
model has a `notResult`. -/

namespace Sys2Proof.LogicShift

open Config Machine Safety

/-- Settles O34, by the form of the three instructions: a word is determined by its bits. -/
theorem bitwiseResults : Obligations.BitwiseResults := fun _ _ _ _ _ _ _ hx hy =>
  ⟨fun _ hbits => binary_answersWrite hx hy (andResult_eq hbits),
    fun _ hbits => binary_answersWrite hx hy (orResult_eq hbits),
    fun _ hbits => binary_answersWrite hx hy (xorResult_eq hbits)⟩

/-- Settles O35, by the form of `not`. -/
theorem notResult : Obligations.NotResult := fun _ _ _ _ x hx =>
  unary_answersWrite hx (notResult_eq x)

/-- Settles O36, by the form of the shifts: the amount decides between the result and the fault. -/
theorem lslResult : Obligations.LslResult := fun _ _ _ _ _ x y hx hy =>
  ⟨fun hn => shifting_answersWrite hx hy hn (shiftLeft_eq x y.toNat), shifting_illegal hx hy⟩

/-- Settles O37, as O36. -/
theorem rslResult : Obligations.RslResult := fun _ _ _ _ _ x y hx hy =>
  ⟨fun hn => shifting_answersWrite hx hy hn (shiftRight_eq x y.toNat), shifting_illegal hx hy⟩

end Sys2Proof.LogicShift
end

section
/-! SUPPORT of 42_data_movement.md. The word that stands in memory is the word that is read (R56, R57), and what the
forms of the data movement instructions answer (R172 to R175): each fault at its test, in the order of the tests, and
the next state where there is none. -/

namespace Sys2Proof.Machine

open Config Safety

variable {z : WordSize} {s t : Cpu z} {a v v' : Word z} {b c : Nat}

/-! ## The word in memory -/

/-- Bytes in memory determine the word that stands there: bit `j` is bit `j % 8` of byte `j / 8` (R56). -/
theorem wordStands_unique (h : wordStands s b v) (h' : wordStands s b v') : v = v' := by
  have hbytes : wordBytes v = wordBytes v' :=
    List.map_congr_left fun i hi =>
      (h i (List.mem_range.1 hi)).trans (h' i (List.mem_range.1 hi)).symm
  rw [← wordOfBytes_wordBytes v, hbytes, wordOfBytes_wordBytes]

/-- What is read where no fault is met is the word that stands there (R57). -/
theorem memRead_of_wordStands (hok : accessible s a) (hv : wordStands s a.toNat v) : memRead s a = .ok v :=
  memRead_ok.2 ⟨hok, wordStands_unique hv (wordStands_wordAt s a.toNat)⟩

/-- A stored word leaves every byte outside it (R58). -/
theorem byteAt_of_storedWord (h : storedWord s t b v) (hc : c < b ∨ b + z.WB ≤ c) :
    t.mem.byteAt c = s.mem.byteAt c := by
  obtain ⟨-, hbytes⟩ := h
  rw [hbytes, if_neg (by omega)]

/-! ## Going on and stopping -/

theorem withVal_ok {α : Type} {r : Except Fault α} {x : α} {go : α → CpuResult z} (h : r = .ok x) :
    withVal r go = go x := by
  rw [h, withVal]

theorem withVal_error {α : Type} {r : Except Fault α} {f : Fault} {go : α → CpuResult z} (h : r = .error f) :
    withVal r go = .fault f := by
  rw [h, withVal]

/-- The next machine of a state's meaning is the meaning's. -/
theorem State.on_next_mk {m : Cpu z → CpuResult z} : (State.mk z s).on m = .next ⟨z, t⟩ ↔ m s = .next t := by
  rw [State.on_next]
  constructor
  · rintro ⟨_, h, ⟨⟩⟩
    exact h
  · exact fun h => ⟨t, h, rfl⟩

end Sys2Proof.Machine

namespace Sys2Proof.Safety

open Config Machine

variable {z : WordSize} {s t : Cpu z} {d : WReg} {a b : Operand} {x y v : Word z} {f : Fault}

/-! ## `load` and `store` -/

/-- `load` writes the word that stands at its address, at any alignment (R172). -/
theorem loading_answersWrite (hx : readOperand s a = .ok x) (hok : accessible s x) (hv : wordStands s x.toNat v) :
    AnswersWrite ((State.mk z s).on (loading d a)) s d v (put s d v) := by
  have hread : loading d a s = withVal (writeDst s d v) fun t => .next t := by
    rw [loading, withSrc_of_ok hx, withVal_ok (memRead_of_wordStands hok hv)]
  refine ⟨fun h => ?_, fun h => ?_⟩
  · rw [State.on_next_mk, hread, withVal_ok (writeDst_ok.2 ⟨h, rfl⟩)]
  · rw [State.on_fault, hread, withVal_writeDst_misaligned h]

theorem loading_of_accessFault (hx : readOperand s a = .ok x) (hf : s.accessFault x = some f) :
    (State.mk z s).on (loading d a) = .fault f := by
  rw [State.on_fault, loading, withSrc_of_ok hx, withVal_error (memRead_error.2 hf)]

/-- `store` completes where its address is accessible, at any alignment (R173). -/
theorem storing_completes (hx : readOperand s a = .ok x) (hy : readOperand s b = .ok y) (hok : accessible s x) :
    (State.mk z s).on (storing a b) = .next ⟨z, s.setMem (s.mem.setWord x.toNat y)⟩ :=
  State.on_next_mk.2 (storing_next.2 ⟨x, y, hx, hy, hok, rfl⟩)

theorem storing_of_accessFault (hx : readOperand s a = .ok x) (hy : readOperand s b = .ok y)
    (hf : s.accessFault x = some f) : (State.mk z s).on (storing a b) = .fault f := by
  rw [State.on_fault, storing, withSrc_of_ok hx, withSrc_of_ok hy, withVal_error (memWrite_error.2 hf)]

/-- Wherever `store` completes, it has stored a word at the value of Op1 (R173). -/
theorem storedWord_of_storing (hm : s.mem.wf z = true) (hx : readOperand s a = .ok x)
    (h : (State.mk z s).on (storing a b) = .next ⟨z, t⟩) : ∃ w : Word z, storedWord s t x.toNat w := by
  obtain ⟨x', w, hx', -, hok, rfl⟩ := storing_next.1 (State.on_next_mk.1 h)
  obtain rfl : x = x' := Except.ok.inj (hx.symm.trans hx')
  exact ⟨w, storedWord_setWord hm w hok.1⟩

/-! ## `push` -/

/-- Where `%sp` does not go below 0, the word below it lies in the address space. -/
theorem pushAddress_add_WB_le (h : z.WB ≤ s.sp.toNat) : (pushAddress s).toNat + z.WB ≤ z.addressSpace := by
  rw [toNat_pushAddress h, Nat.sub_add_cancel h]
  exact s.sp.isLt.le

/-- `push` completes where `%sp` does not go below 0 and the word below it is accessible (R174). -/
theorem pushing_completes (hx : readOperand s a = .ok x) (hsp : z.WB ≤ s.sp.toNat)
    (hok : accessible s (pushAddress s)) :
    (State.mk z s).on (pushing a) =
      .next ⟨z, (s.setMem (s.mem.setWord (pushAddress s).toNat x)).setSp (pushAddress s)⟩ :=
  State.on_next_mk.2 (pushing_next.2 ⟨x, hx, hsp, hok, rfl⟩)

theorem pushing_of_sp_lt (hx : readOperand s a = .ok x) (hsp : s.sp.toNat < z.WB) :
    (State.mk z s).on (pushing a) = .fault (.spWrap s.sp.toNat) := by
  rw [State.on_fault, pushing, withSrc_of_ok hx, if_pos hsp]

theorem pushing_of_accessFault (hx : readOperand s a = .ok x) (hsp : z.WB ≤ s.sp.toNat)
    (hf : s.accessFault (pushAddress s) = some f) : (State.mk z s).on (pushing a) = .fault f := by
  rw [State.on_fault, pushing, withSrc_of_ok hx, if_neg (not_lt.2 hsp), withVal_error (memWrite_error.2 hf)]

/-- What `push` makes of a machine is a store at the new `%sp` (R174). -/
theorem storedWord_push (hm : s.mem.wf z = true) (v : Word z) (hsp : z.WB ≤ s.sp.toNat) :
    storedWord (s.setSp (pushAddress s)) ((s.setMem (s.mem.setWord (pushAddress s).toNat v)).setSp (pushAddress s))
      (pushAddress s).toNat v :=
  storedWord_setWord (s := s.setSp (pushAddress s)) hm v (pushAddress_add_WB_le hsp)

/-- Wherever `push` completes, it has stored a word one word below the old `%sp` (R174). -/
theorem storedWord_of_pushing (hm : s.mem.wf z = true) (h : (State.mk z s).on (pushing a) = .next ⟨z, t⟩) :
    ∃ w : Word z, storedWord (s.setSp (pushAddress s)) t (pushAddress s).toNat w := by
  obtain ⟨w, -, hsp, -, rfl⟩ := pushing_next.1 (State.on_next_mk.1 h)
  exact ⟨w, storedWord_push hm w hsp⟩

/-! ## `pop` -/

/-- What `pop %sp` increments is the loaded value (D15, log entry 13). -/
theorem popBase_sp (v : Word z) (s : Cpu z) : popBase .sp v s = v := if_pos rfl

theorem popBase_gp (k : Nat) (v : Word z) (s : Cpu z) : popBase (.gp k) v s = s.sp := if_neg nofun

theorem popping_of_accessFault (hf : s.accessFault s.sp = some f) : (State.mk z s).on (popping d) = .fault f := by
  rw [State.on_fault, popping, withVal_error (memRead_error.2 hf)]

/-- The alignment of a value for `%sp` is tested before the increment (R175). -/
theorem popping_misaligned (hv : memRead s s.sp = .ok v) (hd : misaligned d v) :
    (State.mk z s).on (popping d) = .fault (.spMisaligned v.toNat) := by
  rw [State.on_fault, popping, withVal_ok hv]
  exact if_pos hd

theorem popping_spWrap (hv : memRead s s.sp = .ok v) (hd : ¬ misaligned d v)
    (htop : z.addressSpace ≤ (popBase d v s).toNat + z.WB) :
    (State.mk z s).on (popping d) = .fault (.spWrap s.sp.toNat) := by
  rw [State.on_fault, popping, withVal_ok hv]
  exact (if_neg hd).trans (if_pos htop)

/-- An accepted value whose increment stays in the address space is popped (R175). -/
theorem popping_completes (hv : memRead s s.sp = .ok v) (hd : accepts s d v)
    (htop : (popBase d v s).toNat + z.WB < z.addressSpace) :
    (State.mk z s).on (popping d) =
      .next ⟨z, (put s d v).setSp (popBase d v s + BitVec.ofNat z.W z.WB)⟩ := by
  obtain ⟨hok, rfl⟩ := memRead_ok.1 hv
  exact State.on_next_mk.2 (popping_next.2 ⟨hok, hd, htop, rfl⟩)

end Sys2Proof.Safety
end

section
/-! PROOFS of 42_data_movement.md. The results of each instruction (R171 to R175), and the bytes that `store` and `push`
leave. -/

namespace Sys2Proof.Safety

open Config Machine

/-- Settles O38, by the form of `mov`. -/
theorem movResult : Obligations.MovResult := fun _ _ _ _ _ hx =>
  unary_answersWrite hx rfl

/-- Settles O39, by the form of `load` and the faults of its access. -/
theorem loadResult : Obligations.LoadResult := fun _ _ _ _ _ hx =>
  ⟨fun _ hok hv => loading_answersWrite hx hok hv,
    fun hwrap => loading_of_accessFault hx (accessFault_of_wrap hwrap),
    fun _ htop hc => loading_of_accessFault hx (accessFault_of_lowestRefused htop hc)⟩

/-- Settles O40, by the form of `store`, the faults of its access, and the bytes that a stored word changes. -/
theorem storeResult : Obligations.StoreResult := fun _ _ _ _ _ y hm hx hy =>
  ⟨fun hok => ⟨_, storing_completes hx hy hok, storedWord_setWord hm y hok.1⟩,
    fun hwrap => storing_of_accessFault hx hy (accessFault_of_wrap hwrap),
    fun _ htop hc => storing_of_accessFault hx hy (accessFault_of_lowestRefused htop hc)⟩

/-- Settles O41: without underflow the address stored to is `sp - WB`, whose word cannot leave the address space. -/
theorem pushResult : Obligations.PushResult := by
  intro z a s x hm hx
  refine ⟨pushing_of_sp_lt hx, fun hsp hram => ?_, fun c hsp hc => ?_⟩
  · rw [← toNat_pushAddress hsp] at hram ⊢
    exact ⟨_, pushing_completes hx hsp ⟨pushAddress_add_WB_le hsp, hram⟩, rfl, storedWord_push hm x hsp⟩
  · rw [← toNat_pushAddress hsp] at hc
    exact pushing_of_accessFault hx hsp (accessFault_of_lowestRefused (pushAddress_add_WB_le hsp) hc)

/-- Settles O42: the tests of `pop` in their order, with what each kind of destination increments. -/
theorem popResult : Obligations.PopResult := by
  intro z s v
  refine ⟨fun d hwrap => popping_of_accessFault (accessFault_of_wrap hwrap),
    fun d c htop hc => popping_of_accessFault (accessFault_of_lowestRefused htop hc), fun hok hv => ?_⟩
  have hread : memRead s s.sp = .ok v := memRead_of_wordStands hok hv
  refine ⟨fun k hk => ⟨fun htop => ?_, fun htop => ?_⟩, fun hmod => popping_misaligned hread ⟨rfl, hmod⟩,
    fun hmod htop => ?_, fun hmod htop => ?_⟩
  · rw [← popBase_gp k v s] at htop ⊢
    exact popping_completes hread hk htop
  · exact popping_spWrap hread nofun (by rwa [popBase_gp])
  · exact popping_spWrap hread (fun hd => hd.2 hmod) (by rwa [popBase_sp])
  · exact popping_completes hread hmod (by rwa [popBase_sp])

/-- Settles O49: where either completes it has stored one word, and a stored word leaves the bytes outside it. -/
theorem storeAndPushFrame : Obligations.StoreAndPushFrame := by
  intro z s t hm
  constructor
  · intro a b x hx h c hc
    obtain ⟨w, hw⟩ := storedWord_of_storing hm hx h
    exact byteAt_of_storedWord hw hc
  · intro a h c hc
    obtain ⟨w, hw⟩ := storedWord_of_pushing hm h
    exact byteAt_of_storedWord (s := s.setSp (pushAddress s)) hw hc

end Sys2Proof.Safety
end

section
/-! SUPPORT of 43_compare.md. The relation of `cmpeq` bit by bit (R191), and what a compare answers on operands that
read (R190). -/

namespace Sys2Proof.Machine

/-- Words are determined by their bits (R191). -/
theorem sameBits_eq {w : Nat} (x y : BitVec w) :
    sameBits x y = decide (∀ j, j < w → x.getLsbD j = y.getLsbD j) :=
  decide_eq_decide.2 ⟨fun h _ _ => h ▸ rfl, fun h => BitVec.eq_of_getLsbD_eq h⟩

end Sys2Proof.Machine

namespace Sys2Proof.Safety

open Config Machine

variable {z : WordSize} {s : Cpu z} {a b : Operand} {x y : Word z}

/-- A compare completes, and writes the outcome to `status.cmp` alone (R190). -/
theorem comparing_completes {p : Word z → Word z → Bool} {r : Bool} (hx : readOperand s a = .ok x)
    (hy : readOperand s b = .ok y) (hr : p x y = r) :
    (State.mk z s).on (comparing p a b) = .next ⟨z, s.setCmp r⟩ := by
  subst hr
  exact State.on_next_mk.2 (comparing_next.2 ⟨x, y, hx, hy, rfl⟩)

end Sys2Proof.Safety
end

section
/-! PROOFS of 43_compare.md. The outcome of each compare (R191 to R193). -/

namespace Sys2Proof.Safety

open Config Machine

/-- Settles O43, by the form of the compares: `cmpeq` by the bits of the words, the two orders as they are defined. -/
theorem compareResults : Obligations.CompareResults := fun _ _ _ _ x y hx hy =>
  ⟨comparing_completes hx hy (sameBits_eq x y), comparing_completes hx hy rfl, comparing_completes hx hy rfl⟩

end Sys2Proof.Safety
end

section
/-! SUPPORT of 44_control.md. The target of a relative branch as a word (R202), and what the control transfers answer on
an operand that reads (R200). -/

namespace Sys2Proof.Machine

/-- The exact sum of a branch, taken modulo `2 ^ w`, is the word sum (R202). -/
theorem ofInt_toNat_add_toInt {w : Nat} (p x : BitVec w) : BitVec.ofInt w (p.toNat + x.toInt) = p + x := by
  rw [BitVec.ofInt_add, BitVec.ofInt_natCast, BitVec.ofNat_toNat, BitVec.setWidth_eq, BitVec.ofInt_toInt]

end Sys2Proof.Machine

namespace Sys2Proof.Safety

open Config Machine

variable {z : WordSize} {s : Cpu z} {a : Operand} {x : Word z}

/-- `jmp` completes on every target (R201). -/
theorem jumping_completes (hx : readOperand s a = .ok x) :
    (State.mk z s).on (jumping a) = .next ⟨z, s.setPc x⟩ :=
  State.on_next_mk.2 (withSrc_of_ok hx)

/-! ## Relative branches -/

/-- An answer `u` that goes on at `next_pc + x` where the exact sum is an address, and else is `Fault(PcOverflow)`. -/
def AnswersBranch (u : Result) (s : Cpu z) (x : Word z) : Prop :=
  let t := (s.pc.toNat : Int) + x.toInt
  (0 ≤ t → t < 2 ^ z.W → u = .next ⟨z, s.setPc (s.pc + x)⟩) ∧
    (t < 0 ∨ 2 ^ z.W ≤ t → u = .fault (.pcOverflow (s.pc - BitVec.ofNat z.W z.IB).toNat (some x.toInt)))

theorem addressSpace_cast (z : WordSize) : (z.addressSpace : Int) = 2 ^ z.W := by
  rw [z.addressSpace_eq, Nat.cast_pow, Nat.cast_ofNat]

/-- A meaning that comes to a relative branch by `x` answers as the branch does (R202). -/
theorem answersBranch_of_eq_branchBy {m : Cpu z → CpuResult z} (h : m s = branchBy s x) :
    AnswersBranch ((State.mk z s).on m) s x := by
  refine ⟨fun hlow hhigh => ?_, fun hout => ?_⟩
  · rw [State.on_next_mk, h, branchBy_next, addressSpace_cast, ofInt_toNat_add_toInt]
    exact ⟨hlow, hhigh, rfl⟩
  · rw [← addressSpace_cast] at hout
    rw [State.on_fault, h, branchBy]
    exact if_pos hout

theorem branching_answersBranch (hx : readOperand s a = .ok x) :
    AnswersBranch ((State.mk z s).on (branching a)) s x :=
  answersBranch_of_eq_branchBy (withSrc_of_ok hx)

/-- With `status.cmp` set, `brcond` is `br` (R203). -/
theorem branchingIf_answersBranch (hx : readOperand s a = .ok x) (hc : s.cmp.value = true) :
    AnswersBranch ((State.mk z s).on (branchingIf a)) s x :=
  answersBranch_of_eq_branchBy ((withSrc_of_ok hx).trans (if_pos hc))

/-- With `status.cmp` clear, `brcond` changes nothing, whatever its offset (R203). -/
theorem branchingIf_not_taken (hx : readOperand s a = .ok x) (hc : s.cmp.value = false) :
    (State.mk z s).on (branchingIf a) = .next ⟨z, s⟩ :=
  State.on_next_mk.2 (branchingIf_next.2 ⟨x, hx, .inr ⟨hc, rfl⟩⟩)

end Sys2Proof.Safety
end

section
/-! PROOFS of 44_control.md. The results of each instruction (R201 to R204). -/

namespace Sys2Proof.Safety

open Config Machine

/-- Settles O44: the operand's value is the target, unchecked. -/
theorem jmpResult : Obligations.JmpResult := fun _ _ _ _ => jumping_completes

/-- Settles O45: the model's target, an exact sum reduced modulo `2 ^ W`, is the word sum where it is an address. -/
theorem brResult : Obligations.BrResult := fun _ _ _ _ => branching_answersBranch

/-- Settles O46, by the two values of `status.cmp`. -/
theorem brcondResult : Obligations.BrcondResult := fun _ _ _ _ hx =>
  ⟨branchingIf_answersBranch hx, branchingIf_not_taken hx⟩

/-- Settles O47: the state after `halt` is halted, and a halted machine has no step. -/
theorem haltResult : Obligations.HaltResult := by
  intro z s
  have hexec : exec .halt ⟨z, s⟩ = .next ⟨z, s.setHalt true⟩ := rfl
  refine ⟨hexec, fun t h => ?_⟩
  obtain rfl := Host.Outcome.next.inj (hexec.symm.trans h)
  exact step_of_halted (s.setHalt_halt true)

end Sys2Proof.Safety
end

section
/-! SUPPORT of 60_exceptions.md. Which of V1, V2 and V3 the decoder reports (R226 point 3), and that no form of a
meaning answers a refusal (R222, R224). -/

namespace Sys2Proof

variable {z : WordSize} {n : Nat} {ws : Words z}

/-! ## The conditions on word 0 (R88 V1 to V3) -/

/-- The opcodes that have a shape are those of the table (R86). -/
theorem shapeOf_eq_none_iff {op : Nat} : shapeOf op = none ↔ ¬(1 ≤ op ∧ op ≤ 28) := by
  have in_table : ∀ k ≤ 28, shapeOf k = none ↔ ¬(1 ≤ k ∧ k ≤ 28) := by decide
  by_cases hop : op ≤ 28
  · exact in_table op hop
  · refine iff_of_true ?_ (by omega)
    unfold shapeOf
    split
    case h_29 => rfl
    all_goals omega

theorem kindOf_eq_reserved : ∀ {b : BitVec 2}, kindOf b = .reserved ↔ b.toNat = 3 := by decide

/-- What V3 excludes: some operand kind is 11b. -/
def hasReservedKind (w0 : Word z) : Prop :=
  k1Of w0 = .reserved ∨ k2Of w0 = .reserved ∨ k3Of w0 = .reserved

theorem hasReservedKind_iff {w0 : Word z} :
    hasReservedKind w0 ↔ w0.toNat / 16 % 4 = 3 ∨ w0.toNat / 4 % 4 = 3 ∨ w0.toNat % 4 = 3 := by
  simp only [hasReservedKind, k1Of, k2Of, k3Of, kindOf_eq_reserved, toNat_extract_two, Nat.reducePow, Nat.div_one]

/-! ## What is reported -/

/-- The report on word 0: V1, V2 or V3, each where it is the first that fails, or else none of the three. -/
inductive Word0Report (w0 : Word z) : Option Invalid → Prop where
  | unknownOpcode (hop : ¬(1 ≤ opcodeOf w0 ∧ opcodeOf w0 ≤ 28)) : Word0Report w0 (some .unknownOpcode)
  | reservedBits (hop : 1 ≤ opcodeOf w0 ∧ opcodeOf w0 ≤ 28) (hrsvd : w0.toNat / 64 % 4 ≠ 0) :
    Word0Report w0 (some .reservedBits)
  | reservedKind (hop : 1 ≤ opcodeOf w0 ∧ opcodeOf w0 ≤ 28) (hrsvd : w0.toNat / 64 % 4 = 0)
    (hkind : hasReservedKind w0) : Word0Report w0 (some .reservedKind)
  | other {e : Option Invalid} (hop : 1 ≤ opcodeOf w0 ∧ opcodeOf w0 ≤ 28) (hrsvd : w0.toNat / 64 % 4 = 0)
    (hkind : ¬ hasReservedKind w0)
    (he : e ≠ some .unknownOpcode ∧ e ≠ some .reservedBits ∧ e ≠ some .reservedKind) : Word0Report w0 e

theorem word0Report_firstInvalid (n : Nat) (ws : Words z) : Word0Report ws.w0 (firstInvalid n ws) := by
  unfold firstInvalid
  cases hsh : shapeOf (opcodeOf ws.w0) with
  | none => exact .unknownOpcode (shapeOf_eq_none_iff.1 hsh)
  | some sh =>
    have hop : 1 ≤ opcodeOf ws.w0 ∧ opcodeOf ws.w0 ≤ 28 := by
      by_contra hop
      exact absurd (hsh.symm.trans (shapeOf_eq_none_iff.2 hop)) nofun
    dsimp only
    split_ifs with hrsvd hkind
    · exact .reservedBits hop (mt (rsvdOf_eq_zero _).2 hrsvd)
    · exact .reservedKind hop ((rsvdOf_eq_zero _).1 (not_not.1 hrsvd)) hkind
    all_goals exact .other hop ((rsvdOf_eq_zero _).1 (not_not.1 hrsvd)) hkind (by decide)

/-- Words that meet V1 to V8 build an instruction, so the decoder's report is the first condition that fails. -/
theorem decode_eq_error_iff {e : Invalid} : decode n ws = .error e ↔ firstInvalid n ws = some e := by
  rw [decode]
  cases h : firstInvalid n ws with
  | some e' => simp
  | none =>
    obtain ⟨sh, hv⟩ := firstInvalid_eq_none_iff.1 h
    obtain ⟨i, hi⟩ := exists_build hv.shape
    simp [hi]

end Sys2Proof

namespace Sys2Proof.Safety

open Config Machine

variable {z : WordSize}

/-! ## Completion or a fault -/

/-- An outcome that is a next state or a fault. -/
def Answered {σ φ ρ : Type} (x : Host.Outcome σ φ ρ) : Prop := ∀ r, x ≠ .refused r

theorem answered_next {σ φ ρ : Type} (s : σ) : Answered (.next s : Host.Outcome σ φ ρ) := nofun

theorem answered_fault {σ φ ρ : Type} (e : φ) : Answered (.fault e : Host.Outcome σ φ ρ) := nofun

/-- A value or a fault: going on is all that could refuse. -/
theorem Answered.withVal {α : Type} {x : Except Fault α} {go : α → CpuResult z} (hgo : ∀ v, Answered (go v)) :
    Answered (withVal x go) := by
  cases x with
  | error e => exact answered_fault e
  | ok v => exact hgo v

theorem Answered.on {m : Cpu z → CpuResult z} {s : Cpu z} (h : Answered (m s)) :
    Answered ((State.mk z s).on m) := fun r hr => h r ((State.on_refused s).1 hr)

theorem answered_branchBy (s : Cpu z) (off : Word z) : Answered (branchBy s off) := by
  unfold branchBy
  dsimp only
  split_ifs
  · exact answered_fault _
  · exact answered_next _

/-- No form refuses: each reads, tests and writes, and ends in a next state or in a fault of R224. -/
theorem Form.answered {r : Row} {m : Cpu z → CpuResult z} (hm : Form r m) (s : Cpu z) : Answered (m s) := by
  cases hm with
  | binary f d a b | binaryFlag f g d a b =>
    exact .withVal fun x => .withVal fun y => .withVal fun t => answered_next _
  | dividing f g d a b =>
    refine .withVal fun x => .withVal fun y => ?_
    split_ifs with hy
    · exact .withVal fun t => answered_next _
    · exact .withVal fun t => answered_next _
  | unary f d a => exact .withVal fun x => .withVal fun t => answered_next t
  | shifting f d a b =>
    refine .withVal fun x => .withVal fun k => ?_
    split_ifs with hk
    · exact answered_fault _
    · exact .withVal fun t => answered_next t
  | loading d a | storing a b =>
    exact .withVal fun x => .withVal fun v => .withVal fun t => answered_next t
  | comparing p a b => exact .withVal fun x => .withVal fun y => answered_next _
  | pushing a =>
    refine .withVal fun v => ?_
    split_ifs with hsp
    · exact answered_fault _
    · exact .withVal fun t => answered_next _
  | popping d =>
    refine .withVal fun v => ?_
    split_ifs with hv hsp
    · exact answered_fault _
    · exact answered_fault _
    · exact .withVal fun t => answered_next _
  | jumping a => exact .withVal fun v => answered_next _
  | branching a => exact .withVal fun off => answered_branchBy s off
  | branchingIf a =>
    refine .withVal fun off => ?_
    split_ifs with hc
    · exact answered_branchBy s off
    · exact answered_next s
  | halting => exact answered_next _

theorem exec_answered (i : Instr) (s : State) : Answered (exec i s) := by
  obtain ⟨z, s⟩ := s
  obtain ⟨m, hm, hexec⟩ := exists_form z i
  rw [hexec]
  exact (hm.answered s).on

/-- A step answers its own state, the fault of its fetch, or what its instruction answers (R31). -/
theorem step_answered (s : State) : Answered (step s) := by
  unfold step
  split_ifs with hhalt
  · exact answered_next s
  · cases fetchInstr s.cpu with
    | error e => exact answered_fault e
    | ok i => exact exec_answered i s.advance

end Sys2Proof.Safety
end

section
/-! PROOFS of 60_exceptions.md. The first condition on word 0 that fails is the one reported (R226), and nothing
is refused (R222, R224). -/

namespace Sys2Proof.Safety

open Config Machine

/-- Settles O5, by the four reports that word 0 admits. -/
theorem firstFailingConditionIsReported : Obligations.FirstFailingConditionIsReported := by
  intro z n ws
  simp only [decode_eq_error_iff, ← hasReservedKind_iff, ← opcodeOf_eq]
  have hreport := word0Report_firstInvalid n ws
  generalize firstInvalid n ws = e at hreport ⊢
  cases hreport with
  | unknownOpcode hop => simp [hop]
  | reservedBits hop hrsvd => simp [hop, hrsvd]
  | reservedKind hop hrsvd hkind => simp [hop, hrsvd, hkind]
  | other hop hrsvd hkind he => simp [hop, hrsvd, hkind, he]

/-- Settles O21: every arm of `exec` runs a form, and a step that fetches executes. -/
theorem noInstructionIsRefused : Obligations.NoInstructionIsRefused :=
  ⟨exec_answered, step_answered⟩

end Sys2Proof.Safety
end
